-- ==== Sys2Proof/Word.lean ====
section
/-! DEFINITION. The words of the LMDC (spec/00_scope.md R8, R11): bytes, command words, pixel planes, frames. -/

namespace Sys2Proof

/-- A byte: a shadow byte, a register address or a data byte of a frame pair (R8). -/
abbrev Byte := BitVec 8

/-- A command word (30_encoding.md R66). -/
abbrev CmdWord := BitVec 32

/-- The 512-bit pixel plane: bit `y*64 + x` is the pixel at column `x`, row `y` (10_state.md R27). -/
abbrev Plane := BitVec 512

/-- A frame: a byte list, first byte first on the wire (00_scope.md R11, 20_memory.md R52). -/
abbrev Frame := List Byte

end Sys2Proof
end

