-- ==== Sys2Proof/Syntax.lean ====
section
/-! DEFINITION. The twelve commands of spec/opcode_table.json (30_encoding.md R67) as one inductive type. Operands
are unsigned integers (R69): an index or a requested length is a natural number (00_scope.md R10), a transmitted
value is a byte. -/

namespace Sys2Proof

/-- The commands of the LMDC, one constructor per row of the opcode table. -/
inductive Instr where
  /-- `INIT requestedLength` (41_lifecycle.md R100). -/
  | init (req : Nat)
  /-- `SET_POWER chip, on` (42_chip_config.md R116). -/
  | setPower (chip : Nat) (on : Bool)
  /-- `SET_SCAN_LIMIT chip, limit` (R119). -/
  | setScanLimit (chip : Nat) (limit : Byte)
  /-- `SET_INTENSITY chip, level` (R120). -/
  | setIntensity (chip : Nat) (level : Byte)
  /-- `CLEAR chip` (43_pattern.md R135). -/
  | clear (chip : Nat)
  /-- `CLEAR_ALL` (R136). -/
  | clearAll
  /-- `SET_CELL chip, row, col, lit` (R137). -/
  | setCell (chip row col : Nat) (lit : Bool)
  /-- `SET_ROW chip, row, value` (R139). -/
  | setRow (chip row : Nat) (value : Byte)
  /-- `SET_ROW_ALL row, value` (R140). -/
  | setRowAll (row : Nat) (value : Byte)
  /-- `SET_COLUMN chip, col, value` (R141). -/
  | setColumn (chip col : Nat) (value : Byte)
  /-- `DRAW` (44_rasterizer.md R160); its plane comes from `pix_in`. -/
  | draw
  /-- `RELEASE` (41_lifecycle.md R106). -/
  | release
  deriving DecidableEq, Repr

end Sys2Proof
end

