-- ==== Sys2Proof/WellFormed.lean ====
section
/-! DEFINITION. Which commands a word can spell: every index operand fits its 8-bit field (spec/30_encoding.md R69,
R75: an operand outside 0..255 is not a word). -/

namespace Sys2Proof

/-- An operand that its 8-bit field can hold (R69). -/
def fitsField (x : Nat) : Bool := decide (x ≤ 255)

/-- The command can be written in the encoding of R68. Values of type `Byte` fit by their type. -/
def Instr.wf : Instr → Bool
  | .init req => fitsField req
  | .setPower chip _ => fitsField chip
  | .setScanLimit chip _ => fitsField chip
  | .setIntensity chip _ => fitsField chip
  | .clear chip => fitsField chip
  | .clearAll => true
  | .setCell chip row col _ => fitsField chip && fitsField row && fitsField col
  | .setRow chip row _ => fitsField chip && fitsField row
  | .setRowAll row _ => fitsField row
  | .setColumn chip col _ => fitsField chip && fitsField col
  | .draw => true
  | .release => true

end Sys2Proof
end

