-- ==== Sys2Proof/Decode.lean ====
section
/-! DEFINITION. Decoding and encoding of command words (spec/30_encoding.md R66 to R74). A word spells a command
exactly when it meets that row's mask and match (R68); every other word is illegal (R70, R71). -/

namespace Sys2Proof

/-- `w[23:16]`, the field `A`, as a natural number (R66, R69). -/
def fieldA (w : CmdWord) : Nat := (w.extractLsb' 16 8).toNat

/-- `w[15:8]`, the field `B`, as a natural number (R66, R69). -/
def fieldB (w : CmdWord) : Nat := (w.extractLsb' 8 8).toNat

/-- `w[7:0]`, the field `C`, as a byte (R66, R69). -/
def fieldC (w : CmdWord) : Byte := w.extractLsb' 0 8

/-- `w[24]`, the field `L`, as a Boolean (R66, R69). -/
def fieldL (w : CmdWord) : Bool := w.getLsbD 24

/-- One row of the table of R68: the word spells the command when `w & mask = pattern`. -/
structure DecodeRow where
  mask : CmdWord
  pattern : CmdWord
  build : CmdWord → Instr

/-- The table of R68, in its order, with the operands of R69. -/
def decodeRows : List DecodeRow :=
  [ ⟨0xFFFFFF00#32, 0x10000000#32, fun w => .init (fieldC w).toNat⟩,
    ⟨0xFE00FFFF#32, 0x20000000#32, fun w => .setPower (fieldA w) (fieldL w)⟩,
    ⟨0xFF00FF00#32, 0x30000000#32, fun w => .setScanLimit (fieldA w) (fieldC w)⟩,
    ⟨0xFF00FF00#32, 0x40000000#32, fun w => .setIntensity (fieldA w) (fieldC w)⟩,
    ⟨0xFF00FFFF#32, 0x50000000#32, fun w => .clear (fieldA w)⟩,
    ⟨0xFFFFFFFF#32, 0x60000000#32, fun _ => .clearAll⟩,
    ⟨0xFE000000#32, 0x70000000#32, fun w => .setCell (fieldA w) (fieldB w) (fieldC w).toNat (fieldL w)⟩,
    ⟨0xFF000000#32, 0x80000000#32, fun w => .setRow (fieldA w) (fieldB w) (fieldC w)⟩,
    ⟨0xFFFF0000#32, 0x90000000#32, fun w => .setRowAll (fieldB w) (fieldC w)⟩,
    ⟨0xFF000000#32, 0xA0000000#32, fun w => .setColumn (fieldA w) (fieldB w) (fieldC w)⟩,
    ⟨0xFFFFFFFF#32, 0xB0000000#32, fun _ => .draw⟩,
    ⟨0xFFFFFFFF#32, 0xC0000000#32, fun _ => .release⟩ ]

/-- The word meets the row's mask and match (R68). -/
def DecodeRow.spells (r : DecodeRow) (w : CmdWord) : Bool := w &&& r.mask == r.pattern

/-- `Decode(w)` over a table: the first row the word spells (R72). -/
def decodeWith : List DecodeRow → CmdWord → Option Instr
  | [], _ => none
  | r :: rows, w => if r.spells w then some (r.build w) else decodeWith rows w

/-- `Decode(w)` of R72: total on every word; `none` is `Illegal`. -/
def decodeWord (w : CmdWord) : Option Instr := decodeWith decodeRows w

/-- The command word with the fields of R66: `OP`, `Z = 0`, `L`, `A`, `B`, `C`. -/
def packWord (op : BitVec 4) (l : Bool) (a b : Nat) (c : Byte) : CmdWord :=
  op ++ 0#3 ++ BitVec.ofBool l ++ BitVec.ofNat 8 a ++ BitVec.ofNat 8 b ++ c

/-- The word of a command (R67, R68, R69). -/
def encode : Instr → CmdWord
  | .init req => packWord 0x1#4 false 0 0 (BitVec.ofNat 8 req)
  | .setPower chip on => packWord 0x2#4 on chip 0 0#8
  | .setScanLimit chip limit => packWord 0x3#4 false chip 0 limit
  | .setIntensity chip level => packWord 0x4#4 false chip 0 level
  | .clear chip => packWord 0x5#4 false chip 0 0#8
  | .clearAll => packWord 0x6#4 false 0 0 0#8
  | .setCell chip row col lit => packWord 0x7#4 lit chip row (BitVec.ofNat 8 col)
  | .setRow chip row value => packWord 0x8#4 false chip row value
  | .setRowAll row value => packWord 0x9#4 false 0 row value
  | .setColumn chip col value => packWord 0xA#4 false chip col value
  | .draw => packWord 0xB#4 false 0 0 0#8
  | .release => packWord 0xC#4 false 0 0 0#8

/-- The command the decoder reads from the word `w` numbered as the opcode table numbers it. A command is one
32-bit word in parallel, without a byte order (R56, R74). -/
def decodeTableWord (nbits w : Nat) : Option Instr :=
  if nbits ≤ 32 ∧ w < 2 ^ nbits then decodeWord (BitVec.ofNat 32 w) else none

end Sys2Proof
end

