-- ==== Sys2Proof/Config.lean ====
section
/-! DEFINITION. The parameters of the model (spec/00_scope.md R6, R7; 10_state.md R40) as plain data, and the one
family of free values. The defaults stand in Machine/Parameters.lean. -/

namespace Sys2Proof

/-- The names of the chip registers (R7). `digit r` is `REG_DIGIT0 + r`. -/
inductive Reg where
  | nop
  | digit (r : Nat)
  | decodeMode
  | intensity
  | scanLimit
  | shutdown
  | displayTest
  deriving DecidableEq, Repr

/-- The table `REG` (R7), less `REG_NOP`, which the source fixes at 0x00, and the digits after the first, which it
fixes as consecutive. -/
structure RegTable where
  digit0 : Byte
  decodeMode : Byte
  intensity : Byte
  scanLimit : Byte
  shutdown : Byte
  displayTest : Byte
  deriving DecidableEq, Repr

/-- `BIT_ORDER`: the order in which the transport shifts the bits of a byte (20_memory.md R54). -/
inductive BitOrder where
  | msbFirst
  | lsbFirst
  deriving DecidableEq, Repr

/-- The parameters of the model (R6): fixed for a machine, any value of the type. -/
structure Config where
  /-- The `REG` table (R7). -/
  reg : RegTable
  /-- `STRICT_RANGE` (42_chip_config.md R118). -/
  strictRange : Bool
  /-- `DT_PULSE` (41_lifecycle.md R103). -/
  dtPulse : List Byte
  /-- `HAVOC_ON_FAIL` (45_chain_environment.md R176). -/
  havocOnFail : Bool
  /-- `BIT_ORDER` (20_memory.md R54). -/
  bitOrder : BitOrder
  deriving DecidableEq, Repr

/-- The free values: what chip `chip` holds at register address `addr` when that register is unknown
(45_chain_environment.md R173, R176), one value for each draw. No body: nothing can be proved of it (log 8). -/
opaque Config.freeReg (draw chip addr : Nat) : Byte

end Sys2Proof
end

