-- ==== Sys2Proof/Machine/Parameters.lean ====
section
/-! DEFINITION. Register addresses by name, the constraint on the table, and the default parameters
(spec/00_scope.md R6, R7). -/

namespace Sys2Proof

/-- `REG_NOP` (R7): the one address the source fixes. -/
def regNop : Byte := 0x00#8

/-- The address of a register in the table (R7); the digits are consecutive from `digit0` (43_pattern.md R132). -/
def RegTable.addr (t : RegTable) : Reg → Byte
  | .nop => regNop
  | .digit r => t.digit0 + BitVec.ofNat 8 r
  | .decodeMode => t.decodeMode
  | .intensity => t.intensity
  | .scanLimit => t.scanLimit
  | .shutdown => t.shutdown
  | .displayTest => t.displayTest

/-- A conforming table (R7): `REG_NOP` is distinct from every other entry, and `REG_DIGIT0 + r` is a byte for every
`r` in 0..7. -/
def RegTable.conforming (t : RegTable) : Bool :=
  decide (0 < t.digit0.toNat) && decide (t.digit0.toNat + 7 ≤ 255) && t.decodeMode != regNop &&
    t.intensity != regNop && t.scanLimit != regNop && t.shutdown != regNop && t.displayTest != regNop

/-- The default addresses of R7 (the spec takes them from the MAX7219 register map, log 14). -/
def RegTable.default : RegTable where
  digit0 := 0x01#8
  decodeMode := 0x09#8
  intensity := 0x0A#8
  scanLimit := 0x0B#8
  shutdown := 0x0C#8
  displayTest := 0x0F#8

/-- The default parameters of R6. `BIT_ORDER` is OPEN in the spec (log 14). -/
def Config.default : Config where
  reg := RegTable.default
  strictRange := false
  dtPulse := [0x01#8, 0x00#8]
  havocOnFail := true
  bitOrder := .msbFirst

end Sys2Proof
end

