-- ==== Sys2Proof/Machine/State.lean ====
section
/-! DEFINITION. The state of the LMDC and of its environment as plain data (spec/10_state.md R22 to R41,
45_chain_environment.md R173), the inputs, the reasons to stop, and the state after reset. -/

namespace Sys2Proof.Machine

/-- `LIFE` (R22). The value 3 is never held. -/
inductive Life where
  | uninit
  | ready
  | released
  deriving DecidableEq, Repr

/-- The completion statuses (60_exceptions.md R186). The codes 5 to 7 are never produced. -/
inductive Status where
  | ok
  | transportFail
  | illegalCmd
  | illegalState
  | useAfterRelease
  deriving DecidableEq, Repr

/-- The shadow register file `SH` (R24): cells in rising order of address, none holding what an unlisted address
reads as (Machine/Ops.lean, `Memory.fill`). -/
abbrev Memory := List Host.Cell

/-- One item of a command's pseudocode that ends in one `Transmit` (R34; the rules of 41 to 44). -/
inductive Micro where
  /-- `Transmit(Encode(chip, reg, data))`. -/
  | send (chip : Nat) (reg : Reg) (data : Byte)
  /-- One turn of the loop of ClearChip (43_pattern.md R134). -/
  | clearRow (chip row : Nat)
  /-- `SET_ROW(chip, row, value)` with its checks (R139). -/
  | setRow (chip row : Nat) (value : Byte)
  /-- `SET_CELL(chip, row, col, lit)` with its checks (R137). -/
  | setCell (chip row col : Nat) (lit : Bool)
  /-- One turn of the inner loop of DRAW (44_rasterizer.md R160). -/
  | drawRow (chip row : Nat)
  deriving DecidableEq, Repr

/-- `SEQ` (R34): the current command and the pseudocode that remains of it. -/
structure Seq where
  cmd : Instr
  rest : List Micro
  deriving DecidableEq, Repr

/-- What the transport does (10_state.md R29): it takes the presented frame (`tx_ready`), or it reports a completion
(`txr_valid` with `txr_ok`). -/
inductive TxEvent where
  | issue
  | done (ok : Bool)
  deriving DecidableEq, Repr

/-- One sample of the LMDC's inputs (R25), in the order in which things happen. -/
inductive Input where
  /-- `rst_n` takes this level (70_reset_and_hazards.md R215). -/
  | rst (level : Bool)
  /-- `cmd_valid = 1` with this `cmd_word` and this `pix_in` (R26). -/
  | command (w : CmdWord) (p : Plane)
  /-- `rsp_ready = 1` (R28). -/
  | takeResponse
  /-- The transport acts (R29). -/
  | tx (e : TxEvent)
  deriving DecidableEq, Repr

/-- Why the model stops. No state that meets the invariant of Safety.lean reaches either. -/
inductive Fault where
  /-- Raised by a shadow accessor called with an index outside `SH` (20_memory.md R46, U9). Safe: the model stops
  and invents no value. -/
  | shadowOutOfRange
  /-- Raised by `Encode` called with `t >= N` (40_frame_encoder.md R89, U9). Safe: as above. -/
  | encodeOutOfRange
  deriving DecidableEq, Repr

/-- What has no meaning. -/
inductive Refusal where
  /-- Raised by an arm of `exec` whose command has no meaning yet; no arm is. Safe. -/
  | notModelled (mnemonic : String)
  deriving DecidableEq, Repr

/-- The Chain agent (45_chain_environment.md R173, R177), with the model's own account of what is unknown (log 8). -/
structure Chain where
  /-- How many chips are wired, once that is known: the first frame the chips act on is for all of them (R177, log
  9). -/
  wired : Option Nat
  /-- `CREG` (R173): the registers written since they were last unknown, keyed by `256 * chip + address`. -/
  creg : List Host.Cell
  /-- The model's own: the draw whose free values the unlisted registers hold. -/
  epoch : Nat
  /-- The model's own: the next draw. -/
  draws : Nat
  /-- The model's own: a transaction was for another number of chips than are wired, which the model treats as a fault
  (93_implementation_defined.md U14, log 9). -/
  miswired : Bool
  deriving DecidableEq, Repr

/-- The chain at reset: any number of chips (log 9), every register unknown (R173, R178). -/
def Chain.initial : Chain where
  wired := none
  creg := []
  epoch := 0
  draws := 1
  miswired := false

/-- The state of the LMDC, of its ports, and of the Transport and Chain agents. -/
structure State where
  /-- The parameters (R40); no step writes them. -/
  cfg : Config
  /-- `LIFE` (R22). -/
  life : Life
  /-- `N` (R23). -/
  n : BitVec 4
  /-- `SH`, absent outside `READY` (R24). -/
  sh : Option Memory
  /-- `BUSY` (R31). -/
  busy : Bool
  /-- `SEQ` (R34). -/
  seq : Option Seq
  /-- `FRAME` (R35). -/
  frame : Option Frame
  /-- `tx_valid` (R29). -/
  txValid : Bool
  /-- `PIX` (R27). -/
  pix : Plane
  /-- `CNT` (R37), which `rsp_count` shows. -/
  cnt : BitVec 8
  /-- `LAST_STATUS` (R32), which `rsp_status` shows. -/
  lastStatus : Status
  /-- `FAULT` (R33). -/
  faultFlag : Bool
  /-- `rsp_valid` (R28). -/
  rspValid : Bool
  /-- `rst_n` (70_reset_and_hazards.md R215). -/
  rstN : Bool
  /-- `pix_in` at the last command sample (R25, R26). -/
  pixIn : Plane
  /-- The inputs still to come, first one first (log 2). -/
  inputs : List Input
  /-- Transport: the frame it has taken and not completed (00_scope.md R5). -/
  taken : Option Frame
  /-- The Chain agent. -/
  chain : Chain
  deriving DecidableEq, Repr

/-- The machine right after reset (R41), with nothing presented on its inputs. Beside R41 the model chooses: `PIX` and
`pix_in` are 0 (logs 6, 13), and the transport holds no frame from before the reset (93_implementation_defined.md U25
leaves that open, log 10). -/
def State.reset : State where
  cfg := Config.default
  life := .uninit
  n := 0#4
  sh := none
  busy := false
  seq := none
  frame := none
  txValid := false
  pix := 0#512
  cnt := 0#8
  lastStatus := .ok
  faultFlag := false
  rspValid := false
  rstN := true
  pixIn := 0#512
  inputs := []
  taken := none
  chain := Chain.initial

/-- What a step or an operation answers. -/
abbrev Result := Host.Outcome State Fault Refusal

end Sys2Proof.Machine
end

