-- ==== Sys2Proof/Machine/Operands.lean ====
section
/-! DEFINITION. What the commands compute from their operands: the validity tests, the range guard, the effective
length, the cell update and the raster byte (spec/41_lifecycle.md R101, 42_chip_config.md R118, 43_pattern.md R130,
R138, 44_rasterizer.md R161). -/

namespace Sys2Proof.Machine

/-- `N` as a natural number: index arithmetic is on naturals (00_scope.md R10). -/
def State.chips (s : State) : Nat := s.n.toNat

/-- `ValidChip(c)` (R130). -/
def validChip (s : State) (c : Nat) : Bool := decide (c < s.chips)

/-- `ValidRow(r)` (R130). -/
def validRow (r : Nat) : Bool := decide (r ≤ 7)

/-- `ValidCol(k)` (R130). -/
def validCol (k : Nat) : Bool := decide (k ≤ 7)

/-- `InRange(v, lo, hi)` (R118): true of every value unless `STRICT_RANGE`. -/
def inRange (strict : Bool) (v : Byte) (lo hi : Nat) : Bool :=
  !strict || (decide (lo ≤ v.toNat) && decide (v.toNat ≤ hi))

/-- `EffLen(req)` (R101): every value outside 1..8, 0 included, gives 8 (90_conflicts.md C6). -/
def effLen (req : Nat) : Nat := if 1 ≤ req ∧ req ≤ 8 then req else 8

/-- The data of SET_POWER (42_chip_config.md R117). -/
def powerData (on : Bool) : Byte := if on then 0x00#8 else 0x01#8

/-- The mask of a column: `0x80 >> col`, bit `7 - col` (20_memory.md R55). -/
def colMask (col : Nat) : Byte := 0x80#8 >>> col

/-- `CellUpdate(v, col, lit)` (R138). -/
def cellUpdate (v : Byte) (col : Nat) (lit : Bool) : Byte :=
  if lit then v ||| colMask col else v &&& ~~~ (colMask col)

/-- `value[7 - row] = 1`: what SET_COLUMN makes of row `row` (R141). -/
def columnBit (value : Byte) (row : Nat) : Bool := value.getLsbD (7 - row)

/-- One term of R161: the pixel of column `col`, in its bit `7 - col`. -/
def rasterTerm (pix : Plane) (chip row col : Nat) : Byte :=
  (if pix.getLsbD (row * 64 + chip * 8 + col) then 1#8 else 0#8) <<< (7 - col)

/-- `RasterByte(c, r)` (R161): the sum of its eight terms. -/
def rasterByte (pix : Plane) (chip row : Nat) : Byte :=
  (List.range 8).foldl (fun acc col => acc + rasterTerm pix chip row col) 0#8

/-- The shadow index `chip*8 + row` (20_memory.md R45). -/
def shadowIndex (chip row : Nat) : Nat := chip * 8 + row

end Sys2Proof.Machine
end

