-- ==== Sys2Proof/Machine/Chain.lean ====
section
/-! DEFINITION. Lists of cells in rising order of address, and the chain of external chips
(spec/45_chain_environment.md R172 to R181). -/

namespace Sys2Proof.Machine

/-- The byte a cell list holds at an address. -/
def Cells.lookup : List Host.Cell → Nat → Option Byte
  | [], _ => none
  | (b, v) :: m, a => if b = a then some v else Cells.lookup m a

/-- Sets the byte at an address, keeping the rising order. -/
def Cells.insert : List Host.Cell → Nat → Byte → List Host.Cell
  | [], a, v => [(a, v)]
  | (b, w) :: m, a, v =>
    if a < b then (a, v) :: (b, w) :: m else if a = b then (a, v) :: m else (b, w) :: Cells.insert m a v

/-- Takes an address out of the list. -/
def Cells.erase : List Host.Cell → Nat → List Host.Cell
  | [], _ => []
  | (b, w) :: m, a => if b = a then m else (b, w) :: Cells.erase m a

/-- The addresses are strictly rising. -/
def Cells.sorted : List Host.Cell → Bool
  | [] => true
  | [_] => true
  | (a, _) :: (b, v) :: m => decide (a < b) && Cells.sorted ((b, v) :: m)

/-- The key of register `addr` of chip `chip` in `State.creg`. -/
def cregKey (chip : Nat) (addr : Byte) : Nat := chip * 256 + addr.toNat

/-- `CREG[chip][addr]` (R173): the byte last latched, or a free value while the register is unknown. -/
def Chain.reg (h : Chain) (chip : Nat) (addr : Byte) : Byte :=
  (Cells.lookup h.creg (cregKey chip addr)).getD (Config.freeReg h.epoch chip addr.toNat)

/-- The model knows `CREG[chip][addr]`: it was written since it was last unknown. -/
def Chain.known (h : Chain) (chip : Nat) (addr : Byte) : Bool :=
  (Cells.lookup h.creg (cregKey chip addr)).isSome

/-- The pair of a frame for a chain of `n` chips that is routed to chip `c` (40_frame_encoder.md R87). -/
def routedPair (n c : Nat) (f : Frame) : Byte × Byte :=
  (f.getD (2 * (n - 1 - c)) 0#8, f.getD (2 * (n - 1 - c) + 1) 0#8)

/-- Gives the register that chip `c`'s pair addresses the byte `v address data`; a NOP pair changes nothing (R174,
R175). -/
def latchChip (v : Byte → Byte → Byte) (n c : Nat) (f : Frame) (regs : List Host.Cell) : List Host.Cell :=
  let pair := routedPair n c f
  if pair.1 = regNop then regs else Cells.insert regs (cregKey c pair.1) (v pair.1 pair.2)

/-- The loop of ChainLatch over the first `k` chips (R174). -/
def latchChips (v : Nat → Byte → Byte → Byte) (n : Nat) (f : Frame) : Nat → List Host.Cell → List Host.Cell
  | 0, regs => regs
  | k + 1, regs => latchChip (v k) n k f (latchChips v n f k regs)

/-- Every register of every chip becomes unknown: a new draw (R176). -/
def Chain.havoc (h : Chain) : Chain := { h with creg := [], epoch := h.draws, draws := h.draws + 1 }

/-- The number of chips a frame meets: those that are wired, or, as long as that is not known, those it is for
(R177, log 9). -/
def Chain.size (h : Chain) (f : Frame) : Nat := h.wired.getD (f.length / 2)

/-- The frame is one for the chain that is wired (R177). -/
def Chain.fits (h : Chain) (f : Frame) : Bool := f.length == 2 * h.size f

/-- The chain is one of `n` chips, as far as is known (R177, 70_reset_and_hazards.md R224). -/
def Chain.agrees (h : Chain) (n : Nat) : Bool := h.wired.all (· == n)

/-- A frame for another number of chips: the model knows nothing of the chips afterwards and is faulted for good
(R177, 93_implementation_defined.md U14, log 9). -/
def Chain.misroute (h : Chain) : Chain := { h.havoc with miswired := true }

/-- `ChainLatch(F)` (R174), for a frame that fits the chain. -/
def Chain.latch (f : Frame) (h : Chain) : Chain :=
  if h.fits f then
    { h with wired := some (h.size f), creg := latchChips (fun _ _ d => d) (h.size f) f (h.size f) h.creg }
  else h.misroute

/-- A failed transaction (R176): every register unknown, or with `HAVOC_ON_FAIL = false` only the register the
frame addresses. -/
def Chain.fail (havocOnFail : Bool) (f : Frame) (h : Chain) : Chain :=
  if h.fits f then
    if havocOnFail then { h.havoc with wired := some (h.size f) }
    else { h with
      wired := some (h.size f)
      creg := latchChips (fun c a _ => Config.freeReg h.draws c a.toNat) (h.size f) f (h.size f) h.creg
      draws := h.draws + 1 }
  else h.misroute

/-- What the end of a transaction does to the chain (R174, R176). -/
def Chain.complete (havocOnFail ok : Bool) (f : Frame) (h : Chain) : Chain :=
  if ok then h.latch f else h.fail havocOnFail f

/-- The transport completes the frame it holds, if it holds one, and the chips react (R174, R176). -/
def completeTaken (ok : Bool) (s : State) : State :=
  { s with
    taken := none
    chain := match s.taken with
      | none => s.chain
      | some f => s.chain.complete s.cfg.havocOnFail ok f }

end Sys2Proof.Machine
end

