-- ==== Sys2Proof/Machine/Ops.lean ====
section
/-! DEFINITION. The shared operations of the LMDC: the shadow register file (spec/20_memory.md R45 to R50), the frame
encoder (40_frame_encoder.md R88), Transmit (R93), the beginning and the ends of a command (10_state.md R26, R28;
60_exceptions.md R189, R190), and the sequencer (10_state.md R34). -/

namespace Sys2Proof.Machine

/-- What an unlisted address of `SH` reads as: the 0x00 that INIT gives every byte (41_lifecycle.md R102, log 7). -/
def Memory.fill : Byte := 0x00#8

/-- Reads one byte. -/
def Memory.read (m : Memory) (a : Nat) : Byte := (Cells.lookup m a).getD Memory.fill

/-- Writes one byte, keeping the canonical form. -/
def Memory.write (m : Memory) (a : Nat) (v : Byte) : Memory :=
  if v = Memory.fill then Cells.erase m a else Cells.insert m a v

/-- The canonical form: addresses strictly rising, no entry equal to what an unlisted address reads as. -/
def Memory.wf (m : Memory) : Bool := Cells.sorted m && m.all fun c => c.2 != Memory.fill

/-- `SH_clear()` (20_memory.md R47): the shadow with every byte 0x00. -/
def Memory.cleared : Memory := []

/-- Goes on with the next state, if there is one. -/
def andThen (r : Result) (f : State → Result) : Result :=
  match r with
  | .next s => f s
  | .fault e => .fault e
  | .refused e => .refused e

/-- The index is one of `SH` (R45): `SH` is there and `i < 8*N`. -/
def State.shadowHas (s : State) (i : Nat) : Bool := s.sh.isSome && decide (i < 8 * s.chips)

/-- `SH[i]` (R46), if that byte exists. -/
def State.shadowByte (s : State) (i : Nat) : Option Byte :=
  if s.shadowHas i then s.sh.map fun m => m.read i else none

/-- `get(chip, row)` (R46): goes on with the byte; out of range it faults. -/
def shadowGet (chip row : Nat) (s : State) (k : Byte → Result) : Result :=
  match s.shadowByte (shadowIndex chip row) with
  | some v => k v
  | none => .fault .shadowOutOfRange

/-- `set(chip, row, v)` (R46); out of range it faults. -/
def shadowSet (chip row : Nat) (v : Byte) (s : State) : Result :=
  if s.shadowHas (shadowIndex chip row) then
    .next { s with sh := s.sh.map fun m => m.write (shadowIndex chip row) v }
  else .fault .shadowOutOfRange

/-- `off(t)` (40_frame_encoder.md R87). -/
def wireOffset (n t : Nat) : Nat := (n - t - 1) * 2

/-- `Encode(t, op, d)` for a chain of `n` chips (R88); `none` when `t >= N` (R89). -/
def encodeFrame (n t : Nat) (op d : Byte) : Option Frame :=
  if t < n then
    some (((List.replicate (2 * n) 0x00#8).set (wireOffset n t) op).set (wireOffset n t + 1) d)
  else none

/-- The first part of `Transmit(Encode(chip, reg, d))` (R93): the frame is built and presented. -/
def present (chip : Nat) (reg : Reg) (d : Byte) (s : State) : Result :=
  match encodeFrame s.chips chip (s.cfg.reg.addr reg) d with
  | some f => .next { s with frame := some f, txValid := true }
  | none => .fault .encodeOutOfRange

/-- `CmdAccept` (10_state.md R26). `pix_in` is latched only for DRAW. -/
def accept (i : Instr) (s : State) : State :=
  { s with busy := true, cnt := 0#8, seq := some ⟨i, []⟩, pix := if i = .draw then s.pixIn else s.pix }

/-- The end of a command with a status (R28). -/
def finish (st : Status) (s : State) : State :=
  { s with busy := false, seq := none, lastStatus := st, rspValid := true }

/-- `noop` (60_exceptions.md R189). -/
def noop (s : State) : Result := .next (finish .ok s)

/-- INIT's own handler of a failed transaction (41_lifecycle.md R104). -/
def undoInit (s : State) : State := { s with life := .uninit, n := 0#4, sh := none }

/-- `raise` (60_exceptions.md R190), the one way an error ends a command: the effects so far stand. A transport
failure of INIT also undoes `LIFE`, `N` and `SH` (R104); USE_AFTER_RELEASE sets `FAULT` (R196). -/
def raise (st : Status) (s : State) : State :=
  match st, s.seq with
  | .transportFail, some ⟨.init _, _⟩ => finish st (undoInit s)
  | .useAfterRelease, _ => finish st { s with faultFlag := true }
  | _, _ => finish st s

/-- Writes a row of the shadow and presents its frame: the body of SET_ROW after its checks (43_pattern.md R139),
of SET_CELL after the update (R137), and of the loop of ClearChip (R134). -/
def writeRow (chip row : Nat) (v : Byte) (s : State) : Result :=
  andThen (shadowSet chip row v s) (present chip (.digit row) v)

/-- `SET_ROW(chip, row, value)` with its checks (R139). -/
def setRowBody (chip row : Nat) (v : Byte) (s : State) : Result :=
  if validChip s chip && validRow row then writeRow chip row v s else noop s

/-- `SET_CELL(chip, row, col, lit)` with its checks (R137). -/
def setCellBody (chip row col : Nat) (lit : Bool) (s : State) : Result :=
  if validChip s chip && validRow row && validCol col then
    shadowGet chip row s fun v => writeRow chip row (cellUpdate v col lit) s
  else noop s

/-- Runs one item of a command's pseudocode up to its frame. -/
def runMicro (m : Micro) (s : State) : Result :=
  match m with
  | .send chip reg d => present chip reg d s
  | .clearRow chip row => writeRow chip row 0x00#8 s
  | .setRow chip row v => setRowBody chip row v s
  | .setCell chip row col lit => setCellBody chip row col lit s
  | .drawRow chip row => setRowBody chip row (rasterByte s.pix chip row) s

/-- The sequencer goes on: the next item of the pseudocode, or the command's end with `OK` (R34, R28). With no
command there is nothing to do. -/
def advance (s : State) : Result :=
  match s.seq with
  | none => .next s
  | some ⟨_, []⟩ => .next (finish .ok s)
  | some ⟨i, m :: rest⟩ => runMicro m { s with seq := some ⟨i, rest⟩ }

/-- `TxIssue` (R29): the transport takes the presented frame. With none presented nothing happens. -/
def onTxIssue (s : State) : State :=
  { s with txValid := false, taken := if s.txValid then s.frame else s.taken }

/-- A frame has been taken and the LMDC waits for its completion (R29). -/
def State.awaitsDone (s : State) : Bool := s.busy && s.frame.isSome && !s.txValid

/-- The LMDC's part of `TxDone(ok)` (40_frame_encoder.md R93). `CNT` is 8 bits wide (10_state.md R37); what it holds after
more than 255 successes, which takes a `DT_PULSE` of 23 bytes or more, the spec leaves open, and the model lets it wrap
(DESIGN CHOICE, log 27). -/
def finishTransmit (ok : Bool) (s : State) : Result :=
  if ok then advance { s with frame := none, cnt := s.cnt + 1#8 }
  else .next (raise .transportFail { s with frame := none })

/-- A completion report (R29): the chips react, and the LMDC takes it if it waits for it; otherwise the report has
no effect on it. -/
def onTxDone (ok : Bool) (s : State) : Result :=
  let s' := completeTaken ok s
  if s'.awaitsDone then finishTransmit ok s' else .next s'

/-- One act of the transport. -/
def onTransport (e : TxEvent) (s : State) : Result :=
  match e with
  | .issue => .next (onTxIssue s)
  | .done ok => onTxDone ok s

/-- The state with these inputs still to come. -/
def State.setInputs (es : List Input) (s : State) : State := { s with inputs := es }

/-- The command in flight runs on through what the transport does, until it ends or the next input is not the
transport's (log 3). The list is the inputs still to come; the answer holds those that are left. -/
def settle : List Input → State → Result
  | [], s => .next (s.setInputs [])
  | .tx e :: rest, s =>
    if s.busy then
      match onTransport e (s.setInputs rest) with
      | .next s' => settle rest s'
      | .fault r => .fault r
      | .refused r => .refused r
    else .next (s.setInputs (.tx e :: rest))
  | e :: rest, s => .next (s.setInputs (e :: rest))

/-- Gives the sequencer the pseudocode of the command and runs it as far as the transport lets it. -/
def launch (ms : List Micro) (s : State) : Result :=
  andThen (advance { s with seq := s.seq.map fun q => { q with rest := ms } }) fun s' => settle s'.inputs s'

/-- Admission of a command that runs in `READY` only (60_exceptions.md R193), after its acceptance. -/
def inReady (i : Instr) (body : State → Result) (s : State) : Result :=
  let s' := accept i s
  match s'.life with
  | .ready => body s'
  | .uninit => .next (raise .illegalState s')
  | .released => .next (raise .useAfterRelease s')

/-- The loop of ClearChip (43_pattern.md R134). -/
def clearChip (chip : Nat) : List Micro := (List.range 8).map fun r => .clearRow chip r

/-- The LMDC's state at its reset values (10_state.md R41); the ports and the environment keep theirs. -/
def resetLmdc (s : State) : State :=
  { s with
    life := .uninit, n := 0#4, sh := none, busy := false, seq := none, frame := none, txValid := false,
    pix := 0#512, cnt := 0#8, lastStatus := .ok, faultFlag := false, rspValid := false }

end Sys2Proof.Machine
end

