-- ==== Sys2Proof/Machine/ChipConfig.lean ====
section
/-! DEFINITION. SET_POWER, SET_SCAN_LIMIT and SET_INTENSITY (spec/42_chip_config.md R115 to R120). -/

namespace Sys2Proof.Machine

/-- One control register of one chip is sent a byte: the chip check first (R115), then the value guard (R118). -/
def sendControl (chip : Nat) (guarded : Bool) (reg : Reg) (d : Byte) (s : State) : Result :=
  if validChip s chip then
    if guarded then launch [.send chip reg d] s else noop s
  else noop s

/-- SET_POWER (R116, R117): it has no value guard. -/
def execSetPower (chip : Nat) (on : Bool) (s : State) : Result :=
  inReady (.setPower chip on) (sendControl chip true .shutdown (powerData on)) s

/-- SET_SCAN_LIMIT (R119). -/
def execSetScanLimit (chip : Nat) (limit : Byte) (s : State) : Result :=
  inReady (.setScanLimit chip limit)
    (sendControl chip (inRange s.cfg.strictRange limit 0 7) .scanLimit limit) s

/-- SET_INTENSITY (R120). -/
def execSetIntensity (chip : Nat) (level : Byte) (s : State) : Result :=
  inReady (.setIntensity chip level)
    (sendControl chip (inRange s.cfg.strictRange level 0x0 0xF) .intensity level) s

end Sys2Proof.Machine
end

