-- ==== Sys2Proof/Machine/Lifecycle.lean ====
section
/-! DEFINITION. INIT and RELEASE (spec/41_lifecycle.md R100 to R107). -/

namespace Sys2Proof.Machine

/-- `InitChip(c)` (R103): the display test pulse, the scan limit 7, the clear of the 8 rows. -/
def initChip (cfg : Config) (c : Nat) : List Micro :=
  cfg.dtPulse.map (fun d => .send c .displayTest d) ++ [.send c .scanLimit 0x07#8] ++ clearChip c

/-- The frames of INIT for `n` chips, chip 0 first (R100, R103). -/
def initFrames (cfg : Config) (n : Nat) : List Micro := (List.range n).flatMap (initChip cfg)

/-- INIT gives `N`, `SH` and `LIFE` their values before any frame (R100, R102). -/
def beginLife (n : Nat) (s : State) : State :=
  { s with n := BitVec.ofNat 4 n, sh := some Memory.cleared, life := .ready }

/-- INIT (R100): not admitted in `READY` (60_exceptions.md R193). -/
def execInit (req : Nat) (s : State) : Result :=
  let s' := accept (.init req) s
  match s'.life with
  | .ready => .next (raise .illegalState s')
  | .uninit => launch (initFrames s'.cfg (effLen req)) (beginLife (effLen req) s')
  | .released => launch (initFrames s'.cfg (effLen req)) (beginLife (effLen req) s')

/-- RELEASE (R106): outside `READY` a `noop`. -/
def execRelease (s : State) : Result :=
  let s' := accept .release s
  match s'.life with
  | .ready => .next (finish .ok { s' with life := .released, n := 0#4, sh := none })
  | .uninit => noop s'
  | .released => noop s'

end Sys2Proof.Machine
end

