-- ==== Sys2Proof/Machine/Pattern.lean ====
section
/-! DEFINITION. CLEAR, CLEAR_ALL, SET_CELL, SET_ROW, SET_ROW_ALL and SET_COLUMN (spec/43_pattern.md R130 to R144). -/

namespace Sys2Proof.Machine

/-- CLEAR (R135). -/
def execClear (chip : Nat) (s : State) : Result :=
  inReady (.clear chip) (fun s' => if validChip s' chip then launch (clearChip chip) s' else noop s') s

/-- CLEAR_ALL (R136): chip 0 first, rows 0 to 7 of each. -/
def execClearAll (s : State) : Result :=
  inReady .clearAll (fun s' => launch ((List.range s'.chips).flatMap clearChip) s') s

/-- SET_CELL (R137). -/
def execSetCell (chip row col : Nat) (lit : Bool) (s : State) : Result :=
  inReady (.setCell chip row col lit) (launch [.setCell chip row col lit]) s

/-- SET_ROW (R139). -/
def execSetRow (chip row : Nat) (value : Byte) (s : State) : Result :=
  inReady (.setRow chip row value) (launch [.setRow chip row value]) s

/-- SET_ROW_ALL (R140): one SET_ROW per chip, chip 0 first. -/
def execSetRowAll (row : Nat) (value : Byte) (s : State) : Result :=
  inReady (.setRowAll row value)
    (fun s' => launch ((List.range s'.chips).map fun c => .setRow c row value) s') s

/-- SET_COLUMN (R141): one SET_CELL per row, row 0 first. -/
def execSetColumn (chip col : Nat) (value : Byte) (s : State) : Result :=
  inReady (.setColumn chip col value)
    (launch ((List.range 8).map fun r => .setCell chip r col (columnBit value r))) s

end Sys2Proof.Machine
end

