-- ==== Sys2Proof/Machine/Rasterizer.lean ====
section
/-! DEFINITION. DRAW (spec/44_rasterizer.md R160 to R165). -/

namespace Sys2Proof.Machine

/-- The loops of DRAW for `n` chips (R160, R162): row by row, chip 0 first in each row. -/
def drawFrames (n : Nat) : List Micro :=
  (List.range 8).flatMap fun r => (List.range n).map fun c => .drawRow c r

/-- DRAW (R160). -/
def execDraw (s : State) : Result :=
  inReady .draw (fun s' => launch (drawFrames s'.chips) s') s

end Sys2Proof.Machine
end

