-- ==== Sys2Proof/Machine/Dispatch.lean ====
section
/-! DEFINITION. The meaning of each command, one arm per row of spec/opcode_table.json: the command is accepted and
runs until it ends or waits for the transport. -/

namespace Sys2Proof.Machine

def exec (i : Instr) (s : State) : Host.Outcome State Fault Refusal :=
  match i with
  | .init req => Sys2Proof.Machine.execInit req s
  | .setPower chip on => Sys2Proof.Machine.execSetPower chip on s
  | .setScanLimit chip limit => Sys2Proof.Machine.execSetScanLimit chip limit s
  | .setIntensity chip level => Sys2Proof.Machine.execSetIntensity chip level s
  | .clear chip => Sys2Proof.Machine.execClear chip s
  | .clearAll => Sys2Proof.Machine.execClearAll s
  | .setCell chip row col lit => Sys2Proof.Machine.execSetCell chip row col lit s
  | .setRow chip row value => Sys2Proof.Machine.execSetRow chip row value s
  | .setRowAll row value => Sys2Proof.Machine.execSetRowAll row value s
  | .setColumn chip col value => Sys2Proof.Machine.execSetColumn chip col value s
  | .draw => Sys2Proof.Machine.execDraw s
  | .release => Sys2Proof.Machine.execRelease s

end Sys2Proof.Machine
end

