-- ==== Sys2Proof/Machine/Flags.lean ====
section
/-! DEFINITION. What the LMDC shows on its outputs (spec/10_state.md R25, R26, R28, R30; 60_exceptions.md R186): the
status codes, `status_out`, `cmd_ready`, the response and the frame ports. The LMDC has no condition codes (R38). -/

namespace Sys2Proof.Machine

/-- The value of `LIFE` (R22). -/
def Life.code : Life → BitVec 2
  | .uninit => 0#2
  | .ready => 1#2
  | .released => 2#2

/-- The status code (R186). -/
def Status.code : Status → BitVec 3
  | .ok => 0#3
  | .transportFail => 1#3
  | .illegalCmd => 2#3
  | .illegalState => 3#3
  | .useAfterRelease => 4#3

/-- `status_out` (R30): `N[11:8]`, `FAULT[7]`, `LAST_STATUS[6:4]`, `BUSY[2]`, `LIFE[1:0]`, the rest 0. -/
def State.statusOut (s : State) : BitVec 16 :=
  0#4 ++ s.n ++ BitVec.ofBool s.faultFlag ++ s.lastStatus.code ++ 0#1 ++ BitVec.ofBool s.busy ++ s.life.code

/-- `cmd_ready` (R26). -/
def State.cmdReady (s : State) : Bool := !s.busy && !s.rspValid && s.rstN

/-- The response port (R28): `rsp_status` and `rsp_count` while `rsp_valid` (log 11). -/
def State.response (s : State) : Option (BitVec 3 × BitVec 8) :=
  if s.rspValid then some (s.lastStatus.code, s.cnt) else none

/-- `tx_data` of a frame (R25): byte `F[i]` on bits `[8i+7 : 8i]`. -/
def packFrame : Frame → BitVec 128
  | [] => 0#128
  | b :: f => (packFrame f <<< 8) ||| b.setWidth 128

/-- The frame port (R25): `tx_len` and `tx_data` while `tx_valid`. -/
def State.txPort (s : State) : Option (BitVec 5 × BitVec 128) :=
  if s.txValid then s.frame.map fun f => (BitVec.ofNat 5 f.length, packFrame f) else none

/-- The bits of a frame on the wire, first bit first, in the transport's bit order (20_memory.md R52, R54). -/
def wireBits (o : BitOrder) (f : Frame) : List Bool :=
  f.flatMap fun b =>
    (List.range 8).map fun k =>
      match o with
      | .msbFirst => b.getLsbD (7 - k)
      | .lsbFirst => b.getLsbD k

end Sys2Proof.Machine
end

