-- ==== Sys2Proof/Machine/Ports.lean ====
section
/-! DEFINITION. What one sample of the inputs does to the machine (spec/10_state.md R25 to R29,
60_exceptions.md R191, 70_reset_and_hazards.md R215, R216). An input whose handshake is not enabled has no effect. -/

namespace Sys2Proof.Machine

/-- A word that spells no command (60_exceptions.md R191): it is accepted as any word is (R26) and ends with
ILLEGAL_CMD. -/
def endIllegal (s : State) : State := raise .illegalCmd { s with cnt := 0#8 }

/-- A command sample (R26, R72, R194): decoded first; not accepted unless `cmd_ready`. -/
def onCommand (w : CmdWord) (p : Plane) (s : State) : Result :=
  if s.cmdReady then
    match decodeWord w with
    | some i => exec i { s with pixIn := p }
    | none => .next (endIllegal { s with pixIn := p })
  else .next s

/-- `RspTake` (R28): without a response it has no effect. -/
def onTakeResponse (s : State) : State := { s with rspValid := false }

/-- A change of `rst_n` while it is 1 (R215, R216). -/
def onReset (level : Bool) (s : State) : State :=
  if level then s else { resetLmdc s with rstN := false }

/-- One input while `rst_n` is 1. `s.inputs` is what comes after it. -/
def onInput (e : Input) (s : State) : Result :=
  match e with
  | .rst level => .next (onReset level s)
  | .command w p => onCommand w p s
  | .takeResponse => .next (onTakeResponse s)
  | .tx t => andThen (onTransport t s) fun s' => settle s'.inputs s'

/-- One input while `rst_n` is 0 (R215): every piece of the LMDC's state holds its reset value; only the level of
`rst_n` and the transport's completion of an earlier frame (R216) change anything. -/
def onInputHeld (e : Input) (s : State) : State :=
  match e with
  | .rst level => { s with rstN := level }
  | .command _ _ => s
  | .takeResponse => s
  | .tx .issue => s
  | .tx (.done ok) => completeTaken ok s

/-- What one step does: the next input, in reset or out of it. Without an input the machine waits. -/
def stepInput (s : State) : Result :=
  match s.rstN, s.inputs with
  | true, [] => .next s
  | true, e :: rest => onInput e (s.setInputs rest)
  | false, [] => .next (resetLmdc s)
  | false, e :: rest => .next (onInputHeld e (resetLmdc (s.setInputs rest)))

/-- The command port made ready (R26): not in reset, no command in flight, no response untaken. -/
def portReady (s : State) : State :=
  { s with rstN := true, busy := false, seq := none, frame := none, txValid := false, rspValid := false }

end Sys2Proof.Machine
end

