-- ==== Sys2Proof/Machine/Step.lean ====
section
/-! DEFINITION. The step of the machine, and how a word is put where the next step takes its command from. -/

namespace Sys2Proof.Machine

/-- One step: the machine handles its next input (Machine/Ports.lean). A command word that is accepted runs its
meaning `exec`. -/
def step (s : State) : Host.Outcome State Fault Refusal := stepInput s

/-- The word presented on a ready command port, so that the next step accepts it (10_state.md R26, log 15). -/
def State.withFetchWord (s : State) (nbits w : Nat) : State :=
  (portReady s).setInputs (.command (BitVec.ofNat 32 (w % 2 ^ nbits)) s.pixIn :: s.inputs)

end Sys2Proof.Machine
end

