-- ==== Sys2Proof/Safety.lean ====
section
/-! DEFINITION. What claims about the LMDC are stated in: the invariant of its states, what a faulted and a finished
state is, how a command ends, what it keeps, and what the transport does (spec/10_state.md R23, R24, R33, R36). -/

namespace Sys2Proof.Machine

/-- The chain is not the one that was declared: `READY` with another number of chips than are wired, or a transaction
that was for another number (45_chain_environment.md R177, 70_reset_and_hazards.md R224, 93_implementation_defined.md
U14). -/
def State.miswired (s : State) : Bool :=
  s.chain.miswired || (s.life == .ready && !s.chain.agrees s.chips)

/-- The host did what the source calls undefined: a model treats the state as faulted (10_state.md R33, log 5; U14,
log 9). -/
def State.faulted (s : State) : Bool := s.faultFlag || s.miswired

/-- A run has finished: no command in flight (R36), and no fault (R33, U14). -/
def State.finished (s : State) : Bool := !s.busy && !s.faulted

/-- `LIFE`, `N` and `SH` agree (R23, R24): in `READY` `N` is in 1..8 and `SH` is there; else `N` is 0 and it is not. -/
def State.lifeOk (s : State) : Bool :=
  match s.life with
  | .ready => decide (1 ≤ s.chips) && decide (s.chips ≤ 8) && s.sh.isSome
  | .uninit => s.n == 0#4 && s.sh.isNone
  | .released => s.n == 0#4 && s.sh.isNone

/-- `SH` keeps its canonical form and holds only bytes of index below `8*N` (20_memory.md R45). -/
def State.shadowOk (s : State) : Bool :=
  match s.sh with
  | none => true
  | some m => m.wf && m.all fun c => decide (c.1 < 8 * s.chips)

/-- An item of pseudocode addresses a chip, row and column that exist, so that it is no `noop`. Every item still to come
of a command in flight does (43_pattern.md R131): the loops run over the chips and rows there are, and the operands
they share have passed the tests of the first item (R140, R143, 44_rasterizer.md R160). -/
def Micro.inRange (n : Nat) : Micro → Bool
  | .send chip _ _ => decide (chip < n)
  | .clearRow chip row => decide (chip < n) && validRow row
  | .setRow chip row _ => decide (chip < n) && validRow row
  | .setCell chip row col _ => decide (chip < n) && validRow row && validCol col
  | .drawRow chip row => decide (chip < n) && validRow row

/-- The in-flight state (10_state.md R36): with a command in flight there is a frame of `2*N` bytes, presented or
taken, no response, and the items still to come are in range; without one there is neither command nor frame. -/
def State.flightOk (s : State) : Bool :=
  match s.busy, s.seq, s.frame with
  | true, some q, some f =>
    s.life == .ready && f.length == 2 * s.chips && q.rest.all (Micro.inRange s.chips) &&
      (s.txValid || s.taken == some f) && !s.rspValid
  | false, none, none => !s.txValid
  | _, _, _ => false

/-- While `rst_n` is 0 the LMDC's state is its reset state (70_reset_and_hazards.md R215); `PIX` may be anything
(10_state.md R41). -/
def State.resetOk (s : State) : Bool := s.rstN || resetLmdc s == { s with pix := 0#512 }

/-- The known chip registers are listed once each, of chips that are wired; the draw the unknown ones hold has been
made. -/
def State.chainOk (s : State) : Bool :=
  Cells.sorted s.chain.creg && (s.chain.creg.all fun c => decide (c.1 < 256 * s.chain.wired.getD 0)) &&
    decide (s.chain.epoch < s.chain.draws)

/-- The invariant of the machine's states. -/
def State.Inv (s : State) : Prop :=
  s.lifeOk = true ∧ s.shadowOk = true ∧ s.flightOk = true ∧ s.resetOk = true ∧ s.chainOk = true

/-- The transactions of the command in flight, done and to come, are at most those of the largest command
(10_state.md R37). -/
def State.countOk (s : State) : Bool :=
  match s.busy, s.seq with
  | true, some q => decide (s.cnt.toNat + q.rest.length + 1 ≤ (s.cfg.dtPulse.length + 9) * 8)
  | _, _ => true

/-- What a command that runs in `READY` never writes: the parameters, `LIFE`, `N`, `FAULT`, `rst_n` and `pix_in`; and it
rewires no chain of a known length. -/
structure State.Keeps (s t : State) : Prop where
  cfg : t.cfg = s.cfg
  life : t.life = s.life
  n : t.n = s.n
  faultFlag : t.faultFlag = s.faultFlag
  rstN : t.rstN = s.rstN
  pixIn : t.pixIn = s.pixIn
  wired : t.chain.wired = s.chain.wired ∨ s.chain.wired = none ∧ t.chain.wired = some s.chips

/-- The reset values that the spec states (10_state.md R41). -/
structure State.AtReset (t : State) : Prop where
  life : t.life = .uninit
  n : t.n = 0#4
  sh : t.sh = none
  busy : t.busy = false
  seq : t.seq = none
  frame : t.frame = none
  txValid : t.txValid = false
  cnt : t.cnt = 0#8
  lastStatus : t.lastStatus = .ok
  faultFlag : t.faultFlag = false
  rspValid : t.rspValid = false

/-- A command has ended with a status and a number of successful transactions, and its response is presented
(10_state.md R28). -/
structure State.Ended (t : State) (st : Status) (count : Nat) : Prop where
  busy : t.busy = false
  seq : t.seq = none
  frame : t.frame = none
  txValid : t.txValid = false
  rspValid : t.rspValid = true
  lastStatus : t.lastStatus = st
  cnt : t.cnt = BitVec.ofNat 8 count

/-- From `s` on: a command is in flight with this frame presented to the transport, after a number of successful
transactions (10_state.md R29), and `LAST_STATUS` is still the one before it (R32). -/
structure State.Presents (s t : State) (f : Option Frame) (count : Nat) : Prop where
  busy : t.busy = true
  frame : t.frame = f
  isFrame : f.isSome = true
  txValid : t.txValid = true
  rspValid : t.rspValid = false
  lastStatus : t.lastStatus = s.lastStatus
  cnt : t.cnt = BitVec.ofNat 8 count
  inputs : t.inputs = []

/-- The command port is ready in `READY`, in a state of the machine: a command of 42 to 44 is accepted and runs
(10_state.md R26, 60_exceptions.md R193). -/
structure State.Runs (s : State) : Prop where
  inv : s.Inv
  cmdReady : s.cmdReady = true
  life : s.life = .ready

/-- The row register of a chip holds its shadow byte (45_chain_environment.md R179). -/
def State.rowMirrored (s : State) (c r : Nat) : Prop :=
  s.shadowByte (c * 8 + r) = some (s.chain.reg c (s.cfg.reg.addr (.digit r)))

/-- The frame in flight brings the row register of a chip its shadow byte. -/
def State.rowInFlight (s : State) (c r : Nat) : Prop :=
  ∃ d, s.shadowByte (c * 8 + r) = some d ∧ s.frame.isSome = true ∧
    s.frame = encodeFrame s.chips c (s.cfg.reg.addr (.digit r)) d

/-- The command in flight still has to clear the row. -/
def State.rowToClear (s : State) (c r : Nat) : Prop := ∃ q, s.seq = some q ∧ Micro.clearRow c r ∈ q.rest

/-- The shadow mirrors the chips (20_memory.md R63, 45_chain_environment.md R179), but for the row whose frame is in
flight and the rows a command still has to clear; and the transport holds no frame but that one. -/
structure State.Mirrored (s : State) : Prop where
  taken : s.taken = none ∨ s.awaitsDone = true ∧ s.taken = s.frame
  rows : s.life = .ready → ∀ c r, c < s.chips → r ≤ 7 → s.rowMirrored c r ∨ s.rowInFlight c r ∨ s.rowToClear c r

/-- The control registers that the LMDC sends (45_chain_environment.md R181). -/
def controlRegs : List Reg := [.intensity, .scanLimit, .shutdown, .displayTest]

/-- What a frame in flight is (40_frame_encoder.md R94, 45_chain_environment.md R181, 20_memory.md R57): `Encode` of a
chip with one control register, or with the digit register of a row and the row's shadow byte. The frames still to
come of a command's own are of control registers. -/
structure State.FramesOk (s : State) : Prop where
  frame : ∀ f, s.frame = some f → ∃ chip reg d, encodeFrame s.chips chip (s.cfg.reg.addr reg) d = some f ∧
    (reg ∈ controlRegs ∨ ∃ r, r ≤ 7 ∧ reg = .digit r ∧ s.shadowByte (chip * 8 + r) = some d)
  toCome : ∀ q chip reg d, s.seq = some q → Micro.send chip reg d ∈ q.rest → reg ∈ controlRegs

/-- A command that writes rows, with operands that are there on a chain of `n` chips (43_pattern.md R130). -/
def rowsValid (n : Nat) : Instr → Bool
  | .clear chip => decide (chip < n)
  | .clearAll => true
  | .setCell chip row col _ => decide (chip < n) && validRow row && validCol col
  | .setRow chip row _ => decide (chip < n) && validRow row
  | .setRowAll row _ => validRow row
  | .setColumn chip col _ => decide (chip < n) && validCol col
  | .draw => true
  | .init _ => false
  | .setPower _ _ => false
  | .setScanLimit _ _ => false
  | .setIntensity _ _ => false
  | .release => false

/-- The rows, as chip and row, that such a command sends on a chain of `n` chips, one frame each, in its order
(43_pattern.md R133 to R141, 44_rasterizer.md R162). -/
def rowsSent (n : Nat) : Instr → List (Nat × Nat)
  | .clear chip => (List.range 8).map fun r => (chip, r)
  | .clearAll => (List.range n).flatMap fun c => (List.range 8).map fun r => (c, r)
  | .setCell chip row _ _ => [(chip, row)]
  | .setRow chip row _ => [(chip, row)]
  | .setRowAll row _ => (List.range n).map fun c => (c, row)
  | .setColumn chip _ _ => (List.range 8).map fun r => (chip, r)
  | .draw => (List.range 8).flatMap fun r => (List.range n).map fun c => (c, r)
  | .init _ => []
  | .setPower _ _ => []
  | .setScanLimit _ _ => []
  | .setIntensity _ _ => []
  | .release => []

/-- The transport takes `k` frames and completes each with success. -/
def okReplies : Nat → List Input
  | 0 => []
  | k + 1 => .tx .issue :: .tx (.done true) :: okReplies k

/-- The transport takes one frame and completes it with failure. -/
def failReply : List Input := [.tx .issue, .tx (.done false)]

/-- The next state of an outcome, if there is one. -/
def nextOf (r : Result) : Option State :=
  match r with
  | .next s => some s
  | .fault _ => none
  | .refused _ => none

end Sys2Proof.Machine
end

