-- ==== Sys2Proof/Certificates/Slice0/Obligations.lean ====
section
/-! DEFINITION. The statements about the model, for the provers. Each docstring names the rule of spec/ it formalises.
`s.Runs` is: the state meets the invariant, the command port is ready, and `LIFE` is `READY`. -/

open Sys2Proof Sys2Proof.Machine

/-! Reset, ports and the step -/

/-- 10_state.md R41: the reset values the spec states. (`PIX` is the model's choice, log 6, and not stated.) -/
def Obligations.ResetValues : Prop :=
  State.reset.life = .uninit ∧ State.reset.n = 0#4 ∧ State.reset.sh = none ∧ State.reset.busy = false ∧
    State.reset.seq = none ∧ State.reset.frame = none ∧ State.reset.txValid = false ∧ State.reset.cnt = 0#8 ∧
    State.reset.lastStatus = .ok ∧ State.reset.faultFlag = false ∧ State.reset.rspValid = false ∧
    State.reset.statusOut = 0x0000#16

/-- The state after reset meets the invariant that every step keeps, and so does every chain register list. -/
def Obligations.ResetMeetsInvariant : Prop := State.reset.Inv ∧ State.reset.countOk = true

/-- 70_reset_and_hazards.md R215, R216: while `rst_n` is 0 no command is accepted, the LMDC is at its reset values, and a
step leaves it there with no frame presented; it leaves reset exactly when `rst_n` returns to 1, idle in `UNINIT`. A frame
the transport still holds may be completed, and then the chips react to it; nothing else reaches them. (One input a
step, `rst_n` as a level that inputs change, and the held frame are the model's: logs 2, 22, 10.) -/
def Obligations.ResetHoldsState : Prop :=
  ∀ s : State, s.rstN = false → s.cmdReady = false ∧ (s.Inv → s.AtReset) ∧ ∃ t, step s = .next t ∧ t.AtReset ∧
    (t.rstN = true ↔ s.inputs.head? = some (.rst true)) ∧ t.cmdReady = t.rstN ∧
    t.cfg = s.cfg ∧ t.pixIn = s.pixIn ∧ t.inputs = s.inputs.tail ∧
    (∀ ok, s.inputs.head? = some (.tx (.done ok)) → t.taken = none ∧ (s.taken = none → t.chain = s.chain) ∧
      ∀ f, s.taken = some f → t.chain = s.chain.complete s.cfg.havocOnFail ok f) ∧
    ((∀ ok, s.inputs.head? ≠ some (.tx (.done ok))) → t.taken = s.taken ∧ t.chain = s.chain)

/-- R215, R216: when `rst_n` falls, whatever the LMDC is doing, it is at its reset values: a command in flight ends
without a response, a response not taken is gone, `FAULT` is cleared. What the transport has taken and what the chips
hold is left to them (log 10). -/
def Obligations.ResetEndsCommandSilently : Prop :=
  ∀ (s : State) (rest : List Input), s.rstN = true → s.inputs = .rst false :: rest →
    ∃ t, step s = .next t ∧ t.rstN = false ∧ t.cmdReady = false ∧ t.AtReset ∧ t.response = none ∧ t.txPort = none ∧
      t.cfg = s.cfg ∧ t.pixIn = s.pixIn ∧ t.taken = s.taken ∧ t.chain = s.chain ∧ t.inputs = rest

/-- 10_state.md R29, 70_reset_and_hazards.md R216: a completion report while the LMDC waits for none changes nothing
of the LMDC. If the transport still holds a frame it is completed, and the chips react to it (45_chain_environment.md
R174, R176); else they keep every register. (The held frame is the model's account, log 10.) -/
def Obligations.StrayCompletionIgnored : Prop :=
  ∀ (s : State) (ok : Bool), s.rstN = true → s.awaitsDone = false → s.inputs = [.tx (.done ok)] →
    ∃ t, step s = .next t ∧ t = { s with inputs := [], taken := none, chain := t.chain } ∧
      (s.taken = none → t.chain = s.chain) ∧
      ∀ f, s.taken = some f → t.chain = s.chain.complete s.cfg.havocOnFail ok f

/-- R30, with the codes of R22 and 60_exceptions.md R186: the fields of the status word; the reserved bits read 0. -/
def Obligations.StatusWordFields : Prop :=
  (∀ s : State,
    s.statusOut.extractLsb' 0 2 = s.life.code ∧ s.statusOut.getLsbD 2 = s.busy ∧ s.statusOut.getLsbD 3 = false ∧
      s.statusOut.extractLsb' 4 3 = s.lastStatus.code ∧ s.statusOut.getLsbD 7 = s.faultFlag ∧
      s.statusOut.extractLsb' 8 4 = s.n ∧ s.statusOut.extractLsb' 12 4 = 0#4) ∧
    Life.uninit.code = 0#2 ∧ Life.ready.code = 1#2 ∧ Life.released.code = 2#2 ∧
    Status.ok.code = 0#3 ∧ Status.transportFail.code = 1#3 ∧ Status.illegalCmd.code = 2#3 ∧
    Status.illegalState.code = 3#3 ∧ Status.useAfterRelease.code = 4#3

/-- R25, R29: byte `i` of a frame on bits `[8i+7 : 8i]` of `tx_data`, 0 beyond it. The frame port shows the frame in
flight exactly while `tx_valid`, with `tx_len = 2*N`. -/
def Obligations.TxDataLanes : Prop :=
  (∀ (f : Frame) (i : Nat), i < 16 → (packFrame f).extractLsb' (8 * i) 8 = f.getD i 0x00#8) ∧
    (∀ s : State, s.txValid = false → s.txPort = none) ∧
    ∀ s : State, s.Inv → s.txValid = true → ∃ f len, s.frame = some f ∧ s.txPort = some (len, packFrame f) ∧
      len.toNat = f.length ∧ f.length = 2 * s.chips

/-- R26: a command is not accepted unless `cmd_ready`; presented then, it changes nothing. -/
def Obligations.CommandNeedsReady : Prop :=
  ∀ (s : State) (w : CmdWord) (p : Plane) (rest : List Input),
    s.rstN = true → s.busy = true ∨ s.rspValid = true → s.inputs = .command w p :: rest →
    step s = .next { s with inputs := rest }

/-- R28, R32: the response port shows `rsp_status = LAST_STATUS` and `rsp_count = CNT` exactly while `rsp_valid`; taking
the response clears `rsp_valid` and nothing else. -/
def Obligations.ResponseTaken : Prop :=
  (∀ s : State, (s.rspValid = true → s.response = some (s.lastStatus.code, s.cnt)) ∧
    (s.rspValid = false → s.response = none)) ∧
    ∀ (s : State) (rest : List Input), s.rstN = true → s.inputs = .takeResponse :: rest →
      step s = .next { s with rspValid := false, inputs := rest }

/-- A step runs the decoded command: a word on a ready port that spells `i` (R26, 30_encoding.md R72) makes the step
the meaning of `i`, at the state with that sample used up and its plane on `pix_in`. -/
def Obligations.StepRunsCommand : Prop :=
  ∀ (s : State) (w : CmdWord) (p : Plane) (rest : List Input) (i : Instr),
    s.cmdReady = true → s.inputs = .command w p :: rest → decodeWord w = some i →
    step s = exec i { s with pixIn := p, inputs := rest }

/-- 60_exceptions.md R191: a word that spells no command ends with ILLEGAL_CMD in every `LIFE`, sends no frame and
changes nothing but `LAST_STATUS` and the response with its count 0. -/
def Obligations.IllegalWordStatus : Prop :=
  ∀ (s : State) (w : CmdWord) (p : Plane) (rest : List Input),
    s.cmdReady = true → s.seq = none → s.inputs = .command w p :: rest → decodeWord w = none →
    step s = .next { s with pixIn := p, inputs := rest, cnt := 0#8, lastStatus := .illegalCmd, rspValid := true }

/-- 10_state.md R29, 70_reset_and_hazards.md R217: a command that waits for the transport waits for ever without it. -/
def Obligations.StalledTransportWaits : Prop :=
  ∀ s : State, s.rstN = true → s.busy = true → s.inputs = [] → step s = .next s

/-! Encoding -/

/-- 30_encoding.md R77: the worked encodings. -/
def Obligations.DecodeWorkedWords : Prop :=
  decodeWord 0x10000002#32 = some (.init 2) ∧ decodeWord 0x10000000#32 = some (.init 0) ∧
    decodeWord 0x21000000#32 = some (.setPower 0 true) ∧ decodeWord 0x20030000#32 = some (.setPower 3 false) ∧
    decodeWord 0x30000007#32 = some (.setScanLimit 0 7#8) ∧ decodeWord 0x40010008#32 = some (.setIntensity 1 8#8) ∧
    decodeWord 0x50020000#32 = some (.clear 2) ∧ decodeWord 0x60000000#32 = some .clearAll ∧
    decodeWord 0x71000000#32 = some (.setCell 0 0 0 true) ∧ decodeWord 0x70010307#32 = some (.setCell 1 3 7 false) ∧
    decodeWord 0x8001030F#32 = some (.setRow 1 3 0x0F#8) ∧ decodeWord 0x900003FF#32 = some (.setRowAll 3 0xFF#8) ∧
    decodeWord 0xA00002A5#32 = some (.setColumn 0 2 0xA5#8) ∧ decodeWord 0xB0000000#32 = some .draw ∧
    decodeWord 0xC0000000#32 = some .release ∧ decodeWord 0x00000000#32 = none ∧
    decodeWord 0x12000002#32 = none ∧ decodeWord 0x21000100#32 = none

/-- Decode and encode agree: every well-formed command, with every operand at every value, decodes from its word
(R68, R69). -/
def Obligations.DecodeEncode : Prop := ∀ i : Instr, i.wf = true → decodeWord (encode i) = some i

/-- The other direction: a word that spells a command is that command's word, and the command is well formed (R68,
R69, R70). -/
def Obligations.EncodeDecode : Prop :=
  ∀ (w : CmdWord) (i : Instr), decodeWord w = some i → encode i = w ∧ i.wf = true

/-- R68: no word spells two commands. -/
def Obligations.NoWordSpellsTwo : Prop :=
  decodeRows.Pairwise fun r q => ∀ w : CmdWord, ¬ (r.spells w = true ∧ q.spells w = true)

/-- R71 and the bits `Z` of R70: these words spell no command. -/
def Obligations.ReservedWordsIllegal : Prop :=
  ∀ w : CmdWord,
    w.extractLsb' 28 4 ∈ [0x0#4, 0xD#4, 0xE#4, 0xF#4] ∨ w.extractLsb' 25 3 ≠ 0#3 → decodeWord w = none

/-! The frame encoder and the chips -/

/-- 40_frame_encoder.md R86 to R88, R91: a frame has `2*N` bytes; the pair at pair index `N-1-t` is `(op, d)` and
every other pair is the NOP pair. -/
def Obligations.EncodePairs : Prop :=
  ∀ (n t : Nat) (op d : Byte), t < n → ∃ f, encodeFrame n t op d = some f ∧ f.length = 2 * n ∧
    ∀ p, p < n → (f.getD (2 * p) 0xFF#8, f.getD (2 * p + 1) 0xFF#8) =
      if p = n - 1 - t then (op, d) else (0x00#8, 0x00#8)

/-- R89: `Encode` of a chip outside the chain has no frame. R92: a single chip's frame is its pair. -/
def Obligations.EncodeRangeAndSingle : Prop :=
  (∀ (n t : Nat) (op d : Byte), n ≤ t → encodeFrame n t op d = none) ∧
    ∀ op d : Byte, encodeFrame 1 0 op d = some [op, d]

/-- 45_chain_environment.md R174, R175: on a chain of `n` chips a successful frame of `Encode(t, op, d)` gives the
target's register `op` the byte `d` and leaves every other register of every chip as it was. (A chain whose number of
chips is not yet known is taken to be the one the frame is for: R177, log 9.) -/
def Obligations.LatchChangesTargetOnly : Prop :=
  ∀ (h : Chain) (n t : Nat) (op d : Byte) (f : Frame), h.agrees n = true → t < n → op ≠ regNop →
    encodeFrame n t op d = some f →
    (h.latch f).wired = some n ∧ (h.latch f).miswired = h.miswired ∧
      ∀ c a, c < n → a ≠ regNop → (h.latch f).reg c a = if c = t ∧ a = op then d else h.reg c a

/-- R176: a failed transaction with `HAVOC_ON_FAIL = true` leaves no register known: each holds a value of a new draw.
With `false` the target's register holds one and every other register is as it was. No draw is used twice. (The draws
are the model's, log 8.) -/
def Obligations.FailedFrameEffect : Prop :=
  ∀ (h : Chain) (n t : Nat) (op d : Byte) (f : Frame), h.agrees n = true → t < n → op ≠ regNop →
    encodeFrame n t op d = some f →
    (∀ c a, (h.fail true f).known c a = false ∧ (h.fail true f).reg c a = Config.freeReg h.draws c a.toNat) ∧
      (h.fail false f).reg t op = Config.freeReg h.draws t op.toNat ∧
      (∀ c a, c < n → a ≠ regNop → ¬ (c = t ∧ a = op) → (h.fail false f).reg c a = h.reg c a) ∧
      ∀ b, (h.fail b f).draws = h.draws + 1

/-- 10_state.md R29, R34, 40_frame_encoder.md R93, 45_chain_environment.md R174, R176: the two events of a transaction.
TxIssue gives the presented frame to the transport and clears `tx_valid`, and with none presented it changes nothing.
Then the report of the frame that was taken. The chips react to the frame. A failure ends the command with
TRANSPORT_FAIL and leaves `CNT`. A success adds one to `CNT` (modulo 256, log 27): of the command's last frame it ends
the command with OK; else the next item of its pseudocode runs: a frame to a control register is presented, or a row is
written in the shadow and then presented. No item still to come is a no-op (43_pattern.md R143, 44_rasterizer.md
R160). -/
def Obligations.CompletionEndsTransmit : Prop :=
  (∀ (s : State) (rest : List Input), s.rstN = true → s.inputs = .tx .issue :: rest →
    s.busy = false ∨ (∀ e r, rest ≠ .tx e :: r) →
    (∀ f, s.txValid = true → s.frame = some f →
      step s = .next { s with txValid := false, taken := some f, inputs := rest }) ∧
    (s.txValid = false → step s = .next { s with inputs := rest })) ∧
  ∀ (s : State) (i : Instr) (ms : List Micro) (ok : Bool) (rest : List Input),
    s.rstN = true → s.awaitsDone = true → s.seq = some ⟨i, ms⟩ → s.inputs = .tx (.done ok) :: rest →
    let chipsReact := fun (t : State) =>
      t.taken = none ∧ ∀ f, s.taken = some f → t.chain = s.chain.complete s.cfg.havocOnFail ok f
    let goesOn := fun (t : State) (ms' : List Micro) (f : Option Frame) =>
      t.busy = true ∧ t.seq = some ⟨i, ms'⟩ ∧ f.isSome = true ∧ t.frame = f ∧ t.txValid = true ∧ t.rspValid = false ∧
        t.cnt = s.cnt + 1#8 ∧ t.lastStatus = s.lastStatus ∧ t.pix = s.pix ∧ s.Keeps t ∧ t.inputs = [] ∧ chipsReact t
    (ok = true → ms = [] → ∃ t, step s = .next t ∧ t.busy = false ∧ t.frame = none ∧ t.lastStatus = .ok ∧
      t.rspValid = true ∧ t.cnt = s.cnt + 1#8 ∧ t.sh = s.sh ∧ t.inputs = rest ∧ chipsReact t) ∧
    (ok = false → ∃ t, step s = .next t ∧ t.busy = false ∧ t.frame = none ∧ t.lastStatus = .transportFail ∧
      t.rspValid = true ∧ t.cnt = s.cnt ∧ t.inputs = rest ∧ chipsReact t) ∧
    (∀ ms' chip reg d, s.Inv → ok = true → rest = [] → ms = .send chip reg d :: ms' → ∃ t, step s = .next t ∧
      goesOn t ms' (encodeFrame s.chips chip (s.cfg.reg.addr reg) d) ∧ t.sh = s.sh) ∧
    ∀ m ms' chip row v, s.Inv → ok = true → rest = [] → ms = m :: ms' →
      (m = .clearRow chip row ∧ v = 0x00#8) ∨ m = .setRow chip row v ∨
        (m = .drawRow chip row ∧ v = rasterByte s.pix chip row) ∨
        (∃ col lit w, m = .setCell chip row col lit ∧ s.shadowByte (chip * 8 + row) = some w ∧
          v = if lit then w ||| (0x80#8 >>> col) else w &&& ~~~ (0x80#8 >>> col)) →
      ∃ t, step s = .next t ∧ goesOn t ms' (encodeFrame s.chips chip (s.cfg.reg.addr (.digit row)) v) ∧
        ∀ j, t.shadowByte j = if j = chip * 8 + row then some v else s.shadowByte j

/-! INIT and RELEASE -/

/-- 41_lifecycle.md R101: the effective length. -/
def Obligations.EffectiveLength : Prop :=
  ∀ req : Nat, effLen req = if req = 0 ∨ 9 ≤ req then 8 else req

/-- R100, R102, 70_reset_and_hazards.md R236: INIT outside `READY`, every transaction succeeding: `N` is the
effective length, every shadow byte is 0x00, `LIFE` is `READY`, and `(len(DT_PULSE) + 9) * N` frames were sent. (A
frame taken before a reset is replaced by the first of them: log 10. Above 255 the count wraps: log 27.) -/
def Obligations.InitResult : Prop :=
  ∀ (s : State) (req : Nat) (rest : List Input), s.Inv → s.cmdReady = true → s.life ≠ .ready →
    s.inputs = okReplies ((s.cfg.dtPulse.length + 9) * effLen req) ++ rest →
    ∃ t, exec (.init req) s = .next t ∧ t.Ended .ok ((s.cfg.dtPulse.length + 9) * effLen req) ∧
      t.life = .ready ∧ t.chips = effLen req ∧ (∀ i, i < 8 * effLen req → t.shadowByte i = some 0x00#8) ∧
      t.cfg = s.cfg ∧ t.faultFlag = s.faultFlag ∧ t.rstN = s.rstN ∧ t.pix = s.pix ∧ t.pixIn = s.pixIn ∧
      t.taken = none ∧ t.inputs = rest ∧
      (t.chain.wired = s.chain.wired ∨ s.chain.wired = none ∧ t.chain.wired = some (effLen req))

/-- R103, R104: INIT after `k` successful transactions presents its `k`-th frame (from 0): for each chip in turn the
display test pulse, the scan limit 7, the rows 0 to 7; `SH` is there and all 0x00. If that transaction fails the
LMDC is back in `UNINIT` with `N = 0` and no shadow. (A frame taken before a reset is replaced by
INIT's first one: log 10. Above 255 the count wraps: log 27.) -/
def Obligations.InitPartial : Prop :=
  ∀ (s : State) (req k : Nat), s.Inv → s.cmdReady = true → s.life ≠ .ready →
    k < (s.cfg.dtPulse.length + 9) * effLen req →
    let chip := k / (s.cfg.dtPulse.length + 9)
    let j := k % (s.cfg.dtPulse.length + 9)
    let l := s.cfg.dtPulse.length
    let frame :=
      if j < l then encodeFrame (effLen req) chip s.cfg.reg.displayTest (s.cfg.dtPulse.getD j 0x00#8)
      else if j = l then encodeFrame (effLen req) chip s.cfg.reg.scanLimit 0x07#8
      else encodeFrame (effLen req) chip (s.cfg.reg.addr (.digit (j - l - 1))) 0x00#8
    (s.inputs = okReplies k → ∃ t, exec (.init req) s = .next t ∧ s.Presents t frame k ∧ t.life = .ready ∧
      t.chips = effLen req ∧ (∀ i, i < 8 * effLen req → t.shadowByte i = some 0x00#8) ∧
      t.faultFlag = s.faultFlag ∧ t.cfg = s.cfg ∧ t.rstN = s.rstN ∧ t.pix = s.pix ∧ t.pixIn = s.pixIn) ∧
    ∀ rest, s.inputs = okReplies k ++ failReply ++ rest → ∃ t, exec (.init req) s = .next t ∧
      t.Ended .transportFail k ∧ t.life = .uninit ∧ t.n = 0#4 ∧ t.sh = none ∧ t.faultFlag = s.faultFlag ∧
      t.cfg = s.cfg ∧ t.rstN = s.rstN ∧ t.pix = s.pix ∧ t.pixIn = s.pixIn ∧ t.taken = none ∧ t.inputs = rest

/-- R106: RELEASE in `READY` takes `LIFE` to `RELEASED`, `N` to 0 and `SH` away; in the other states it changes
nothing; it ends OK and sends no frame. -/
def Obligations.ReleaseResult : Prop :=
  ∀ s : State, s.Inv → s.cmdReady = true →
    (s.life = .ready → exec .release s = .next
      { s with life := .released, n := 0#4, sh := none, cnt := 0#8, lastStatus := .ok, rspValid := true }) ∧
    (s.life ≠ .ready → exec .release s = .next { s with cnt := 0#8, lastStatus := .ok, rspValid := true })

/-- 60_exceptions.md R192, R193, R196: admission. INIT in `READY`, and any command but INIT and RELEASE in `UNINIT`,
ends ILLEGAL_STATE; any command but INIT and RELEASE in `RELEASED` ends USE_AFTER_RELEASE and sets `FAULT`. No frame
is sent and nothing else changes, but that DRAW latches `pix_in` when it is accepted (10_state.md R26, log 12). -/
def Obligations.AdmissionByLife : Prop :=
  ∀ (s : State) (i : Instr), s.Inv → s.cmdReady = true →
    let t := { s with cnt := 0#8, rspValid := true, pix := if i = Instr.draw then s.pixIn else s.pix }
    ((∃ req, i = .init req) → s.life = .ready → exec i s = .next { t with lastStatus := .illegalState }) ∧
    ((∀ req, i ≠ .init req) → i ≠ .release → s.life = .uninit →
      exec i s = .next { t with lastStatus := .illegalState }) ∧
    ((∀ req, i ≠ .init req) → i ≠ .release → s.life = .released →
      exec i s = .next { t with lastStatus := .useAfterRelease, faultFlag := true })

/-! SET_POWER, SET_SCAN_LIMIT, SET_INTENSITY -/

/-- 42_chip_config.md R116, R117: SET_POWER sends one frame to the chip's shutdown register, 0x00 for on and 0x01 for
off, and leaves the shadow as it was. -/
def Obligations.SetPowerResult : Prop :=
  ∀ (s : State) (chip : Nat) (on : Bool) (rest : List Input), s.Runs → chip < s.chips →
    s.inputs = okReplies 1 ++ rest →
    ∃ t f, encodeFrame s.chips chip s.cfg.reg.shutdown (if on then 0x00#8 else 0x01#8) = some f ∧
      exec (.setPower chip on) s = .next t ∧ t.Ended .ok 1 ∧ s.Keeps t ∧ t.sh = s.sh ∧ t.pix = s.pix ∧
      t.taken = none ∧ t.chain = s.chain.latch f ∧ t.inputs = rest

/-- R118, R119: SET_SCAN_LIMIT sends the limit as it is, unless `STRICT_RANGE` and the limit is above 7. -/
def Obligations.SetScanLimitResult : Prop :=
  ∀ (s : State) (chip : Nat) (limit : Byte) (rest : List Input), s.Runs → chip < s.chips →
    s.cfg.strictRange = false ∨ limit.toNat ≤ 7 → s.inputs = okReplies 1 ++ rest →
    ∃ t f, encodeFrame s.chips chip s.cfg.reg.scanLimit limit = some f ∧
      exec (.setScanLimit chip limit) s = .next t ∧ t.Ended .ok 1 ∧ s.Keeps t ∧ t.sh = s.sh ∧ t.pix = s.pix ∧
      t.taken = none ∧ t.chain = s.chain.latch f ∧ t.inputs = rest

/-- R118, R120: SET_INTENSITY sends the level as it is, unless `STRICT_RANGE` and the level is above 0xF. -/
def Obligations.SetIntensityResult : Prop :=
  ∀ (s : State) (chip : Nat) (level : Byte) (rest : List Input), s.Runs → chip < s.chips →
    s.cfg.strictRange = false ∨ level.toNat ≤ 15 → s.inputs = okReplies 1 ++ rest →
    ∃ t f, encodeFrame s.chips chip s.cfg.reg.intensity level = some f ∧
      exec (.setIntensity chip level) s = .next t ∧ t.Ended .ok 1 ∧ s.Keeps t ∧ t.sh = s.sh ∧ t.pix = s.pix ∧
      t.taken = none ∧ t.chain = s.chain.latch f ∧ t.inputs = rest

/-- R115, R118: with an invalid chip, and with `STRICT_RANGE` an out-of-range limit or level, the command is a no-op
that ends OK. -/
def Obligations.ChipConfigNoop : Prop :=
  ∀ (s : State) (i : Instr), s.Runs →
    (∃ chip on, i = .setPower chip on ∧ s.chips ≤ chip) ∨
    (∃ chip limit, i = .setScanLimit chip limit ∧ (s.chips ≤ chip ∨ s.cfg.strictRange = true ∧ 7 < limit.toNat)) ∨
    (∃ chip level, i = .setIntensity chip level ∧ (s.chips ≤ chip ∨ s.cfg.strictRange = true ∧ 15 < level.toNat)) →
    exec i s = .next { s with cnt := 0#8, lastStatus := .ok, rspValid := true }

/-- 60_exceptions.md R187, R190, 10_state.md R29: while the transport does not take the frame the command waits with
it presented; when its transaction fails the command ends TRANSPORT_FAIL with count 0, and the chips are as after a
failed transaction of that frame (45_chain_environment.md R176). The shadow is as it was. -/
def Obligations.ChipConfigPartial : Prop :=
  ∀ (s : State) (i : Instr) (chip : Nat) (reg d : Byte), s.Runs → chip < s.chips →
    (∃ on : Bool, i = .setPower chip on ∧ reg = s.cfg.reg.shutdown ∧ d = if on then 0x00#8 else 0x01#8) ∨
    (i = .setScanLimit chip d ∧ reg = s.cfg.reg.scanLimit ∧ (s.cfg.strictRange = false ∨ d.toNat ≤ 7)) ∨
    (i = .setIntensity chip d ∧ reg = s.cfg.reg.intensity ∧ (s.cfg.strictRange = false ∨ d.toNat ≤ 15)) →
    (s.inputs = [] → ∃ t, exec i s = .next t ∧ s.Presents t (encodeFrame s.chips chip reg d) 0 ∧ s.Keeps t ∧
      t.sh = s.sh ∧ t.pix = s.pix ∧ t.taken = s.taken ∧ t.chain = s.chain) ∧
    ∀ rest, s.inputs = failReply ++ rest → ∃ t, exec i s = .next t ∧ t.Ended .transportFail 0 ∧ s.Keeps t ∧
      t.sh = s.sh ∧ t.pix = s.pix ∧ t.taken = none ∧ t.inputs = rest ∧
      ∀ f, encodeFrame s.chips chip reg d = some f → t.chain = s.chain.fail s.cfg.havocOnFail f

/-! The pattern commands -/

/-- 43_pattern.md R131, R140, R141: with an invalid chip, row or column a pattern command is a no-op that ends OK:
no shadow byte changes and no frame is sent. -/
def Obligations.PatternNoop : Prop :=
  ∀ (s : State) (i : Instr), s.Runs →
    (∃ chip, i = .clear chip ∧ s.chips ≤ chip) ∨
    (∃ chip row col lit, i = .setCell chip row col lit ∧ (s.chips ≤ chip ∨ 7 < row ∨ 7 < col)) ∨
    (∃ chip row v, i = .setRow chip row v ∧ (s.chips ≤ chip ∨ 7 < row)) ∨
    (∃ row v, i = .setRowAll row v ∧ 7 < row) ∨
    (∃ chip col v, i = .setColumn chip col v ∧ (s.chips ≤ chip ∨ 7 < col)) →
    exec i s = .next { s with cnt := 0#8, lastStatus := .ok, rspValid := true }

/-- R139: SET_ROW writes the one shadow byte and sends its row. -/
def Obligations.SetRowResult : Prop :=
  ∀ (s : State) (chip row : Nat) (v : Byte) (rest : List Input), s.Runs → chip < s.chips → row ≤ 7 →
    s.inputs = okReplies 1 ++ rest →
    ∃ t f, encodeFrame s.chips chip (s.cfg.reg.addr (.digit row)) v = some f ∧
      exec (.setRow chip row v) s = .next t ∧ t.Ended .ok 1 ∧ s.Keeps t ∧
      (∀ i, t.shadowByte i = if i = chip * 8 + row then some v else s.shadowByte i) ∧ t.pix = s.pix ∧
      t.taken = none ∧ t.chain = s.chain.latch f ∧ t.inputs = rest

/-- R137, R138: SET_CELL sets or clears the one bit of the shadow byte and sends the row. -/
def Obligations.SetCellResult : Prop :=
  ∀ (s : State) (chip row col : Nat) (lit : Bool) (rest : List Input), s.Runs → chip < s.chips → row ≤ 7 → col ≤ 7 →
    s.inputs = okReplies 1 ++ rest →
    ∃ t f v w, s.shadowByte (chip * 8 + row) = some v ∧
      w = (if lit then v ||| (0x80#8 >>> col) else v &&& ~~~ (0x80#8 >>> col)) ∧
      encodeFrame s.chips chip (s.cfg.reg.addr (.digit row)) w = some f ∧
      exec (.setCell chip row col lit) s = .next t ∧ t.Ended .ok 1 ∧ s.Keeps t ∧
      (∀ i, t.shadowByte i = if i = chip * 8 + row then some w else s.shadowByte i) ∧ t.pix = s.pix ∧
      t.taken = none ∧ t.chain = s.chain.latch f ∧ t.inputs = rest

/-- R138: only bit `7 - col` can change, and it becomes `lit`. -/
def Obligations.CellUpdateBits : Prop :=
  ∀ (v : Byte) (col : Nat) (lit : Bool), col ≤ 7 → ∀ j, j < 8 →
    (cellUpdate v col lit).getLsbD j = if j = 7 - col then lit else v.getLsbD j

/-- 60_exceptions.md R190, 20_memory.md R57: SET_ROW and SET_CELL have written the shadow before their frame is
presented, and a failed transaction does not undo it. -/
def Obligations.RowAndCellPartial : Prop :=
  ∀ (s : State) (i : Instr) (chip row : Nat) (w : Byte), s.Runs → chip < s.chips → row ≤ 7 →
    i = .setRow chip row w ∨
      (∃ col lit v, i = .setCell chip row col lit ∧ col ≤ 7 ∧ s.shadowByte (chip * 8 + row) = some v ∧
        w = (if lit then v ||| (0x80#8 >>> col) else v &&& ~~~ (0x80#8 >>> col))) →
    (s.inputs = [] → ∃ t, exec i s = .next t ∧
      s.Presents t (encodeFrame s.chips chip (s.cfg.reg.addr (.digit row)) w) 0 ∧ s.Keeps t ∧
      (∀ j, t.shadowByte j = if j = chip * 8 + row then some w else s.shadowByte j) ∧ t.pix = s.pix ∧
      t.taken = s.taken ∧ t.chain = s.chain) ∧
    ∀ rest, s.inputs = failReply ++ rest → ∃ t, exec i s = .next t ∧ t.Ended .transportFail 0 ∧ s.Keeps t ∧
      (∀ j, t.shadowByte j = if j = chip * 8 + row then some w else s.shadowByte j) ∧ t.pix = s.pix ∧
      t.taken = none ∧ t.inputs = rest ∧
      ∀ f, encodeFrame s.chips chip (s.cfg.reg.addr (.digit row)) w = some f →
        t.chain = s.chain.fail s.cfg.havocOnFail f

/-- R134, R135: CLEAR gives the chip's 8 shadow bytes 0x00 and no other byte another value; 8 frames. -/
def Obligations.ClearResult : Prop :=
  ∀ (s : State) (chip : Nat) (rest : List Input), s.Runs → chip < s.chips → s.inputs = okReplies 8 ++ rest →
    ∃ t, exec (.clear chip) s = .next t ∧ t.Ended .ok 8 ∧ s.Keeps t ∧
      (∀ i, t.shadowByte i = if chip * 8 ≤ i ∧ i ≤ chip * 8 + 7 then some 0x00#8 else s.shadowByte i) ∧
      t.pix = s.pix ∧ t.taken = none ∧ t.inputs = rest

/-- R134, 60_exceptions.md R190: after `k` successful transactions CLEAR presents the frame of row `k`, with rows 0
to `k` of the shadow 0x00 and the later rows as they were; a failure there leaves it so. -/
def Obligations.ClearPartial : Prop :=
  ∀ (s : State) (chip k : Nat), s.Runs → chip < s.chips → k ≤ 7 →
    (s.inputs = okReplies k → ∃ t, exec (.clear chip) s = .next t ∧
      s.Presents t (encodeFrame s.chips chip (s.cfg.reg.addr (.digit k)) 0x00#8) k ∧ s.Keeps t ∧ t.pix = s.pix ∧
      (∀ i, t.shadowByte i = if chip * 8 ≤ i ∧ i ≤ chip * 8 + k then some 0x00#8 else s.shadowByte i)) ∧
    ∀ rest, s.inputs = okReplies k ++ failReply ++ rest → ∃ t, exec (.clear chip) s = .next t ∧
      t.Ended .transportFail k ∧ s.Keeps t ∧ t.pix = s.pix ∧ t.inputs = rest ∧
      (∀ i, t.shadowByte i = if chip * 8 ≤ i ∧ i ≤ chip * 8 + k then some 0x00#8 else s.shadowByte i)

/-- R136: CLEAR_ALL gives every shadow byte 0x00; `8*N` frames. -/
def Obligations.ClearAllResult : Prop :=
  ∀ (s : State) (rest : List Input), s.Runs → s.inputs = okReplies (8 * s.chips) ++ rest →
    ∃ t, exec .clearAll s = .next t ∧ t.Ended .ok (8 * s.chips) ∧ s.Keeps t ∧
      (∀ i, i < 8 * s.chips → t.shadowByte i = some 0x00#8) ∧ t.pix = s.pix ∧ t.taken = none ∧ t.inputs = rest

/-- R134, R136: CLEAR_ALL's `k`-th frame (from 0) is that of row `k mod 8` of chip `k div 8`; the shadow bytes up to
index `k` are 0x00 and the others as they were, also when that transaction fails. -/
def Obligations.ClearAllPartial : Prop :=
  ∀ (s : State) (k : Nat), s.Runs → k < 8 * s.chips →
    (s.inputs = okReplies k → ∃ t, exec .clearAll s = .next t ∧
      s.Presents t (encodeFrame s.chips (k / 8) (s.cfg.reg.addr (.digit (k % 8))) 0x00#8) k ∧ s.Keeps t ∧
      t.pix = s.pix ∧ (∀ i, t.shadowByte i = if i ≤ k then some 0x00#8 else s.shadowByte i)) ∧
    ∀ rest, s.inputs = okReplies k ++ failReply ++ rest → ∃ t, exec .clearAll s = .next t ∧
      t.Ended .transportFail k ∧ s.Keeps t ∧ t.pix = s.pix ∧ t.inputs = rest ∧
      (∀ i, t.shadowByte i = if i ≤ k then some 0x00#8 else s.shadowByte i)

/-- R140: SET_ROW_ALL writes the byte to that row of every chip and no other byte; `N` frames. -/
def Obligations.SetRowAllResult : Prop :=
  ∀ (s : State) (row : Nat) (v : Byte) (rest : List Input), s.Runs → row ≤ 7 →
    s.inputs = okReplies s.chips ++ rest →
    ∃ t, exec (.setRowAll row v) s = .next t ∧ t.Ended .ok s.chips ∧ s.Keeps t ∧
      (∀ i, t.shadowByte i = if i < 8 * s.chips ∧ i % 8 = row then some v else s.shadowByte i) ∧ t.pix = s.pix ∧
      t.taken = none ∧ t.inputs = rest

/-- R140: SET_ROW_ALL's `k`-th frame is chip `k`'s; chips 0 to `k` are written in the shadow and the others are as
they were, also when that transaction fails. -/
def Obligations.SetRowAllPartial : Prop :=
  ∀ (s : State) (row k : Nat) (v : Byte), s.Runs → row ≤ 7 → k < s.chips →
    (s.inputs = okReplies k → ∃ t, exec (.setRowAll row v) s = .next t ∧
      s.Presents t (encodeFrame s.chips k (s.cfg.reg.addr (.digit row)) v) k ∧ s.Keeps t ∧ t.pix = s.pix ∧
      (∀ i, t.shadowByte i = if i / 8 ≤ k ∧ i % 8 = row then some v else s.shadowByte i)) ∧
    ∀ rest, s.inputs = okReplies k ++ failReply ++ rest → ∃ t, exec (.setRowAll row v) s = .next t ∧
      t.Ended .transportFail k ∧ s.Keeps t ∧ t.pix = s.pix ∧ t.inputs = rest ∧
      (∀ i, t.shadowByte i = if i / 8 ≤ k ∧ i % 8 = row then some v else s.shadowByte i)

/-- R141, R142: after SET_COLUMN bit `7 - col` of each row of the chip is bit `7 - row` of the value, every other bit
and every other byte is as before; 8 frames. -/
def Obligations.SetColumnResult : Prop :=
  ∀ (s : State) (chip col : Nat) (value : Byte) (rest : List Input), s.Runs → chip < s.chips → col ≤ 7 →
    s.inputs = okReplies 8 ++ rest →
    ∃ t, exec (.setColumn chip col value) s = .next t ∧ t.Ended .ok 8 ∧ s.Keeps t ∧ t.pix = s.pix ∧
      (∀ r, r ≤ 7 → ∃ v w, s.shadowByte (chip * 8 + r) = some v ∧ t.shadowByte (chip * 8 + r) = some w ∧
        ∀ j, j < 8 → w.getLsbD j = if j = 7 - col then value.getLsbD (7 - r) else v.getLsbD j) ∧
      (∀ i, i < chip * 8 ∨ chip * 8 + 8 ≤ i → t.shadowByte i = s.shadowByte i) ∧ t.taken = none ∧ t.inputs = rest

/-- R141, R144: after `k` successful transactions SET_COLUMN presents the frame of row `k`, which carries the row's
new byte; rows 0 to `k` are updated in the shadow and the later ones are as they were, also after a failure. -/
def Obligations.SetColumnPartial : Prop :=
  ∀ (s : State) (chip col k : Nat) (value : Byte), s.Runs → chip < s.chips → col ≤ 7 → k ≤ 7 →
    let updated := fun (t : State) => ∀ i, t.shadowByte i =
      if chip * 8 ≤ i ∧ i ≤ chip * 8 + k then
        (s.shadowByte i).map fun v => cellUpdate v col (value.getLsbD (7 - (i - chip * 8)))
      else s.shadowByte i
    (s.inputs = okReplies k → ∃ t w, exec (.setColumn chip col value) s = .next t ∧
      t.shadowByte (chip * 8 + k) = some w ∧
      s.Presents t (encodeFrame s.chips chip (s.cfg.reg.addr (.digit k)) w) k ∧ s.Keeps t ∧ t.pix = s.pix ∧ updated t) ∧
    ∀ rest, s.inputs = okReplies k ++ failReply ++ rest → ∃ t, exec (.setColumn chip col value) s = .next t ∧
      t.Ended .transportFail k ∧ s.Keeps t ∧ t.pix = s.pix ∧ t.inputs = rest ∧ updated t

/-! DRAW -/

/-- 44_rasterizer.md R161: bit `7 - col` of the raster byte is the pixel of column `c*8 + col`, row `r`. -/
def Obligations.RasterByteBits : Prop :=
  ∀ (pix : Plane) (c r col : Nat), col ≤ 7 →
    (rasterByte pix c r).getLsbD (7 - col) = pix.getLsbD (r * 64 + c * 8 + col)

/-- R160, R165, 10_state.md R26: DRAW latches the plane and gives every shadow byte its raster byte; `8*N` frames. -/
def Obligations.DrawResult : Prop :=
  ∀ (s : State) (rest : List Input), s.Runs → s.inputs = okReplies (8 * s.chips) ++ rest →
    ∃ t, exec .draw s = .next t ∧ t.Ended .ok (8 * s.chips) ∧ s.Keeps t ∧ t.pix = s.pixIn ∧
      (∀ c r, c < s.chips → r ≤ 7 → t.shadowByte (c * 8 + r) = some (rasterByte s.pixIn c r)) ∧
      t.taken = none ∧ t.inputs = rest

/-- R162, R164: DRAW's `k`-th frame (from 0) is that of row `k div N` of chip `k mod N`; the shadow holds the new
bytes up to that one and the old bytes elsewhere, also when that transaction fails. -/
def Obligations.DrawPartial : Prop :=
  ∀ (s : State) (k : Nat), s.Runs → k < 8 * s.chips →
    let frame := encodeFrame s.chips (k % s.chips) (s.cfg.reg.addr (.digit (k / s.chips)))
      (rasterByte s.pixIn (k % s.chips) (k / s.chips))
    let updated := fun (t : State) => ∀ c r, c < s.chips → r ≤ 7 → t.shadowByte (c * 8 + r) =
      if r * s.chips + c ≤ k then some (rasterByte s.pixIn c r) else s.shadowByte (c * 8 + r)
    (s.inputs = okReplies k → ∃ t, exec .draw s = .next t ∧ s.Presents t frame k ∧ s.Keeps t ∧ t.pix = s.pixIn ∧
      updated t) ∧
    ∀ rest, s.inputs = okReplies k ++ failReply ++ rest → ∃ t, exec .draw s = .next t ∧
      t.Ended .transportFail k ∧ s.Keeps t ∧ t.pix = s.pixIn ∧ t.inputs = rest ∧ updated t

/-! Rules of the whole machine -/

/-- 45_chain_environment.md R174, R179 with 44_rasterizer.md R165: on a chain of `N` wired chips, after a DRAW that
ends OK every chip's row registers show the plane and equal the shadow. -/
def Obligations.DrawReachesTheChips : Prop :=
  ∀ (s : State) (rest : List Input), s.Runs → s.chain.agrees s.chips = true → s.cfg.reg.conforming = true →
    s.inputs = okReplies (8 * s.chips) ++ rest →
    ∃ t, exec .draw s = .next t ∧ t.lastStatus = .ok ∧ ∀ c r, c < s.chips → r ≤ 7 →
      t.chain.reg c (s.cfg.reg.addr (.digit r)) = rasterByte s.pixIn c r ∧
        t.shadowByte (c * 8 + r) = some (t.chain.reg c (s.cfg.reg.addr (.digit r)))

/-- R179, 70_reset_and_hazards.md R226: SET_ROW, SET_CELL, CLEAR, CLEAR_ALL, SET_ROW_ALL, SET_COLUMN and DRAW with valid
operands and every transaction succeeding, on a chain of `N` wired chips whatever its registers held: every row register
of the command's rows equals the shadow byte, and every other register of every chip is as it was. -/
def Obligations.RowRegisterMirrorsShadow : Prop :=
  ∀ (s : State) (i : Instr) (rest : List Input), s.Runs → s.chain.agrees s.chips = true →
    s.cfg.reg.conforming = true → rowsValid s.chips i = true →
    s.inputs = okReplies (rowsSent s.chips i).length ++ rest →
    ∃ t, exec i s = .next t ∧ t.lastStatus = .ok ∧ t.busy = false ∧
      (∀ p ∈ rowsSent s.chips i, t.rowMirrored p.1 p.2) ∧
      ∀ c a, c < s.chips → a ≠ regNop → (∀ r, (c, r) ∈ rowsSent s.chips i → a ≠ s.cfg.reg.addr (.digit r)) →
        t.chain.reg c a = s.chain.reg c a

/-- 70_reset_and_hazards.md R219, 41_lifecycle.md R103: after an INIT that ends OK on a chain of `N` wired chips, every
chip holds scan limit 7, the last byte of the display test pulse, and 0x00 in each row register, as the shadow does, and
every other register as before (R105). (A frame taken before a reset is replaced by INIT's first one: log 10.) -/
def Obligations.InitReachesTheChips : Prop :=
  ∀ (s : State) (req : Nat) (rest : List Input), s.Inv → s.cmdReady = true → s.life ≠ .ready →
    s.chain.agrees (effLen req) = true → s.cfg.reg.conforming = true → s.cfg.reg.scanLimit ≠ s.cfg.reg.displayTest →
    (∀ r, r ≤ 7 → s.cfg.reg.addr (.digit r) ≠ s.cfg.reg.scanLimit ∧
      s.cfg.reg.addr (.digit r) ≠ s.cfg.reg.displayTest) →
    s.inputs = okReplies ((s.cfg.dtPulse.length + 9) * effLen req) ++ rest →
    ∃ t, exec (.init req) s = .next t ∧ t.lastStatus = .ok ∧ t.chips = effLen req ∧ t.taken = none ∧
      t.chain.wired = some (effLen req) ∧ t.chain.miswired = s.chain.miswired ∧
      ∀ c, c < effLen req → t.chain.reg c s.cfg.reg.scanLimit = 0x07#8 ∧
        (∀ d, s.cfg.dtPulse.getLast? = some d → t.chain.reg c s.cfg.reg.displayTest = d) ∧
        (∀ r, r ≤ 7 → t.chain.reg c (s.cfg.reg.addr (.digit r)) = 0x00#8 ∧ t.rowMirrored c r) ∧
        ∀ a, a ≠ regNop → a ≠ s.cfg.reg.scanLimit → a ≠ s.cfg.reg.displayTest →
          (∀ r, r ≤ 7 → a ≠ s.cfg.reg.addr (.digit r)) → t.chain.reg c a = s.chain.reg c a

/-- R179, 20_memory.md R63: the shadow stays a mirror of the chips. If the inputs a step uses hold no failed completion,
or no command ends TRANSPORT_FAIL in it, and the chain is the one declared, then the step, whatever it handles, leaves
each row register equal to its shadow byte, but for the row whose frame is in flight and the rows a command still has to
clear; so with no command in flight all are equal. -/
def Obligations.MirrorPreserved : Prop :=
  ∀ s t : State, s.Inv → s.FramesOk → s.Mirrored → s.cfg.reg.conforming = true →
    (∀ r g, r ≤ 7 → g ∈ controlRegs → s.cfg.reg.addr (.digit r) ≠ s.cfg.reg.addr g) →
    s.rstN = true → step s = .next t → t.rstN = true → t.miswired = false →
    (∃ used, s.inputs = used ++ t.inputs ∧ .tx (.done false) ∉ used) ∨
      ¬ (s.rspValid = false ∧ t.rspValid = true ∧ t.lastStatus = .transportFail) →
    t.Mirrored ∧ (t.life = .ready → t.busy = false → t.taken = none ∧
      ∀ c r, c < t.chips → r ≤ 7 → t.rowMirrored c r)

/-- 20_memory.md R46, 40_frame_encoder.md R89, 43_pattern.md R131, R143, 44_rasterizer.md R160, 70_reset_and_hazards.md
R215: from a state that meets the invariant every step answers a next state that meets it. So no accessor and no
`Encode` is ever called out of range, and what is still to come of a command in flight addresses chips, rows and columns
that exist.
(The canonical form of `SH`, the chip register list and the two faults are the model's: logs 7, 8, 16; of the number of
chips wired, log 9.) -/
def Obligations.StepKeepsInvariant : Prop := ∀ s : State, s.Inv → ∃ t, step s = .next t ∧ t.Inv

/-- 45_chain_environment.md R181, 20_memory.md R57, 43_pattern.md R132: in every step, a frame in flight addresses one
register of one chip, a control register the LMDC may send or a row's digit register; then it carries the shadow byte
of that row, which was written before it. -/
def Obligations.FramesCarryTheShadow : Prop :=
  ∀ s t : State, s.Inv → s.FramesOk → step s = .next t → t.FramesOk

/-- 10_state.md R37: with a display test pulse of at most 22 frames the transactions of a command, done and to come,
never exceed the largest command's, so `CNT` never wraps. -/
def Obligations.CountNeverWraps : Prop :=
  ∀ s t : State, s.Inv → s.cfg.dtPulse.length ≤ 22 → s.countOk = true → step s = .next t → t.countOk = true

/-- R33, 70_reset_and_hazards.md R217: `FAULT` is cleared only by reset, and set only by a command that ends
USE_AFTER_RELEASE. 93_implementation_defined.md U14, 45_chain_environment.md R177: a transaction for another number of
chips than are wired makes the state faulted for good (log 9). No faulted state is a finished one. -/
def Obligations.FaultStickyUntilReset : Prop :=
  ∀ s t : State, step s = .next t →
    (s.rstN = true → s.faultFlag = true → t.rstN = true → t.faultFlag = true) ∧
    (s.rstN = true → s.faultFlag = false → t.faultFlag = true →
      s.life = .released ∧ t.lastStatus = .useAfterRelease) ∧
    (s.chain.miswired = true → t.chain.miswired = true) ∧
    (∀ f n ok rest, s.taken = some f → s.chain.wired = some n → f.length ≠ 2 * n →
      s.inputs = .tx (.done ok) :: rest → t.chain.miswired = true) ∧
    (t.faultFlag = true ∨ t.chain.miswired = true → t.faulted = true ∧ t.finished = false)

/-- R23, 41_lifecycle.md R101: while `LIFE` stays `READY` no step changes `N`. -/
def Obligations.LengthFixedWhileReady : Prop :=
  ∀ s t : State, s.rstN = true → step s = .next t → s.life = .ready → t.life = .ready → t.n = s.n

/-- R27, R28, R30, R32, 20_memory.md R58: out of reset `PIX` is written only by the acceptance of a DRAW; a response stays
until it is taken; with no command in flight and none accepted a step changes no `LIFE`, `N`, `SH`, `LAST_STATUS`,
`FAULT`, `CNT`, command or frame, and only its own event changes `rsp_valid`, `tx_valid` or the frame taken;
`LAST_STATUS` changes only when the command ends; and the chips change only by a report, of a frame that was taken. -/
def Obligations.OnlyCommandsChangeState : Prop :=
  ∀ s t : State, s.rstN = true → step s = .next t → t.rstN = true →
    (t.pix = s.pix ∨ ∃ w rest, s.inputs = .command w t.pix :: rest ∧ s.cmdReady = true ∧
      decodeWord w = some .draw) ∧
    (s.rspValid = true → t.rspValid = true ∨ s.inputs.head? = some .takeResponse) ∧
    (s.busy = false → (∀ w p rest, s.inputs = .command w p :: rest → s.cmdReady = false) →
      t.life = s.life ∧ t.n = s.n ∧ t.sh = s.sh ∧ t.lastStatus = s.lastStatus ∧ t.faultFlag = s.faultFlag ∧
        t.cnt = s.cnt ∧ t.busy = false ∧ t.seq = s.seq ∧ t.frame = s.frame ∧ t.inputs = s.inputs.tail ∧
        (t.rspValid = s.rspValid ∨ s.inputs.head? = some .takeResponse) ∧
        (t.txValid = s.txValid ∨ s.inputs.head? = some (.tx .issue)) ∧
        (t.taken = s.taken ∨ s.txValid = true ∧ s.inputs.head? = some (.tx .issue) ∨
          ∃ ok, s.inputs.head? = some (.tx (.done ok))) ∧
        (t.chain = s.chain ∨ ∃ ok f, s.inputs.head? = some (.tx (.done ok)) ∧ s.taken = some f ∧
          t.chain = s.chain.complete s.cfg.havocOnFail ok f)) ∧
    (t.busy = true → t.lastStatus = s.lastStatus) ∧
    ((∀ ok, .tx (.done ok) ∉ s.inputs) ∨ (s.taken = none ∧ .tx .issue ∉ s.inputs) → t.chain = s.chain)

/-- No step writes the parameters (R40; held in State, log 1), and none rewires a chain of a known number of chips (the
field is the model's, log 9). -/
def Obligations.ParametersFixed : Prop :=
  ∀ s t : State, step s = .next t → t.cfg = s.cfg ∧ (s.chain.wired = none ∨ t.chain.wired = s.chain.wired)

/-- 20_memory.md R59, 10_state.md R25: running a command in one step makes no difference to its events. With the inputs
cut in two, a command does with the first part what it can and goes on with the second, when it has used the first; a
later step that finds the command in flight goes on in the same way, and its own inputs may be cut likewise; and to go
on is to do nothing when no command is in flight or the next input is not the transport's. -/
def Obligations.CommandRunsEventByEvent : Prop :=
  (∀ (s : State) (i : Instr) (es fs : List Input), s.inputs = es ++ fs →
    exec i s = andThen (exec i (s.setInputs es)) fun t =>
      if t.inputs = [] then settle fs t else .next (t.setInputs (t.inputs ++ fs))) ∧
  (∀ (s : State) (e : TxEvent) (rest : List Input), s.rstN = true → s.busy = true → s.inputs = .tx e :: rest →
    step s = settle s.inputs s) ∧
  (∀ (s : State) (e : TxEvent) (es fs : List Input), s.rstN = true → s.busy = true →
    s.inputs = .tx e :: (es ++ fs) →
    step s = andThen (step (s.setInputs (.tx e :: es))) fun t =>
      if t.inputs = [] then settle fs t else .next (t.setInputs (t.inputs ++ fs))) ∧
  ∀ (s : State) (fs : List Input), s.busy = false ∨ (∀ e rest, fs ≠ .tx e :: rest) →
    settle fs s = .next (s.setInputs fs)
end

