-- ==== Sys2Proof/Laws/Encoding.lean ====
section
/-! SUPPORT. The bits and the fields of a packed command word. -/

set_option Elab.async false

namespace Sys2Proof

/-- Every bit of a packed word. -/
theorem packWord_bit (op : BitVec 4) (l : Bool) (a b : Nat) (c : Byte) (i : Nat) :
    (packWord op l a b c).getLsbD i =
      if i < 8 then c.getLsbD i
      else if i < 16 then (BitVec.ofNat 8 b).getLsbD (i - 8)
      else if i < 24 then (BitVec.ofNat 8 a).getLsbD (i - 16)
      else if i = 24 then l
      else if i < 28 then false
      else op.getLsbD (i - 28) := by
  unfold packWord
  simp only [BitVec.getLsbD_append, BitVec.getLsbD_ofBool]
  rw [show i - 8 - 8 = i - 16 by omega, show i - 16 - 8 = i - 24 by omega, show i - 24 - 1 = i - 25 by omega,
    show i - 25 - 3 = i - 28 by omega]
  rcases Nat.lt_or_ge i 8 with h1 | h1
  · simp [h1]
  rcases Nat.lt_or_ge i 16 with h2 | h2
  · simp [h2, show ¬ i < 8 by omega, show i - 8 < 8 by omega]
  rcases Nat.lt_or_ge i 24 with h3 | h3
  · simp [h3, show ¬ i < 8 by omega, show ¬ i < 16 by omega, show ¬ i - 8 < 8 by omega, show i - 16 < 8 by omega]
  have n1 : ¬ i < 8 := by omega
  have n2 : ¬ i < 16 := by omega
  have n3 : ¬ i < 24 := by omega
  have n4 : ¬ i - 8 < 8 := by omega
  have n5 : ¬ i - 16 < 8 := by omega
  rcases Nat.lt_trichotomy i 24 with h | rfl | h4
  · omega
  · simp
  have n6 : ¬ i - 24 < 1 := by omega
  rcases Nat.lt_or_ge i 28 with h5 | h5
  · simp [h5, n1, n2, n3, n4, n5, n6, show ¬ i = 24 by omega, show i - 25 < 3 by omega]
  · simp [n1, n2, n3, n4, n5, n6, show ¬ i = 24 by omega, show ¬ i < 28 by omega, show ¬ i - 25 < 3 by omega]

/-- The field `A` of a packed word. -/
theorem fieldA_packWord (op : BitVec 4) (l : Bool) (a b : Nat) (c : Byte) :
    fieldA (packWord op l a b c) = a % 256 := by
  have h : (packWord op l a b c).extractLsb' 16 8 = BitVec.ofNat 8 a := by
    apply BitVec.eq_of_getLsbD_eq
    intro i hi
    rw [BitVec.getLsbD_extractLsb', packWord_bit]
    simp [hi, show ¬ 16 + i < 8 by omega, show ¬ 16 + i < 16 by omega, show 16 + i < 24 by omega]
  simp [fieldA, h]

/-- The field `B` of a packed word. -/
theorem fieldB_packWord (op : BitVec 4) (l : Bool) (a b : Nat) (c : Byte) :
    fieldB (packWord op l a b c) = b % 256 := by
  have h : (packWord op l a b c).extractLsb' 8 8 = BitVec.ofNat 8 b := by
    apply BitVec.eq_of_getLsbD_eq
    intro i hi
    rw [BitVec.getLsbD_extractLsb', packWord_bit]
    simp [hi, show ¬ 8 + i < 8 by omega, show 8 + i < 16 by omega]
  simp [fieldB, h]

/-- The field `C` of a packed word. -/
theorem fieldC_packWord (op : BitVec 4) (l : Bool) (a b : Nat) (c : Byte) :
    fieldC (packWord op l a b c) = c := by
  apply BitVec.eq_of_getLsbD_eq
  intro i hi
  rw [fieldC, BitVec.getLsbD_extractLsb', packWord_bit]
  simp [hi]

/-- The field `L` of a packed word. -/
theorem fieldL_packWord (op : BitVec 4) (l : Bool) (a b : Nat) (c : Byte) :
    fieldL (packWord op l a b c) = l := by
  rw [fieldL, packWord_bit]
  simp

/-- The selector of a packed word. -/
theorem op_packWord (op : BitVec 4) (l : Bool) (a b : Nat) (c : Byte) :
    (packWord op l a b c).extractLsb' 28 4 = op := by
  apply BitVec.eq_of_getLsbD_eq
  intro i hi
  rw [BitVec.getLsbD_extractLsb', packWord_bit]
  simp [hi, show ¬ 28 + i < 8 by omega, show ¬ 28 + i < 16 by omega, show ¬ 28 + i < 24 by omega,
    show ¬ 28 + i = 24 by omega]

/-- The reserved bits `Z` of a packed word. -/
theorem z_packWord (op : BitVec 4) (l : Bool) (a b : Nat) (c : Byte) :
    (packWord op l a b c).extractLsb' 25 3 = 0#3 := by
  apply BitVec.eq_of_getLsbD_eq
  intro i hi
  rw [BitVec.getLsbD_extractLsb', packWord_bit]
  simp [show ¬ 25 + i < 8 by omega, show ¬ 25 + i < 16 by omega, show ¬ 25 + i < 24 by omega,
    show ¬ 25 + i = 24 by omega, show 25 + i < 28 by omega]

end Sys2Proof
end

