-- ==== Sys2Proof/Laws/Memory.lean ====
section
/-! SUPPORT. Lists of cells in rising order: read after write, and that every operation keeps the canonical form of
the shadow register file. -/

set_option Elab.async false

namespace Sys2Proof.Machine

@[simp] theorem Cells.lookup_nil (a : Nat) : Cells.lookup [] a = none := rfl

@[simp] theorem Cells.sorted_nil : Cells.sorted [] = true := rfl

/-- A sorted list's tail is sorted. -/
theorem Cells.sorted_tail {c : Host.Cell} {m : List Host.Cell} (h : Cells.sorted (c :: m) = true) :
    Cells.sorted m = true := by
  cases m with
  | nil => rfl
  | cons d m => simp only [Cells.sorted, Bool.and_eq_true] at h; exact h.2

/-- Every address after the first of a sorted list is above it. -/
theorem Cells.sorted_above {c : Host.Cell} {m : List Host.Cell} (h : Cells.sorted (c :: m) = true) :
    ∀ d ∈ m, c.1 < d.1 := by
  induction m generalizing c with
  | nil => simp
  | cons e m ih =>
    have hce : c.1 < e.1 := by simp only [Cells.sorted, Bool.and_eq_true, decide_eq_true_eq] at h; exact h.1
    intro d hd
    rcases List.mem_cons.mp hd with rfl | hd
    · exact hce
    · exact hce.trans (ih (Cells.sorted_tail h) d hd)

/-- A cell below a sorted list goes before it. -/
theorem Cells.sorted_cons {c : Host.Cell} {m : List Host.Cell} (hm : Cells.sorted m = true)
    (h : ∀ d ∈ m, c.1 < d.1) : Cells.sorted (c :: m) = true := by
  cases m with
  | nil => rfl
  | cons d m =>
    simp only [Cells.sorted, Bool.and_eq_true, decide_eq_true_eq]
    exact ⟨h d (by simp), hm⟩

/-- No address below a sorted list is in it. -/
theorem Cells.lookup_below {m : List Host.Cell} {a : Nat} (h : ∀ d ∈ m, a < d.1) : Cells.lookup m a = none := by
  induction m with
  | nil => rfl
  | cons c m ih =>
    have hc : c.1 ≠ a := (h c (by simp)).ne'
    simp only [Cells.lookup, if_neg hc]
    exact ih fun d hd => h d (by simp [hd])

/-- Reading after an insertion. -/
theorem Cells.lookup_insert (m : List Host.Cell) (a b : Nat) (v : Byte) :
    Cells.lookup (Cells.insert m a v) b = if a = b then some v else Cells.lookup m b := by
  induction m with
  | nil => simp [Cells.insert, Cells.lookup]
  | cons c m ih =>
    obtain ⟨k, w⟩ := c
    simp only [Cells.insert]
    by_cases h1 : a < k
    · simp [h1, Cells.lookup]
    · by_cases h2 : a = k
      · subst h2
        simp only [lt_self_iff_false, if_false, if_true, Cells.lookup]
        split <;> rfl
      · simp only [if_neg h1, if_neg h2, Cells.lookup, ih]
        by_cases h3 : k = b
        · have hab : a ≠ b := fun h => h2 (h.trans h3.symm)
          simp [h3, hab]
        · simp [h3]

/-- Reading after an erasure, in a sorted list. -/
theorem Cells.lookup_erase {m : List Host.Cell} (hm : Cells.sorted m = true) (a b : Nat) :
    Cells.lookup (Cells.erase m a) b = if a = b then none else Cells.lookup m b := by
  induction m with
  | nil => simp [Cells.erase]
  | cons c m ih =>
    have hab := Cells.sorted_above hm
    obtain ⟨k, w⟩ := c
    simp only [Cells.erase]
    by_cases h1 : k = a
    · subst h1
      by_cases h2 : k = b
      · subst h2
        simp only [if_true]
        exact Cells.lookup_below hab
      · simp [h2, Cells.lookup]
    · simp only [if_neg h1, Cells.lookup, ih (Cells.sorted_tail hm)]
      by_cases h3 : k = b
      · have : a ≠ b := fun h => h1 (h3.trans h.symm)
        simp [h3, this]
      · simp [h3]

/-- The addresses after an insertion. -/
theorem Cells.mem_insert {m : List Host.Cell} {a : Nat} {v : Byte} {d : Host.Cell}
    (h : d ∈ Cells.insert m a v) : d = (a, v) ∨ d ∈ m := by
  induction m with
  | nil => simpa [Cells.insert] using h
  | cons c m ih =>
    obtain ⟨k, w⟩ := c
    simp only [Cells.insert] at h
    split at h
    · rcases List.mem_cons.mp h with h | h
      · exact .inl h
      · exact .inr h
    · split at h
      · rcases List.mem_cons.mp h with h | h
        · exact .inl h
        · exact .inr (by simp [h])
      · rcases List.mem_cons.mp h with h | h
        · exact .inr (by simp [h])
        · rcases ih h with h | h
          · exact .inl h
          · exact .inr (by simp [h])

/-- The addresses after an erasure. -/
theorem Cells.mem_erase {m : List Host.Cell} {a : Nat} {d : Host.Cell} (h : d ∈ Cells.erase m a) : d ∈ m := by
  induction m with
  | nil => simp [Cells.erase] at h
  | cons c m ih =>
    obtain ⟨k, w⟩ := c
    simp only [Cells.erase] at h
    split at h
    · simp [h]
    · rcases List.mem_cons.mp h with h | h
      · simp [h]
      · simp [ih h]

/-- An insertion keeps the rising order. -/
theorem Cells.sorted_insert {m : List Host.Cell} (hm : Cells.sorted m = true) (a : Nat) (v : Byte) :
    Cells.sorted (Cells.insert m a v) = true := by
  induction m with
  | nil => rfl
  | cons c m ih =>
    have hab := Cells.sorted_above hm
    obtain ⟨k, w⟩ := c
    simp only [Cells.insert]
    split
    · rename_i h
      refine Cells.sorted_cons hm fun d hd => ?_
      rcases List.mem_cons.mp hd with rfl | hd
      · exact h
      · exact h.trans (hab d hd)
    · split
      · rename_i h
        subst h
        exact Cells.sorted_cons (Cells.sorted_tail hm) hab
      · rename_i h1 h2
        refine Cells.sorted_cons (ih (Cells.sorted_tail hm)) fun d hd => ?_
        rcases Cells.mem_insert hd with rfl | hd
        · exact lt_of_le_of_ne (Nat.le_of_not_lt h1) (Ne.symm h2)
        · exact hab d hd

/-- An erasure keeps the rising order. -/
theorem Cells.sorted_erase {m : List Host.Cell} (hm : Cells.sorted m = true) (a : Nat) :
    Cells.sorted (Cells.erase m a) = true := by
  induction m with
  | nil => rfl
  | cons c m ih =>
    have hab := Cells.sorted_above hm
    obtain ⟨k, w⟩ := c
    simp only [Cells.erase]
    split
    · exact Cells.sorted_tail hm
    · exact Cells.sorted_cons (ih (Cells.sorted_tail hm)) fun d hd => hab d (Cells.mem_erase hd)

@[simp] theorem Memory.read_cleared (a : Nat) : Memory.read Memory.cleared a = Memory.fill := rfl

@[simp] theorem Memory.wf_cleared : Memory.wf Memory.cleared = true := rfl

/-- The canonical form in words. -/
theorem Memory.wf_iff (m : Memory) :
    m.wf = true ↔ Cells.sorted m = true ∧ ∀ c ∈ m, c.2 ≠ Memory.fill := by
  simp [Memory.wf, List.all_eq_true]

/-- Reading one byte after writing one. -/
theorem Memory.read_write {m : Memory} (hm : m.wf = true) (a b : Nat) (v : Byte) :
    Memory.read (Memory.write m a v) b = if a = b then v else Memory.read m b := by
  have hs := ((Memory.wf_iff m).mp hm).1
  unfold Memory.read Memory.write
  by_cases hv : v = Memory.fill
  · simp only [if_pos hv, Cells.lookup_erase hs]
    split
    · simp [hv]
    · rfl
  · simp only [if_neg hv, Cells.lookup_insert]
    split <;> rfl

/-- A write keeps the canonical form. -/
theorem Memory.wf_write {m : Memory} (hm : m.wf = true) (a : Nat) (v : Byte) : (Memory.write m a v).wf = true := by
  obtain ⟨hs, hz⟩ := (Memory.wf_iff m).mp hm
  refine (Memory.wf_iff _).mpr ?_
  unfold Memory.write
  split
  · exact ⟨Cells.sorted_erase hs a, fun c hc => hz c (Cells.mem_erase hc)⟩
  · rename_i hv
    refine ⟨Cells.sorted_insert hs a v, fun c hc => ?_⟩
    rcases Cells.mem_insert hc with rfl | hc
    · exact hv
    · exact hz c hc

/-- The addresses a write can list. -/
theorem Memory.mem_write {m : Memory} {a : Nat} {v : Byte} {c : Host.Cell} (h : c ∈ Memory.write m a v) :
    c = (a, v) ∨ c ∈ m := by
  unfold Memory.write at h
  split at h
  · exact .inr (Cells.mem_erase h)
  · exact Cells.mem_insert h

end Sys2Proof.Machine
end

