-- ==== Sys2Proof/Laws/Frame.lean ====
section
/-! SUPPORT. What a frame carries, and what its latching does to the chips' registers. -/

set_option Elab.async false

namespace Sys2Proof.Machine

/-- A frame is built exactly for a chip of the chain. -/
theorem encodeFrame_isSome (n t : Nat) (op d : Byte) : (encodeFrame n t op d).isSome = decide (t < n) := by
  unfold encodeFrame
  split <;> simp_all

/-- A frame has two bytes for each chip. -/
theorem encodeFrame_length {n t : Nat} {op d : Byte} {f : Frame} (h : encodeFrame n t op d = some f) :
    f.length = 2 * n := by
  unfold encodeFrame at h
  split at h
  · obtain rfl := Option.some.inj h
    simp
  · cases h

/-- The bytes of a frame: the target's pair at its offset, 0x00 elsewhere. -/
theorem encodeFrame_getD {n t : Nat} {op d : Byte} {f : Frame} (h : encodeFrame n t op d = some f) (i : Nat) :
    f.getD i 0#8 = if i = wireOffset n t + 1 then d else if i = wireOffset n t then op else 0#8 := by
  unfold encodeFrame at h
  split at h
  · rename_i ht
    obtain rfl := Option.some.inj h
    have ho : wireOffset n t + 1 < 2 * n := by unfold wireOffset; omega
    simp only [List.getD_eq_getElem?_getD, List.getElem?_set, List.length_set, List.length_replicate]
    by_cases h1 : wireOffset n t + 1 = i
    · subst h1; simp [ho]
    · by_cases h2 : wireOffset n t = i
      · subst h2; simp [show wireOffset n t < 2 * n by omega]
      · rw [if_neg h1, if_neg h2, if_neg (Ne.symm h1), if_neg (Ne.symm h2), List.getElem?_replicate]
        split <;> rfl
  · cases h

/-- The pair that a frame routes to a chip: the target's own, and NOP to every other chip. -/
theorem routedPair_encodeFrame {n t c : Nat} {op d : Byte} {f : Frame} (h : encodeFrame n t op d = some f)
    (ht : t < n) (hc : c < n) : routedPair n c f = if c = t then (op, d) else (0#8, 0#8) := by
  unfold routedPair
  simp only [encodeFrame_getD h, wireOffset]
  by_cases hct : c = t
  · subst hct
    have h2 : 2 * (n - 1 - c) = (n - c - 1) * 2 := by omega
    simp [h2]
  · have h1 : 2 * (n - 1 - c) + 1 ≠ (n - t - 1) * 2 + 1 := by omega
    have h2 : 2 * (n - 1 - c) + 1 ≠ (n - t - 1) * 2 := by omega
    have h3 : 2 * (n - 1 - c) ≠ (n - t - 1) * 2 + 1 := by omega
    have h4 : 2 * (n - 1 - c) ≠ (n - t - 1) * 2 := by omega
    simp [h2, h3, h4, hct]

/-- A key names one register of one chip. -/
theorem cregKey_inj {c c' : Nat} {a a' : Byte} : cregKey c a = cregKey c' a' ↔ c = c' ∧ a = a' := by
  unfold cregKey
  constructor
  · intro h
    have h1 := a.isLt
    have h2 := a'.isLt
    have : c = c' := by omega
    subst this
    exact ⟨rfl, BitVec.eq_of_toNat_eq (by omega)⟩
  · rintro ⟨rfl, rfl⟩; rfl

/-- What the latching of the first `k` chips leaves in a register. -/
theorem lookup_latchChips (v : Nat → Byte → Byte → Byte) (n : Nat) (f : Frame) (k : Nat) (regs : List Host.Cell)
    (c : Nat) (a : Byte) :
    Cells.lookup (latchChips v n f k regs) (cregKey c a) =
      if c < k ∧ (routedPair n c f).1 = a ∧ a ≠ regNop then some (v c a (routedPair n c f).2)
      else Cells.lookup regs (cregKey c a) := by
  induction k with
  | zero => simp [latchChips]
  | succ k ih =>
    simp only [latchChips, latchChip]
    by_cases hk : (routedPair n k f).1 = regNop
    · rw [if_pos hk, ih]
      by_cases hc : c = k
      · subst hc
        have : ¬ ((routedPair n c f).1 = a ∧ a ≠ regNop) := by
          rintro ⟨h1, h2⟩; exact h2 (h1.symm.trans hk)
        simp [this]
      · have : (c < k + 1) ↔ (c < k) := by omega
        simp [this]
    · rw [if_neg hk, Cells.lookup_insert, ih]
      by_cases hc : c = k
      · subst hc
        by_cases ha : (routedPair n c f).1 = a
        · have : a ≠ regNop := fun h => hk (ha.trans h)
          simp [ha, this]
        · have : ¬ cregKey c (routedPair n c f).1 = cregKey c a := fun h => ha (cregKey_inj.mp h).2
          simp [ha, this]
      · have h1 : ¬ cregKey k (routedPair n k f).1 = cregKey c a := fun h => hc (cregKey_inj.mp h).1.symm
        have h2 : (c < k + 1) ↔ (c < k) := by omega
        simp [h1, h2]

/-- Latching keeps the known registers in order. -/
theorem sorted_latchChips (v : Nat → Byte → Byte → Byte) (n : Nat) (f : Frame) (k : Nat) {regs : List Host.Cell}
    (h : Cells.sorted regs = true) : Cells.sorted (latchChips v n f k regs) = true := by
  induction k with
  | zero => exact h
  | succ k ih =>
    simp only [latchChips, latchChip]
    split
    · exact ih
    · exact Cells.sorted_insert ih _ _

/-- Latching lists only registers of the chips it goes over. -/
theorem mem_latchChips {v : Nat → Byte → Byte → Byte} {n : Nat} {f : Frame} {k : Nat} {regs : List Host.Cell}
    {d : Host.Cell} (h : d ∈ latchChips v n f k regs) : d ∈ regs ∨ d.1 < 256 * k := by
  induction k with
  | zero => exact .inl h
  | succ k ih =>
    have weaken : d ∈ latchChips v n f k regs → d ∈ regs ∨ d.1 < 256 * (k + 1) := fun h =>
      (ih h).imp_right fun h => by omega
    simp only [latchChips, latchChip] at h
    split at h
    · exact weaken h
    · rcases Cells.mem_insert h with rfl | h
      · refine .inr ?_
        have := (routedPair n k f).1.isLt
        simp only [cregKey]
        omega
      · exact weaken h

/-- What a transaction leaves in a register when its frame fits the chain: nothing but the addressed registers
changes. -/
theorem latch_reg {h : Chain} {f : Frame} (hf : h.fits f = true) {c : Nat} (hc : c < h.size f) (a : Byte) :
    (h.latch f).reg c a =
      if (routedPair (h.size f) c f).1 = a ∧ a ≠ regNop then (routedPair (h.size f) c f).2 else h.reg c a := by
  unfold Chain.latch Chain.reg
  rw [if_pos hf, lookup_latchChips]
  simp only [hc, true_and]
  split <;> rfl

/-- A frame for `n` chips meets `n` chips of a chain that agrees with `n`. -/
theorem size_of_agrees {h : Chain} {n : Nat} {f : Frame} (ha : h.agrees n = true) (hf : f.length = 2 * n) :
    h.size f = n := by
  unfold Chain.agrees at ha
  unfold Chain.size
  cases hw : h.wired with
  | none => simp [hf]
  | some w => simpa [hw] using ha

/-- A frame for `n` chips fits a chain that agrees with `n`. -/
theorem fits_of_agrees {h : Chain} {n : Nat} {f : Frame} (ha : h.agrees n = true) (hf : f.length = 2 * n) :
    h.fits f = true := by
  simp [Chain.fits, size_of_agrees ha hf, hf]

/-- A frame fits a chain of `n` known chips exactly when it is for `n` chips. -/
theorem fits_iff {h : Chain} {n : Nat} (hw : h.wired = some n) (f : Frame) : h.fits f = true ↔ f.length = 2 * n := by
  simp [Chain.fits, Chain.size, hw]

/-- The end of a transaction whose frame fits fixes how many chips are wired, and is no fault of the wiring. -/
theorem complete_of_fits {h : Chain} {f : Frame} (hf : h.fits f = true) (havoc ok : Bool) :
    (h.complete havoc ok f).wired = some (h.size f) ∧ (h.complete havoc ok f).miswired = h.miswired := by
  cases ok <;> cases havoc <;> simp [Chain.complete, Chain.latch, Chain.fail, Chain.havoc, hf]

/-- The end of a transaction whose frame does not fit is a fault of the wiring, which stays as it is. -/
theorem complete_of_not_fits {h : Chain} {f : Frame} (hf : h.fits f = false) (havoc ok : Bool) :
    h.complete havoc ok f = h.misroute := by
  cases ok <;> simp [Chain.complete, Chain.latch, Chain.fail, hf]

/-- Once it is known how many chips are wired no transaction rewires the chain. -/
theorem complete_wired {h : Chain} {n : Nat} (hw : h.wired = some n) (havoc ok : Bool) (f : Frame) :
    (h.complete havoc ok f).wired = some n := by
  cases hf : h.fits f with
  | true => simp [(complete_of_fits hf havoc ok).1, Chain.size, hw]
  | false => simp [complete_of_not_fits hf, Chain.misroute, Chain.havoc, hw]

/-- A fault of the wiring stays. -/
theorem complete_miswired {h : Chain} (hm : h.miswired = true) (havoc ok : Bool) (f : Frame) :
    (h.complete havoc ok f).miswired = true := by
  cases hf : h.fits f with
  | true => exact (complete_of_fits hf havoc ok).2.trans hm
  | false => simp [complete_of_not_fits hf, Chain.misroute]

/-- After a failed transaction with `HAVOC_ON_FAIL` every register holds a value of a new draw (45 R176). -/
theorem fail_reg_havoc {h : Chain} {f : Frame} (c : Nat) (a : Byte) :
    (h.fail true f).reg c a = Config.freeReg h.draws c a.toNat := by
  unfold Chain.fail
  split <;> rfl

/-- After one without it, the addressed register does and the others are as they were (45 R176). -/
theorem fail_reg_target {h : Chain} {f : Frame} (hf : h.fits f = true) {c : Nat} (hc : c < h.size f) (a : Byte) :
    (h.fail false f).reg c a =
      if (routedPair (h.size f) c f).1 = a ∧ a ≠ regNop then Config.freeReg h.draws c a.toNat else h.reg c a := by
  unfold Chain.fail Chain.reg
  rw [if_pos hf, if_neg Bool.false_ne_true, lookup_latchChips]
  simp only [hc, true_and]
  split <;> rfl

end Sys2Proof.Machine
end

