-- ==== Sys2Proof/Laws/PerInstr.lean ====
section
/-! SUPPORT. Statements per command: the selector of each command's word (spec/30_encoding.md R67) and its reserved
bits `Z` (R66). -/

set_option Elab.async false

namespace Sys2Proof.Laws.Selector

/-- The `OP` number of R67. -/
def number : Instr → BitVec 4
  | .init _ => 0x1#4
  | .setPower _ _ => 0x2#4
  | .setScanLimit _ _ => 0x3#4
  | .setIntensity _ _ => 0x4#4
  | .clear _ => 0x5#4
  | .clearAll => 0x6#4
  | .setCell _ _ _ _ => 0x7#4
  | .setRow _ _ _ => 0x8#4
  | .setRowAll _ _ => 0x9#4
  | .setColumn _ _ _ => 0xA#4
  | .draw => 0xB#4
  | .release => 0xC#4

/-- The command's word has its number in `OP` and 0 in `Z`. -/
def Statement (i : Instr) : Prop :=
  (encode i).extractLsb' 28 4 = number i ∧ (encode i).extractLsb' 25 3 = 0#3

theorem init (req : Nat) : Statement (.init req) := ⟨op_packWord .., z_packWord ..⟩
theorem setPower (chip : Nat) (on : Bool) : Statement (.setPower chip on) := ⟨op_packWord .., z_packWord ..⟩
theorem setScanLimit (chip : Nat) (limit : Byte) : Statement (.setScanLimit chip limit) :=
  ⟨op_packWord .., z_packWord ..⟩
theorem setIntensity (chip : Nat) (level : Byte) : Statement (.setIntensity chip level) :=
  ⟨op_packWord .., z_packWord ..⟩
theorem clear (chip : Nat) : Statement (.clear chip) := ⟨op_packWord .., z_packWord ..⟩
theorem clearAll : Statement .clearAll := ⟨op_packWord .., z_packWord ..⟩
theorem setCell (chip row col : Nat) (lit : Bool) : Statement (.setCell chip row col lit) :=
  ⟨op_packWord .., z_packWord ..⟩
theorem setRow (chip row : Nat) (value : Byte) : Statement (.setRow chip row value) :=
  ⟨op_packWord .., z_packWord ..⟩
theorem setRowAll (row : Nat) (value : Byte) : Statement (.setRowAll row value) := ⟨op_packWord .., z_packWord ..⟩
theorem setColumn (chip col : Nat) (value : Byte) : Statement (.setColumn chip col value) :=
  ⟨op_packWord .., z_packWord ..⟩
theorem draw : Statement .draw := ⟨op_packWord .., z_packWord ..⟩
theorem release : Statement .release := ⟨op_packWord .., z_packWord ..⟩

end Sys2Proof.Laws.Selector
end

