-- ==== Sys2Proof/Laws/State.lean ====
section
/-! SUPPORT. One lemma per field for each operation on the state that is a record update, so that no proof unfolds one. -/

set_option Elab.async false

namespace Sys2Proof.Machine

@[simp] theorem accept_cfg (i : Instr) (s : State) : (accept i s).cfg = s.cfg := rfl
@[simp] theorem accept_life (i : Instr) (s : State) : (accept i s).life = s.life := rfl
@[simp] theorem accept_n (i : Instr) (s : State) : (accept i s).n = s.n := rfl
@[simp] theorem accept_sh (i : Instr) (s : State) : (accept i s).sh = s.sh := rfl
@[simp] theorem accept_busy (i : Instr) (s : State) : (accept i s).busy = true := rfl
@[simp] theorem accept_seq (i : Instr) (s : State) : (accept i s).seq = some ⟨i, []⟩ := rfl
@[simp] theorem accept_frame (i : Instr) (s : State) : (accept i s).frame = s.frame := rfl
@[simp] theorem accept_txValid (i : Instr) (s : State) : (accept i s).txValid = s.txValid := rfl
@[simp] theorem accept_pix (i : Instr) (s : State) : (accept i s).pix = (if i = .draw then s.pixIn else s.pix) := rfl
@[simp] theorem accept_cnt (i : Instr) (s : State) : (accept i s).cnt = 0#8 := rfl
@[simp] theorem accept_lastStatus (i : Instr) (s : State) : (accept i s).lastStatus = s.lastStatus := rfl
@[simp] theorem accept_faultFlag (i : Instr) (s : State) : (accept i s).faultFlag = s.faultFlag := rfl
@[simp] theorem accept_rspValid (i : Instr) (s : State) : (accept i s).rspValid = s.rspValid := rfl
@[simp] theorem accept_rstN (i : Instr) (s : State) : (accept i s).rstN = s.rstN := rfl
@[simp] theorem accept_pixIn (i : Instr) (s : State) : (accept i s).pixIn = s.pixIn := rfl
@[simp] theorem accept_inputs (i : Instr) (s : State) : (accept i s).inputs = s.inputs := rfl
@[simp] theorem accept_taken (i : Instr) (s : State) : (accept i s).taken = s.taken := rfl
@[simp] theorem accept_chain (i : Instr) (s : State) : (accept i s).chain = s.chain := rfl

@[simp] theorem finish_cfg (st : Status) (s : State) : (finish st s).cfg = s.cfg := rfl
@[simp] theorem finish_life (st : Status) (s : State) : (finish st s).life = s.life := rfl
@[simp] theorem finish_n (st : Status) (s : State) : (finish st s).n = s.n := rfl
@[simp] theorem finish_sh (st : Status) (s : State) : (finish st s).sh = s.sh := rfl
@[simp] theorem finish_busy (st : Status) (s : State) : (finish st s).busy = false := rfl
@[simp] theorem finish_seq (st : Status) (s : State) : (finish st s).seq = none := rfl
@[simp] theorem finish_frame (st : Status) (s : State) : (finish st s).frame = s.frame := rfl
@[simp] theorem finish_txValid (st : Status) (s : State) : (finish st s).txValid = s.txValid := rfl
@[simp] theorem finish_pix (st : Status) (s : State) : (finish st s).pix = s.pix := rfl
@[simp] theorem finish_cnt (st : Status) (s : State) : (finish st s).cnt = s.cnt := rfl
@[simp] theorem finish_lastStatus (st : Status) (s : State) : (finish st s).lastStatus = st := rfl
@[simp] theorem finish_faultFlag (st : Status) (s : State) : (finish st s).faultFlag = s.faultFlag := rfl
@[simp] theorem finish_rspValid (st : Status) (s : State) : (finish st s).rspValid = true := rfl
@[simp] theorem finish_rstN (st : Status) (s : State) : (finish st s).rstN = s.rstN := rfl
@[simp] theorem finish_pixIn (st : Status) (s : State) : (finish st s).pixIn = s.pixIn := rfl
@[simp] theorem finish_inputs (st : Status) (s : State) : (finish st s).inputs = s.inputs := rfl
@[simp] theorem finish_taken (st : Status) (s : State) : (finish st s).taken = s.taken := rfl
@[simp] theorem finish_chain (st : Status) (s : State) : (finish st s).chain = s.chain := rfl

@[simp] theorem undoInit_cfg (s : State) : (undoInit s).cfg = s.cfg := rfl
@[simp] theorem undoInit_life (s : State) : (undoInit s).life = .uninit := rfl
@[simp] theorem undoInit_n (s : State) : (undoInit s).n = 0#4 := rfl
@[simp] theorem undoInit_sh (s : State) : (undoInit s).sh = none := rfl
@[simp] theorem undoInit_busy (s : State) : (undoInit s).busy = s.busy := rfl
@[simp] theorem undoInit_seq (s : State) : (undoInit s).seq = s.seq := rfl
@[simp] theorem undoInit_frame (s : State) : (undoInit s).frame = s.frame := rfl
@[simp] theorem undoInit_txValid (s : State) : (undoInit s).txValid = s.txValid := rfl
@[simp] theorem undoInit_pix (s : State) : (undoInit s).pix = s.pix := rfl
@[simp] theorem undoInit_cnt (s : State) : (undoInit s).cnt = s.cnt := rfl
@[simp] theorem undoInit_lastStatus (s : State) : (undoInit s).lastStatus = s.lastStatus := rfl
@[simp] theorem undoInit_faultFlag (s : State) : (undoInit s).faultFlag = s.faultFlag := rfl
@[simp] theorem undoInit_rspValid (s : State) : (undoInit s).rspValid = s.rspValid := rfl
@[simp] theorem undoInit_rstN (s : State) : (undoInit s).rstN = s.rstN := rfl
@[simp] theorem undoInit_pixIn (s : State) : (undoInit s).pixIn = s.pixIn := rfl
@[simp] theorem undoInit_inputs (s : State) : (undoInit s).inputs = s.inputs := rfl
@[simp] theorem undoInit_taken (s : State) : (undoInit s).taken = s.taken := rfl
@[simp] theorem undoInit_chain (s : State) : (undoInit s).chain = s.chain := rfl

@[simp] theorem beginLife_cfg (k : Nat) (s : State) : (beginLife k s).cfg = s.cfg := rfl
@[simp] theorem beginLife_life (k : Nat) (s : State) : (beginLife k s).life = .ready := rfl
@[simp] theorem beginLife_n (k : Nat) (s : State) : (beginLife k s).n = BitVec.ofNat 4 k := rfl
@[simp] theorem beginLife_sh (k : Nat) (s : State) : (beginLife k s).sh = some Memory.cleared := rfl
@[simp] theorem beginLife_busy (k : Nat) (s : State) : (beginLife k s).busy = s.busy := rfl
@[simp] theorem beginLife_seq (k : Nat) (s : State) : (beginLife k s).seq = s.seq := rfl
@[simp] theorem beginLife_frame (k : Nat) (s : State) : (beginLife k s).frame = s.frame := rfl
@[simp] theorem beginLife_txValid (k : Nat) (s : State) : (beginLife k s).txValid = s.txValid := rfl
@[simp] theorem beginLife_pix (k : Nat) (s : State) : (beginLife k s).pix = s.pix := rfl
@[simp] theorem beginLife_cnt (k : Nat) (s : State) : (beginLife k s).cnt = s.cnt := rfl
@[simp] theorem beginLife_lastStatus (k : Nat) (s : State) : (beginLife k s).lastStatus = s.lastStatus := rfl
@[simp] theorem beginLife_faultFlag (k : Nat) (s : State) : (beginLife k s).faultFlag = s.faultFlag := rfl
@[simp] theorem beginLife_rspValid (k : Nat) (s : State) : (beginLife k s).rspValid = s.rspValid := rfl
@[simp] theorem beginLife_rstN (k : Nat) (s : State) : (beginLife k s).rstN = s.rstN := rfl
@[simp] theorem beginLife_pixIn (k : Nat) (s : State) : (beginLife k s).pixIn = s.pixIn := rfl
@[simp] theorem beginLife_inputs (k : Nat) (s : State) : (beginLife k s).inputs = s.inputs := rfl
@[simp] theorem beginLife_taken (k : Nat) (s : State) : (beginLife k s).taken = s.taken := rfl
@[simp] theorem beginLife_chain (k : Nat) (s : State) : (beginLife k s).chain = s.chain := rfl

@[simp] theorem resetLmdc_cfg (s : State) : (resetLmdc s).cfg = s.cfg := rfl
@[simp] theorem resetLmdc_life (s : State) : (resetLmdc s).life = .uninit := rfl
@[simp] theorem resetLmdc_n (s : State) : (resetLmdc s).n = 0#4 := rfl
@[simp] theorem resetLmdc_sh (s : State) : (resetLmdc s).sh = none := rfl
@[simp] theorem resetLmdc_busy (s : State) : (resetLmdc s).busy = false := rfl
@[simp] theorem resetLmdc_seq (s : State) : (resetLmdc s).seq = none := rfl
@[simp] theorem resetLmdc_frame (s : State) : (resetLmdc s).frame = none := rfl
@[simp] theorem resetLmdc_txValid (s : State) : (resetLmdc s).txValid = false := rfl
@[simp] theorem resetLmdc_pix (s : State) : (resetLmdc s).pix = 0#512 := rfl
@[simp] theorem resetLmdc_cnt (s : State) : (resetLmdc s).cnt = 0#8 := rfl
@[simp] theorem resetLmdc_lastStatus (s : State) : (resetLmdc s).lastStatus = .ok := rfl
@[simp] theorem resetLmdc_faultFlag (s : State) : (resetLmdc s).faultFlag = false := rfl
@[simp] theorem resetLmdc_rspValid (s : State) : (resetLmdc s).rspValid = false := rfl
@[simp] theorem resetLmdc_rstN (s : State) : (resetLmdc s).rstN = s.rstN := rfl
@[simp] theorem resetLmdc_pixIn (s : State) : (resetLmdc s).pixIn = s.pixIn := rfl
@[simp] theorem resetLmdc_inputs (s : State) : (resetLmdc s).inputs = s.inputs := rfl
@[simp] theorem resetLmdc_taken (s : State) : (resetLmdc s).taken = s.taken := rfl
@[simp] theorem resetLmdc_chain (s : State) : (resetLmdc s).chain = s.chain := rfl

@[simp] theorem setInputs_cfg (es : List Input) (s : State) : (s.setInputs es).cfg = s.cfg := rfl
@[simp] theorem setInputs_life (es : List Input) (s : State) : (s.setInputs es).life = s.life := rfl
@[simp] theorem setInputs_n (es : List Input) (s : State) : (s.setInputs es).n = s.n := rfl
@[simp] theorem setInputs_sh (es : List Input) (s : State) : (s.setInputs es).sh = s.sh := rfl
@[simp] theorem setInputs_busy (es : List Input) (s : State) : (s.setInputs es).busy = s.busy := rfl
@[simp] theorem setInputs_seq (es : List Input) (s : State) : (s.setInputs es).seq = s.seq := rfl
@[simp] theorem setInputs_frame (es : List Input) (s : State) : (s.setInputs es).frame = s.frame := rfl
@[simp] theorem setInputs_txValid (es : List Input) (s : State) : (s.setInputs es).txValid = s.txValid := rfl
@[simp] theorem setInputs_pix (es : List Input) (s : State) : (s.setInputs es).pix = s.pix := rfl
@[simp] theorem setInputs_cnt (es : List Input) (s : State) : (s.setInputs es).cnt = s.cnt := rfl
@[simp] theorem setInputs_lastStatus (es : List Input) (s : State) : (s.setInputs es).lastStatus = s.lastStatus := rfl
@[simp] theorem setInputs_faultFlag (es : List Input) (s : State) : (s.setInputs es).faultFlag = s.faultFlag := rfl
@[simp] theorem setInputs_rspValid (es : List Input) (s : State) : (s.setInputs es).rspValid = s.rspValid := rfl
@[simp] theorem setInputs_rstN (es : List Input) (s : State) : (s.setInputs es).rstN = s.rstN := rfl
@[simp] theorem setInputs_pixIn (es : List Input) (s : State) : (s.setInputs es).pixIn = s.pixIn := rfl
@[simp] theorem setInputs_inputs (es : List Input) (s : State) : (s.setInputs es).inputs = es := rfl
@[simp] theorem setInputs_taken (es : List Input) (s : State) : (s.setInputs es).taken = s.taken := rfl
@[simp] theorem setInputs_chain (es : List Input) (s : State) : (s.setInputs es).chain = s.chain := rfl

@[simp] theorem onTakeResponse_cfg (s : State) : (onTakeResponse s).cfg = s.cfg := rfl
@[simp] theorem onTakeResponse_life (s : State) : (onTakeResponse s).life = s.life := rfl
@[simp] theorem onTakeResponse_n (s : State) : (onTakeResponse s).n = s.n := rfl
@[simp] theorem onTakeResponse_sh (s : State) : (onTakeResponse s).sh = s.sh := rfl
@[simp] theorem onTakeResponse_busy (s : State) : (onTakeResponse s).busy = s.busy := rfl
@[simp] theorem onTakeResponse_seq (s : State) : (onTakeResponse s).seq = s.seq := rfl
@[simp] theorem onTakeResponse_frame (s : State) : (onTakeResponse s).frame = s.frame := rfl
@[simp] theorem onTakeResponse_txValid (s : State) : (onTakeResponse s).txValid = s.txValid := rfl
@[simp] theorem onTakeResponse_pix (s : State) : (onTakeResponse s).pix = s.pix := rfl
@[simp] theorem onTakeResponse_cnt (s : State) : (onTakeResponse s).cnt = s.cnt := rfl
@[simp] theorem onTakeResponse_lastStatus (s : State) : (onTakeResponse s).lastStatus = s.lastStatus := rfl
@[simp] theorem onTakeResponse_faultFlag (s : State) : (onTakeResponse s).faultFlag = s.faultFlag := rfl
@[simp] theorem onTakeResponse_rspValid (s : State) : (onTakeResponse s).rspValid = false := rfl
@[simp] theorem onTakeResponse_rstN (s : State) : (onTakeResponse s).rstN = s.rstN := rfl
@[simp] theorem onTakeResponse_pixIn (s : State) : (onTakeResponse s).pixIn = s.pixIn := rfl
@[simp] theorem onTakeResponse_inputs (s : State) : (onTakeResponse s).inputs = s.inputs := rfl
@[simp] theorem onTakeResponse_taken (s : State) : (onTakeResponse s).taken = s.taken := rfl
@[simp] theorem onTakeResponse_chain (s : State) : (onTakeResponse s).chain = s.chain := rfl

@[simp] theorem portReady_cfg (s : State) : (portReady s).cfg = s.cfg := rfl
@[simp] theorem portReady_life (s : State) : (portReady s).life = s.life := rfl
@[simp] theorem portReady_n (s : State) : (portReady s).n = s.n := rfl
@[simp] theorem portReady_sh (s : State) : (portReady s).sh = s.sh := rfl
@[simp] theorem portReady_busy (s : State) : (portReady s).busy = false := rfl
@[simp] theorem portReady_seq (s : State) : (portReady s).seq = none := rfl
@[simp] theorem portReady_frame (s : State) : (portReady s).frame = none := rfl
@[simp] theorem portReady_txValid (s : State) : (portReady s).txValid = false := rfl
@[simp] theorem portReady_pix (s : State) : (portReady s).pix = s.pix := rfl
@[simp] theorem portReady_cnt (s : State) : (portReady s).cnt = s.cnt := rfl
@[simp] theorem portReady_lastStatus (s : State) : (portReady s).lastStatus = s.lastStatus := rfl
@[simp] theorem portReady_faultFlag (s : State) : (portReady s).faultFlag = s.faultFlag := rfl
@[simp] theorem portReady_rspValid (s : State) : (portReady s).rspValid = false := rfl
@[simp] theorem portReady_rstN (s : State) : (portReady s).rstN = true := rfl
@[simp] theorem portReady_pixIn (s : State) : (portReady s).pixIn = s.pixIn := rfl
@[simp] theorem portReady_inputs (s : State) : (portReady s).inputs = s.inputs := rfl
@[simp] theorem portReady_taken (s : State) : (portReady s).taken = s.taken := rfl
@[simp] theorem portReady_chain (s : State) : (portReady s).chain = s.chain := rfl

@[simp] theorem completeTaken_cfg (ok : Bool) (s : State) : (completeTaken ok s).cfg = s.cfg := rfl
@[simp] theorem completeTaken_life (ok : Bool) (s : State) : (completeTaken ok s).life = s.life := rfl
@[simp] theorem completeTaken_n (ok : Bool) (s : State) : (completeTaken ok s).n = s.n := rfl
@[simp] theorem completeTaken_sh (ok : Bool) (s : State) : (completeTaken ok s).sh = s.sh := rfl
@[simp] theorem completeTaken_busy (ok : Bool) (s : State) : (completeTaken ok s).busy = s.busy := rfl
@[simp] theorem completeTaken_seq (ok : Bool) (s : State) : (completeTaken ok s).seq = s.seq := rfl
@[simp] theorem completeTaken_frame (ok : Bool) (s : State) : (completeTaken ok s).frame = s.frame := rfl
@[simp] theorem completeTaken_txValid (ok : Bool) (s : State) : (completeTaken ok s).txValid = s.txValid := rfl
@[simp] theorem completeTaken_pix (ok : Bool) (s : State) : (completeTaken ok s).pix = s.pix := rfl
@[simp] theorem completeTaken_cnt (ok : Bool) (s : State) : (completeTaken ok s).cnt = s.cnt := rfl
@[simp] theorem completeTaken_lastStatus (ok : Bool) (s : State) : (completeTaken ok s).lastStatus = s.lastStatus := rfl
@[simp] theorem completeTaken_faultFlag (ok : Bool) (s : State) : (completeTaken ok s).faultFlag = s.faultFlag := rfl
@[simp] theorem completeTaken_rspValid (ok : Bool) (s : State) : (completeTaken ok s).rspValid = s.rspValid := rfl
@[simp] theorem completeTaken_rstN (ok : Bool) (s : State) : (completeTaken ok s).rstN = s.rstN := rfl
@[simp] theorem completeTaken_pixIn (ok : Bool) (s : State) : (completeTaken ok s).pixIn = s.pixIn := rfl
@[simp] theorem completeTaken_inputs (ok : Bool) (s : State) : (completeTaken ok s).inputs = s.inputs := rfl
@[simp] theorem completeTaken_taken (ok : Bool) (s : State) : (completeTaken ok s).taken = none := rfl

@[simp] theorem onTxIssue_cfg (s : State) : (onTxIssue s).cfg = s.cfg := rfl
@[simp] theorem onTxIssue_life (s : State) : (onTxIssue s).life = s.life := rfl
@[simp] theorem onTxIssue_n (s : State) : (onTxIssue s).n = s.n := rfl
@[simp] theorem onTxIssue_sh (s : State) : (onTxIssue s).sh = s.sh := rfl
@[simp] theorem onTxIssue_busy (s : State) : (onTxIssue s).busy = s.busy := rfl
@[simp] theorem onTxIssue_seq (s : State) : (onTxIssue s).seq = s.seq := rfl
@[simp] theorem onTxIssue_frame (s : State) : (onTxIssue s).frame = s.frame := rfl
@[simp] theorem onTxIssue_txValid (s : State) : (onTxIssue s).txValid = false := rfl
@[simp] theorem onTxIssue_pix (s : State) : (onTxIssue s).pix = s.pix := rfl
@[simp] theorem onTxIssue_cnt (s : State) : (onTxIssue s).cnt = s.cnt := rfl
@[simp] theorem onTxIssue_lastStatus (s : State) : (onTxIssue s).lastStatus = s.lastStatus := rfl
@[simp] theorem onTxIssue_faultFlag (s : State) : (onTxIssue s).faultFlag = s.faultFlag := rfl
@[simp] theorem onTxIssue_rspValid (s : State) : (onTxIssue s).rspValid = s.rspValid := rfl
@[simp] theorem onTxIssue_rstN (s : State) : (onTxIssue s).rstN = s.rstN := rfl
@[simp] theorem onTxIssue_pixIn (s : State) : (onTxIssue s).pixIn = s.pixIn := rfl
@[simp] theorem onTxIssue_inputs (s : State) : (onTxIssue s).inputs = s.inputs := rfl
@[simp] theorem onTxIssue_chain (s : State) : (onTxIssue s).chain = s.chain := rfl

@[simp] theorem raise_cfg (st : Status) (s : State) : (raise st s).cfg = s.cfg := by
  unfold raise; split <;> rfl
@[simp] theorem raise_frame (st : Status) (s : State) : (raise st s).frame = s.frame := by
  unfold raise; split <;> rfl
@[simp] theorem raise_txValid (st : Status) (s : State) : (raise st s).txValid = s.txValid := by
  unfold raise; split <;> rfl
@[simp] theorem raise_pix (st : Status) (s : State) : (raise st s).pix = s.pix := by
  unfold raise; split <;> rfl
@[simp] theorem raise_cnt (st : Status) (s : State) : (raise st s).cnt = s.cnt := by
  unfold raise; split <;> rfl
@[simp] theorem raise_rstN (st : Status) (s : State) : (raise st s).rstN = s.rstN := by
  unfold raise; split <;> rfl
@[simp] theorem raise_pixIn (st : Status) (s : State) : (raise st s).pixIn = s.pixIn := by
  unfold raise; split <;> rfl
@[simp] theorem raise_inputs (st : Status) (s : State) : (raise st s).inputs = s.inputs := by
  unfold raise; split <;> rfl
@[simp] theorem raise_taken (st : Status) (s : State) : (raise st s).taken = s.taken := by
  unfold raise; split <;> rfl
@[simp] theorem raise_chain (st : Status) (s : State) : (raise st s).chain = s.chain := by
  unfold raise; split <;> rfl
@[simp] theorem raise_busy (st : Status) (s : State) : (raise st s).busy = false := by
  unfold raise; split <;> rfl
@[simp] theorem raise_seq (st : Status) (s : State) : (raise st s).seq = none := by
  unfold raise; split <;> rfl
@[simp] theorem raise_lastStatus (st : Status) (s : State) : (raise st s).lastStatus = st := by
  unfold raise; split <;> rfl
@[simp] theorem raise_rspValid (st : Status) (s : State) : (raise st s).rspValid = true := by
  unfold raise; split <;> rfl

end Sys2Proof.Machine
end

