-- ==== Sys2Proof/Laws/Sequencer.lean ====
section
/-! SUPPORT. What the sequencer and the transport do to a command in flight, said once: waiting, a frame that goes
through, a frame that fails, and that running to a stop is the same however the inputs are cut. -/

set_option Elab.async false

namespace Sys2Proof.Machine

@[simp] theorem andThen_next (s : State) (k : State → Result) : andThen (.next s) k = k s := rfl

@[simp] theorem andThen_fault (e : Fault) (k : State → Result) : andThen (.fault e) k = .fault e := rfl

@[simp] theorem andThen_refused (e : Refusal) (k : State → Result) : andThen (.refused e) k = .refused e := rfl

/-- A result that goes on went on through a state. -/
theorem andThen_eq_next {r : Result} {k : State → Result} {t : State} (h : andThen r k = .next t) :
    ∃ s, r = .next s ∧ k s = .next t := by
  cases r with
  | next s => exact ⟨s, rfl, h⟩
  | fault e => cases h
  | refused e => cases h

@[simp] theorem settle_nil (s : State) : settle [] s = .next (s.setInputs []) := rfl

@[simp] theorem setInputs_setInputs (es fs : List Input) (s : State) : (s.setInputs fs).setInputs es = s.setInputs es :=
  rfl

@[simp] theorem setInputs_self (s : State) : s.setInputs s.inputs = s := rfl

/-- Without a command in flight the inputs stay. -/
theorem settle_idle {s : State} (h : s.busy = false) (es : List Input) : settle es s = .next (s.setInputs es) := by
  cases es with
  | nil => rfl
  | cons e es =>
    cases e with
    | rst l => rfl
    | command w p => rfl
    | takeResponse => rfl
    | tx t => simp [settle, h]

/-- Replaces the inputs of the next state. -/
def withInputs (x : List Input) (r : Result) : Result := andThen r fun t => .next (t.setInputs x)

@[simp] theorem withInputs_next (x : List Input) (s : State) : withInputs x (.next s) = .next (s.setInputs x) := rfl

theorem withInputs_ite (x : List Input) (b : Bool) (r q : Result) :
    withInputs x (if b then r else q) = if b then withInputs x r else withInputs x q := by cases b <;> rfl

theorem present_inputs (chip : Nat) (reg : Reg) (d : Byte) (s : State) (x : List Input) :
    present chip reg d (s.setInputs x) = withInputs x (present chip reg d s) := by
  simp only [present, State.chips, setInputs_n, setInputs_cfg]
  cases encodeFrame s.n.toNat chip (s.cfg.reg.addr reg) d <;> rfl

theorem writeRow_inputs (chip row : Nat) (v : Byte) (s : State) (x : List Input) :
    writeRow chip row v (s.setInputs x) = withInputs x (writeRow chip row v s) := by
  unfold writeRow
  cases h : s.shadowHas (shadowIndex chip row) with
  | false =>
    have h' : (s.setInputs x).shadowHas (shadowIndex chip row) = false := h
    simp only [shadowSet, h, h', Bool.false_eq_true, if_false]
    rfl
  | true =>
    have h' : (s.setInputs x).shadowHas (shadowIndex chip row) = true := h
    simp only [shadowSet, h, h', if_true]
    exact present_inputs chip _ v { s with sh := _ } x

theorem setRowBody_inputs (chip row : Nat) (v : Byte) (s : State) (x : List Input) :
    setRowBody chip row v (s.setInputs x) = withInputs x (setRowBody chip row v s) := by
  simp only [setRowBody, withInputs_ite, ← writeRow_inputs]
  rfl

theorem setCellBody_inputs (chip row col : Nat) (lit : Bool) (s : State) (x : List Input) :
    setCellBody chip row col lit (s.setInputs x) = withInputs x (setCellBody chip row col lit s) := by
  have h : shadowGet chip row (s.setInputs x) (fun v => writeRow chip row (cellUpdate v col lit) (s.setInputs x)) =
      withInputs x (shadowGet chip row s fun v => writeRow chip row (cellUpdate v col lit) s) := by
    simp only [shadowGet, show (s.setInputs x).shadowByte (shadowIndex chip row) = s.shadowByte (shadowIndex chip row)
      from rfl]
    cases s.shadowByte (shadowIndex chip row) with
    | none => rfl
    | some v => exact writeRow_inputs chip row _ s x
  simp only [setCellBody, withInputs_ite, ← h]
  rfl

/-- An item of pseudocode neither reads nor writes the inputs. -/
theorem runMicro_inputs (m : Micro) (s : State) (x : List Input) :
    runMicro m (s.setInputs x) = withInputs x (runMicro m s) := by
  cases m with
  | send chip reg d => exact present_inputs chip reg d s x
  | clearRow chip row => exact writeRow_inputs chip row _ s x
  | setRow chip row v => exact setRowBody_inputs chip row v s x
  | setCell chip row col lit => exact setCellBody_inputs chip row col lit s x
  | drawRow chip row => exact setRowBody_inputs chip row _ s x

/-- With the shadow there, so is the byte of every row of every chip (20_memory.md R45). -/
theorem shadowHas_row {s : State} {chip row : Nat} (hs : s.sh.isSome = true) (hc : chip < s.chips) (hr : row ≤ 7) :
    s.shadowHas (shadowIndex chip row) = true := by
  rw [State.shadowHas, hs, Bool.true_and]
  exact decide_eq_true (by unfold shadowIndex; omega)

/-- A shadow byte that exists is written and its row's frame presented. -/
theorem writeRow_has {s : State} {chip row : Nat} (v : Byte) (hc : chip < s.chips)
    (hb : s.shadowHas (shadowIndex chip row) = true) :
    ∃ f, encodeFrame s.chips chip (s.cfg.reg.addr (.digit row)) v = some f ∧ writeRow chip row v s =
      .next { s with
        sh := s.sh.map fun m => m.write (shadowIndex chip row) v, frame := some f, txValid := true } := by
  obtain ⟨f, hf⟩ := Option.isSome_iff_exists.mp
    ((encodeFrame_isSome s.chips chip (s.cfg.reg.addr (.digit row)) v).trans (decide_eq_true hc))
  refine ⟨f, hf, ?_⟩
  simp only [writeRow, shadowSet, hb, if_true, andThen_next, present, State.chips]
  rw [show encodeFrame s.n.toNat chip (s.cfg.reg.addr (.digit row)) v = some f from hf]

/-- An item in range is no `noop`: it changes at most the shadow, and presents a frame for all chips. -/
theorem runMicro_inRange {m : Micro} {s : State} (hm : m.inRange s.chips = true) (hs : s.sh.isSome = true) :
    ∃ f sh, runMicro m s = .next { s with sh := sh, frame := some f, txValid := true } ∧ f.length = 2 * s.chips ∧
      sh.isSome = true := by
  have row : ∀ chip r v, chip < s.chips → r ≤ 7 → ∃ f sh, writeRow chip r v s =
      .next { s with sh := sh, frame := some f, txValid := true } ∧ f.length = 2 * s.chips ∧ sh.isSome = true := by
    intro chip r v hc hr
    obtain ⟨f, hf, h⟩ := writeRow_has v hc (shadowHas_row hs hc hr)
    exact ⟨f, _, h, encodeFrame_length hf, by simpa using hs⟩
  cases m with
  | send chip reg d =>
    obtain ⟨f, hf⟩ := Option.isSome_iff_exists.mp
      ((encodeFrame_isSome s.chips chip (s.cfg.reg.addr reg) d).trans hm)
    exact ⟨f, s.sh, by simp only [runMicro, present, hf], encodeFrame_length hf, hs⟩
  | clearRow chip r =>
    simp only [Micro.inRange, validRow, Bool.and_eq_true, decide_eq_true_eq] at hm
    exact row chip r _ hm.1 hm.2
  | setRow chip r v =>
    simp only [Micro.inRange, validRow, Bool.and_eq_true, decide_eq_true_eq] at hm
    simpa [runMicro, setRowBody, validChip, validRow, hm] using row chip r v hm.1 hm.2
  | setCell chip r col lit =>
    simp only [Micro.inRange, validRow, validCol, Bool.and_eq_true, decide_eq_true_eq] at hm
    have hb := shadowHas_row hs hm.1.1 hm.1.2
    obtain ⟨w, hw⟩ := Option.isSome_iff_exists.mp hs
    simpa [runMicro, setCellBody, validChip, validRow, validCol, hm, shadowGet, State.shadowByte, hb, hw] using
      row chip r (cellUpdate (w.read (shadowIndex chip r)) col lit) hm.1.1 hm.1.2
  | drawRow chip r =>
    simp only [Micro.inRange, validRow, Bool.and_eq_true, decide_eq_true_eq] at hm
    simpa [runMicro, setRowBody, validChip, validRow, hm] using row chip r (rasterByte s.pix chip r) hm.1 hm.2

/-- The sequencer neither reads nor writes the inputs. -/
theorem advance_inputs (s : State) (x : List Input) : advance (s.setInputs x) = withInputs x (advance s) := by
  simp only [advance, setInputs_seq]
  cases s.seq with
  | none => rfl
  | some q =>
    obtain ⟨i, ms⟩ := q
    cases ms with
    | nil => rfl
    | cons m rest => exact runMicro_inputs m { s with seq := some ⟨i, rest⟩ } x

/-- An act of the transport neither reads nor writes the other inputs. -/
theorem onTransport_inputs (e : TxEvent) (s : State) (x : List Input) :
    onTransport e (s.setInputs x) = withInputs x (onTransport e s) := by
  cases e with
  | issue => rfl
  | done ok =>
    simp only [onTransport, onTxDone]
    cases h : (completeTaken ok s).awaitsDone with
    | false =>
      have h' : (completeTaken ok (s.setInputs x)).awaitsDone = false := h
      simp only [h', Bool.false_eq_true, if_false]
      rfl
    | true =>
      have h' : (completeTaken ok (s.setInputs x)).awaitsDone = true := h
      simp only [h', if_true]
      cases ok with
      | true => exact advance_inputs { completeTaken true s with frame := none, cnt := s.cnt + 1#8 } x
      | false =>
        simp only [finishTransmit, Bool.false_eq_true, if_false, withInputs_next, raise, completeTaken_seq, setInputs_seq]
        cases s.seq with
        | none => rfl
        | some q =>
          obtain ⟨i, ms⟩ := q
          cases i <;> rfl

/-- `settle` goes by the list it is given, whatever inputs the state holds. -/
theorem settle_inputs (es : List Input) (s : State) (x : List Input) : settle es (s.setInputs x) = settle es s := by
  cases es with
  | nil => rfl
  | cons e es => cases e <;> rfl

/-- With a command in flight one act of the transport is handled, and then the rest. -/
theorem settle_tx {s : State} (h : s.busy = true) (e : TxEvent) (es : List Input) :
    settle (.tx e :: es) s = andThen (onTransport e (s.setInputs es)) (settle es) := by
  simp only [settle, h, if_true]
  cases onTransport e (s.setInputs es) <;> rfl

/-- The state after the transport has taken the presented frame and completed it with success: the chips have
latched it, and `CNT` is one more (40_frame_encoder.md R93). -/
def State.delivered (f : Frame) (s : State) : State :=
  { s with frame := none, txValid := false, taken := none, cnt := s.cnt + 1#8, chain := s.chain.latch f }

/-- The state after the transport has taken the presented frame and failed it, before the command ends. -/
def State.lost (f : Frame) (s : State) : State :=
  { s with frame := none, txValid := false, taken := none, chain := s.chain.fail s.cfg.havocOnFail f }

/-- A presented frame that goes through: the sequencer goes on. -/
theorem settle_delivered {s : State} {f : Frame} (hb : s.busy = true) (hv : s.txValid = true)
    (hf : s.frame = some f) (es : List Input) :
    settle (.tx .issue :: .tx (.done true) :: es) s =
      andThen (advance ((s.delivered f).setInputs es)) (settle es) := by
  rw [settle_tx hb, onTransport, andThen_next, settle_tx (by simpa using hb)]
  simp [onTransport, onTxDone, State.awaitsDone, finishTransmit, State.delivered, completeTaken, onTxIssue,
    State.setInputs, Chain.complete, hb, hv, hf]

/-- A presented frame that fails: the command ends (60_exceptions.md R190). -/
theorem settle_lost {s : State} {f : Frame} (hb : s.busy = true) (hv : s.txValid = true)
    (hf : s.frame = some f) (es : List Input) :
    settle (failReply ++ es) s = .next ((raise .transportFail (s.lost f)).setInputs es) := by
  have hi : onTxIssue (s.setInputs (.tx (.done false) :: es)) = (onTxIssue s).setInputs (.tx (.done false) :: es) := rfl
  have hd : onTransport (.done false) (onTxIssue s) = .next (raise .transportFail (s.lost f)) := by
    simp [onTransport, onTxDone, State.awaitsDone, finishTransmit, State.lost, completeTaken, onTxIssue,
      Chain.complete, hb, hv, hf]
  simp only [failReply, List.cons_append, List.nil_append]
  rw [settle_tx hb, onTransport, andThen_next, hi, settle_tx (by simpa using hb), setInputs_setInputs,
    onTransport_inputs, hd, withInputs_next, andThen_next, settle_idle (by simp), setInputs_setInputs]

/-- Frame after frame: if each frame that goes through leads from the `k`-th place of a command to the next, then `k`
successful transactions lead to the `k`-th place. `P k` describes the state that presents the `k`-th frame. -/
theorem settle_okReplies {P : Nat → State → Prop} {total : Nat}
    (hp : ∀ k s, P k s → s.busy = true ∧ s.txValid = true ∧ s.frame.isSome = true)
    (hs : ∀ k s f es, k + 1 < total → P k s → s.frame = some f →
      ∃ s', advance ((s.delivered f).setInputs es) = .next s' ∧ P (k + 1) s')
    (fs : List Input) (j k : Nat) (s : State) (hk : j + k < total) (h : P j s) :
    ∃ s', P (j + k) s' ∧ settle (okReplies k ++ fs) s = settle fs s' := by
  induction k generalizing j s with
  | zero => exact ⟨s, h, rfl⟩
  | succ k ih =>
    obtain ⟨hb, hv, hf⟩ := hp j s h
    obtain ⟨f, hf⟩ := Option.isSome_iff_exists.mp hf
    obtain ⟨s', h1, h2⟩ := hs j s f (okReplies k ++ fs) (by omega) h hf
    obtain ⟨t, h3, h4⟩ := ih (j + 1) s' (by omega) h2
    refine ⟨t, by rwa [show j + (k + 1) = j + 1 + k by omega], ?_⟩
    simp only [okReplies, List.cons_append]
    rw [settle_delivered hb hv hf, h1, andThen_next, h4]

/-- How the inputs are cut makes no difference to a command in flight: it goes on with the second part when it has
used up the first. -/
theorem settle_append (es fs : List Input) (s : State) :
    settle (es ++ fs) s =
      andThen (settle es s) fun s' =>
        if s'.inputs = [] then settle fs s' else .next (s'.setInputs (s'.inputs ++ fs)) := by
  induction es generalizing s with
  | nil => simp [settle_inputs]
  | cons e es ih =>
    cases e with
    | rst l => simp [settle]
    | command w p => simp [settle]
    | takeResponse => simp [settle]
    | tx t =>
      by_cases hb : s.busy = true
      · rw [List.cons_append, settle_tx hb, settle_tx hb, onTransport_inputs, onTransport_inputs t s es]
        cases onTransport t s with
        | next s' =>
          simp only [withInputs_next, andThen_next]
          rw [settle_inputs, settle_inputs]
          exact ih s'
        | fault e => rfl
        | refused e => rfl
      · rw [settle_idle (by simpa using hb), settle_idle (by simpa using hb)]
        simp

end Sys2Proof.Machine
end

