-- ==== Sys2Proof/Laws/Plan.lean ====
section
/-! SUPPORT. A command as a plan: the frames it presents one after another and the shadow before each. What the
machine does with a plan, for any number of successful transactions, a failed one, or all of them. -/

set_option Elab.async false

namespace Sys2Proof.Machine

/-- A plan: in a machine with these parameters, length and plane, the `k`-th item takes the shadow from `mem k` to
`mem (k + 1)` and presents the frame `frames k`. -/
def Plan (cfg : Config) (n : BitVec 4) (pix : Plane) (ms : List Micro) (mem : Nat → Memory) (frames : Nat → Frame) :
    Prop :=
  ∀ (k : Nat) (h : k < ms.length) (s : State), s.cfg = cfg → s.n = n → s.pix = pix → s.sh = some (mem k) →
    runMicro ms[k] s = .next { s with sh := some (mem (k + 1)), frame := some (frames k), txValid := true }

/-- The chain after the first `k` frames of a plan have been latched. -/
def chainAfter (h : Chain) (frames : Nat → Frame) : Nat → Chain
  | 0 => h
  | k + 1 => (chainAfter h frames k).latch (frames k)

/-- The state that presents the `k`-th frame of a plan begun at `s`, with the inputs `es` left. -/
def State.atFrame (s : State) (i : Instr) (ms : List Micro) (mem : Nat → Memory) (frames : Nat → Frame) (k : Nat)
    (es : List Input) : State :=
  { s with
    busy := true, seq := some ⟨i, ms.drop (k + 1)⟩, sh := some (mem (k + 1)), frame := some (frames k), txValid := true
    cnt := BitVec.ofNat 8 k, chain := chainAfter s.chain frames k, taken := if k = 0 then s.taken else none
    inputs := es }

/-- The state after the last frame of a plan begun at `s` has gone through. -/
def State.afterPlan (s : State) (mem : Nat → Memory) (frames : Nat → Frame) (total : Nat) (es : List Input) : State :=
  { s with
    busy := false, seq := none, sh := some (mem total), frame := none, txValid := false
    cnt := BitVec.ofNat 8 total, chain := chainAfter s.chain frames total, taken := none, inputs := es
    lastStatus := .ok, rspValid := true }

variable {cfg : Config} {n : BitVec 4} {pix : Plane} {ms : List Micro} {mem : Nat → Memory} {frames : Nat → Frame}
  {s : State} {i : Instr}

/-- The sequencer presents the first frame of a plan. -/
theorem advance_plan_first (hp : Plan cfg n pix ms mem frames) (hc : s.cfg = cfg) (hn : s.n = n) (hx : s.pix = pix)
    (hm : s.sh = some (mem 0)) (hb : s.busy = true) (h0 : s.cnt = 0#8) (hs : s.seq = some ⟨i, ms⟩)
    (hl : 0 < ms.length) : advance s = .next (s.atFrame i ms mem frames 0 s.inputs) := by
  cases ms with
  | nil => simp at hl
  | cons m ms =>
    have := hp 0 hl { s with seq := some ⟨i, ms⟩ } hc hn hx hm
    simp only [List.getElem_cons_zero] at this
    simp only [advance, hs, this]
    congr 1
    simp [State.atFrame, chainAfter, hb, h0]

/-- A frame of a plan that goes through leads to the next one. -/
theorem advance_plan_next (hp : Plan cfg n pix ms mem frames) (hc : s.cfg = cfg) (hn : s.n = n) (hx : s.pix = pix)
    (k : Nat) (hk : k + 1 < ms.length) (es fs : List Input) :
    advance (((s.atFrame i ms mem frames k es).delivered (frames k)).setInputs fs) =
      .next (s.atFrame i ms mem frames (k + 1) fs) := by
  have hd : ms.drop (k + 1) = ms[k + 1] :: ms.drop (k + 2) := List.drop_eq_getElem_cons hk
  have := hp (k + 1) hk
    { ((s.atFrame i ms mem frames k es).delivered (frames k)).setInputs fs with seq := some ⟨i, ms.drop (k + 2)⟩ }
    hc hn hx rfl
  have hq : (((s.atFrame i ms mem frames k es).delivered (frames k)).setInputs fs).seq =
      some ⟨i, ms[k + 1] :: ms.drop (k + 2)⟩ := by rw [← hd]; rfl
  simp only [advance, hq, this]
  congr 1
  simp [State.atFrame, State.delivered, State.setInputs, chainAfter, BitVec.ofNat_add]

/-- The last frame of a plan that goes through ends the command. -/
theorem advance_plan_last (k : Nat) (hk : k + 1 = ms.length) (es fs : List Input) :
    advance (((s.atFrame i ms mem frames k es).delivered (frames k)).setInputs fs) =
      .next (s.afterPlan mem frames ms.length fs) := by
  have hd : ms.drop (k + 1) = [] := List.drop_eq_nil_of_le (by omega)
  have hq : (((s.atFrame i ms mem frames k es).delivered (frames k)).setInputs fs).seq = some ⟨i, []⟩ := by
    rw [← hd]; rfl
  simp only [advance, hq]
  congr 1
  simp [State.afterPlan, State.atFrame, State.delivered, State.setInputs, finish, chainAfter, ← hk, BitVec.ofNat_add]

/-- A plan after `k` successful transactions, `k` short of all: the `k`-th frame is presented, and the command goes
on with the inputs that remain. -/
theorem launch_plan_partial (hp : Plan cfg n pix ms mem frames) (hc : s.cfg = cfg) (hn : s.n = n) (hx : s.pix = pix)
    (hm : s.sh = some (mem 0)) (hb : s.busy = true) (h0 : s.cnt = 0#8) (hs : s.seq = some ⟨i, []⟩)
    (k : Nat) (hk : k < ms.length) (fs : List Input) (hi : s.inputs = okReplies k ++ fs) :
    ∃ es, launch ms s = settle fs (s.atFrame i ms mem frames k es) := by
  have hfirst := advance_plan_first (i := i) hp (s := { s with seq := some ⟨i, ms⟩ }) hc hn hx hm hb h0 rfl (by omega)
  obtain ⟨t, ⟨es, rfl⟩, ht⟩ := settle_okReplies
    (P := fun k s' => ∃ es, s' = s.atFrame i ms mem frames k es) (total := ms.length)
    (fun k s' ⟨_, h⟩ => by subst h; exact ⟨rfl, rfl, rfl⟩)
    (fun k s' f fs' hk ⟨es, h⟩ hf => by
      subst h
      obtain rfl : frames k = f := Option.some.inj hf
      exact ⟨_, advance_plan_next hp hc hn hx k hk es fs', fs', rfl⟩)
    fs 0 k (s.atFrame i ms mem frames 0 s.inputs) (by omega) ⟨_, rfl⟩
  refine ⟨es, ?_⟩
  rw [Nat.zero_add] at ht
  rw [← ht, ← hi]
  unfold launch
  rw [hs]
  show andThen (advance { s with seq := some ⟨i, ms⟩ }) _ = _
  rw [hfirst]
  rfl

/-- A plan with every transaction successful: the command ends with OK. -/
theorem launch_plan_all (hp : Plan cfg n pix ms mem frames) (hc : s.cfg = cfg) (hn : s.n = n) (hx : s.pix = pix)
    (hm : s.sh = some (mem 0)) (hb : s.busy = true) (h0 : s.cnt = 0#8) (hs : s.seq = some ⟨i, []⟩)
    (hl : 0 < ms.length) (rest : List Input) (hi : s.inputs = okReplies ms.length ++ rest) :
    launch ms s = .next (s.afterPlan mem frames ms.length rest) := by
  have hcut : ∀ k, okReplies (k + 1) ++ rest = okReplies k ++ (okReplies 1 ++ rest) := by
    intro k
    induction k with
    | zero => rfl
    | succ k ih => rw [show okReplies (k + 1 + 1) = .tx .issue :: .tx (.done true) :: okReplies (k + 1) from rfl,
        List.cons_append, List.cons_append, ih]; rfl
  obtain ⟨k, hk⟩ : ∃ k, k + 1 = ms.length := ⟨ms.length - 1, by omega⟩
  obtain ⟨es, he⟩ := launch_plan_partial (i := i) hp hc hn hx hm hb h0 hs k (by omega) (okReplies 1 ++ rest)
    (by rw [hi, ← hk, hcut])
  rw [he]
  have hd := settle_delivered (s := s.atFrame i ms mem frames k es) (f := frames k) rfl rfl rfl rest
  rw [advance_plan_last k hk es rest, andThen_next,
    settle_idle (s := s.afterPlan mem frames ms.length rest) rfl] at hd
  exact hd

/-- A plan whose `k`-th transaction fails: the command ends with TRANSPORT_FAIL, with the shadow as the `k`-th item
left it. -/
theorem launch_plan_failed (hp : Plan cfg n pix ms mem frames) (hc : s.cfg = cfg) (hn : s.n = n) (hx : s.pix = pix)
    (hm : s.sh = some (mem 0)) (hb : s.busy = true) (h0 : s.cnt = 0#8) (hs : s.seq = some ⟨i, []⟩)
    (k : Nat) (hk : k < ms.length) (rest : List Input) (hi : s.inputs = okReplies k ++ failReply ++ rest) :
    ∃ es, launch ms s =
      .next ((raise .transportFail ((s.atFrame i ms mem frames k es).lost (frames k))).setInputs rest) := by
  obtain ⟨es, he⟩ := launch_plan_partial (i := i) hp hc hn hx hm hb h0 hs k hk (failReply ++ rest)
    (by rw [hi, List.append_assoc])
  exact ⟨es, by rw [he, settle_lost rfl rfl rfl]⟩

end Sys2Proof.Machine
end

