-- ==== Sys2Proof/Laws/Step.lean ====
section
/-! SUPPORT. What one step is, by the next input; and what a ready port says of the state. -/

set_option Elab.async false

namespace Sys2Proof.Machine

/-- Out of reset a step handles its next input. -/
theorem step_input {s : State} {e : Input} {rest : List Input} (hr : s.rstN = true) (hi : s.inputs = e :: rest) :
    step s = onInput e (s.setInputs rest) := by
  simp only [step, stepInput, hr, hi]

/-- Out of reset a step without an input waits. -/
theorem step_waits {s : State} (hr : s.rstN = true) (hi : s.inputs = []) : step s = .next s := by
  simp only [step, stepInput, hr, hi]

/-- With a command in flight a step whose next input is the transport's goes on with the command. -/
theorem step_in_flight {s : State} {e : TxEvent} {rest : List Input} (hr : s.rstN = true) (hb : s.busy = true)
    (hi : s.inputs = .tx e :: rest) : step s = settle s.inputs s := by
  rw [step_input hr hi, hi, settle_tx hb, onInput, onTransport_inputs]
  cases onTransport e s with
  | next t => simp only [withInputs_next, andThen_next, setInputs_inputs]
  | fault e => rfl
  | refused e => rfl

/-- In reset a step handles its next input from the reset state. -/
theorem step_held {s : State} {e : Input} {rest : List Input} (hr : s.rstN = false) (hi : s.inputs = e :: rest) :
    step s = .next (onInputHeld e (resetLmdc (s.setInputs rest))) := by
  simp only [step, stepInput, hr, hi]

/-- In reset a step without an input holds the reset state. -/
theorem step_held_waits {s : State} (hr : s.rstN = false) (hi : s.inputs = []) : step s = .next (resetLmdc s) := by
  simp only [step, stepInput, hr, hi]

/-- A ready port: no command, no untaken response, out of reset (10_state.md R26). -/
theorem cmdReady_iff (s : State) :
    s.cmdReady = true ↔ s.busy = false ∧ s.rspValid = false ∧ s.rstN = true := by
  simp [State.cmdReady, and_assoc]

/-- A command sample on a ready port that decodes runs its command. -/
theorem onCommand_runs {s : State} {w : CmdWord} {i : Instr} (p : Plane) (hc : s.cmdReady = true)
    (hd : decodeWord w = some i) : onCommand w p s = exec i { s with pixIn := p } := by
  simp only [onCommand, hc, if_true, hd]

/-- A command sample on a port that is not ready does nothing. -/
theorem onCommand_ignored {s : State} (w : CmdWord) (p : Plane) (hc : s.cmdReady = false) :
    onCommand w p s = .next s := by
  simp [onCommand, hc]

/-- A command admitted in `READY` runs its body. -/
theorem inReady_runs {s : State} (i : Instr) (body : State → Result) (h : s.life = .ready) :
    inReady i body s = body (accept i s) := by
  simp only [inReady, accept, h]

end Sys2Proof.Machine
end

