-- ==== Sys2Proof/Machine/Assembler.lean ====
section
/-! DEFINITION. The host's assembler (spec/30_encoding.md R75) and its chain-wide pseudo-instructions (R76). It is
the host's tool: no rule of the LMDC reads it. Text is a list of characters; `none` is an assembly error. -/

namespace Sys2Proof.Machine

/-- The pseudo-instructions of R76. -/
inductive Pseudo where
  | setPowerAll (on : Bool)
  | setScanLimitAll (limit : Byte)
  | setIntensityAll (level : Byte)
  | setCellAll (row col : Nat) (lit : Bool)
  | setColumnAll (col : Nat) (value : Byte)
  deriving DecidableEq, Repr

/-- The single-chip command a pseudo-instruction repeats. -/
def Pseudo.onChip (p : Pseudo) (c : Nat) : Instr :=
  match p with
  | .setPowerAll on => .setPower c on
  | .setScanLimitAll limit => .setScanLimit c limit
  | .setIntensityAll level => .setIntensity c level
  | .setCellAll row col lit => .setCell c row col lit
  | .setColumnAll col value => .setColumn c col value

/-- The expansion of R76 for a chain of `n` chips, chip 0 first. -/
def Pseudo.expand (n : Nat) (p : Pseudo) : List Instr := (List.range n).map p.onChip

/-- One command sample: a word, and for DRAW its plane (R75). -/
structure AsmItem where
  word : CmdWord
  plane : Option Plane
  deriving DecidableEq, Repr

/-- The assembler's position: the planes defined so far, and the block being read, if any. -/
structure AsmState where
  planes : List (List Char × Plane)
  block : Option (List Char × List (List Char))
  items : List AsmItem
  deriving DecidableEq, Repr

def asmSpace (c : Char) : Bool := c == ' ' || c == '\t'

/-- A line without its comment and without the space around it. -/
def asmTrim (l : List Char) : List Char :=
  (((l.takeWhile (· != ';')).dropWhile asmSpace).reverse.dropWhile asmSpace).reverse

/-- The parts of a line between commas. -/
def asmSplit : List Char → List (List Char)
  | [] => [[]]
  | c :: l =>
    if c = ',' then [] :: asmSplit l
    else match asmSplit l with
      | [] => [[c]]
      | p :: ps => (c :: p) :: ps

/-- The value of a digit, below 16. -/
def asmDigit (c : Char) : Option Nat :=
  if '0' ≤ c ∧ c ≤ '9' then some (c.toNat - 48)
  else if 'a' ≤ c ∧ c ≤ 'f' then some (c.toNat - 87)
  else if 'A' ≤ c ∧ c ≤ 'F' then some (c.toNat - 55)
  else none

def asmDigits (base : Nat) : List Char → Nat → Option Nat
  | [], acc => some acc
  | c :: l, acc =>
    match asmDigit c with
    | some d => if d < base then asmDigits base l (acc * base + d) else none
    | none => none

/-- A decimal number, or a hexadecimal one after `0x` (R75). -/
def asmNumber : List Char → Option Nat
  | [] => none
  | '0' :: 'x' :: [] => none
  | '0' :: 'x' :: l => asmDigits 16 l 0
  | l => asmDigits 10 l 0

/-- An operand: a number in 0..255 (R75). -/
def asmOperand (l : List Char) : Option Nat := (asmNumber l).filter fun v => decide (v ≤ 255)

def asmByte (l : List Char) : Option Byte := (asmOperand l).map (BitVec.ofNat 8)

/-- A flag operand: `1` or `0` (R75). -/
def asmFlag (l : List Char) : Option Bool :=
  if l = ['1'] then some true else if l = ['0'] then some false else none

/-- The flag of SET_POWER, which may also be written `on` or `off` (R75). -/
def asmOnOff (l : List Char) : Option Bool :=
  if l = ['o', 'n'] then some true else if l = ['o', 'f', 'f'] then some false else asmFlag l

/-- The commands of R75 but for DRAW, by mnemonic and operands. -/
def asmCommand (mnemonic : String) (ops : List (List Char)) : Option Instr :=
  match mnemonic, ops with
  | "INIT", [a] => do return .init (← asmOperand a)
  | "SET_POWER", [a, b] => do return .setPower (← asmOperand a) (← asmOnOff b)
  | "SET_SCAN_LIMIT", [a, b] => do return .setScanLimit (← asmOperand a) (← asmByte b)
  | "SET_INTENSITY", [a, b] => do return .setIntensity (← asmOperand a) (← asmByte b)
  | "CLEAR", [a] => do return .clear (← asmOperand a)
  | "CLEAR_ALL", [] => some .clearAll
  | "SET_CELL", [a, b, c, d] => do
    return .setCell (← asmOperand a) (← asmOperand b) (← asmOperand c) (← asmFlag d)
  | "SET_ROW", [a, b, c] => do return .setRow (← asmOperand a) (← asmOperand b) (← asmByte c)
  | "SET_ROW_ALL", [a, b] => do return .setRowAll (← asmOperand a) (← asmByte b)
  | "SET_COLUMN", [a, b, c] => do return .setColumn (← asmOperand a) (← asmOperand b) (← asmByte c)
  | "RELEASE", [] => some .release
  | _, _ => none

/-- The pseudo-instructions of R76, by mnemonic and operands. -/
def asmPseudo (mnemonic : String) (ops : List (List Char)) : Option Pseudo :=
  match mnemonic, ops with
  | "SET_POWER_ALL", [a] => do return .setPowerAll (← asmOnOff a)
  | "SET_SCAN_LIMIT_ALL", [a] => do return .setScanLimitAll (← asmByte a)
  | "SET_INTENSITY_ALL", [a] => do return .setIntensityAll (← asmByte a)
  | "SET_CELL_ALL", [a, b, c] => do return .setCellAll (← asmOperand a) (← asmOperand b) (← asmFlag c)
  | "SET_COLUMN_ALL", [a, b] => do return .setColumnAll (← asmOperand a) (← asmByte b)
  | _, _ => none

/-- The pixels of one line of a block, from column `x` on: `#` is on, `.` is off (R75). -/
def asmPixels (y : Nat) : List Char → Nat → Option Plane
  | [], _ => some 0#512
  | c :: l, x => do
    let p ← asmPixels y l (x + 1)
    if c = '#' then some (p ||| BitVec.twoPow 512 (y * 64 + x)) else if c = '.' then some p else none

/-- The plane of the lines of a block, row `y` first; each line holds `8*N` characters (R75). -/
def asmPlane (n : Nat) : List (List Char) → Nat → Option Plane
  | [], _ => some 0#512
  | l :: ls, y => do
    let p ← asmPlane n ls (y + 1)
    let q ← if l.length = 8 * n then asmPixels y l 0 else none
    some (p ||| q)

/-- The samples of one line outside a block, with the planes defined so far. -/
def asmItems (n : Nat) (planes : List (List Char × Plane)) (mnemonic : String) (ops : List (List Char)) :
    Option (List AsmItem) :=
  match mnemonic, ops with
  | "DRAW", [name] => (planes.lookup name).map fun p => [⟨encode .draw, some p⟩]
  | ".word", [v] => ((asmNumber v).filter fun x => decide (x < 2 ^ 32)).map fun x => [⟨BitVec.ofNat 32 x, none⟩]
  | _, _ =>
    match asmCommand mnemonic ops with
    | some i => some [⟨encode i, none⟩]
    | none => (asmPseudo mnemonic ops).map fun p => (p.expand n).map fun i => ⟨encode i, none⟩

/-- One line of a program for a chain of `n` chips (R75). -/
def asmLine (n : Nat) (st : AsmState) (line : List Char) : Option AsmState :=
  let l := asmTrim line
  match st.block with
  | some (name, rows) =>
    let rows := rows ++ [l]
    if rows.length < 8 then some { st with block := some (name, rows) }
    else (asmPlane n rows 0).map fun p => { st with planes := (name, p) :: st.planes, block := none }
  | none =>
    if l = [] then some st else
    let word := l.takeWhile fun c => !asmSpace c
    let tail := asmTrim (l.dropWhile fun c => !asmSpace c)
    if String.ofList word = ".plane" then
      if tail = [] then none else some { st with block := some (tail, []) }
    else
      let ops := if tail = [] then [] else (asmSplit tail).map asmTrim
      (asmItems n st.planes (String.ofList word) ops).map fun is => { st with items := st.items ++ is }

/-- A whole program for a chain of `n` chips: its command samples in order. -/
def assemble (n : Nat) (lines : List (List Char)) : Option (List AsmItem) :=
  match lines.foldl (fun st l => st.bind fun s => asmLine n s l) (some ⟨[], none, []⟩) with
  | some st => if st.block.isNone then some st.items else none
  | none => none

end Sys2Proof.Machine
end

