-- ==== Sys2Proof/Tests/Slice0.lean ====
section
/-! SUPPORT. Tests. The expected values are those of spec/95_test_vectors.md, named T-..., or of the rule cited; the
witnesses at the end meet the hypotheses of each statement. -/

set_option Elab.async false

open Sys2Proof Sys2Proof.Machine

namespace Sys2Proof.Tests

/-! Helpers -/

/-- `READY` with `n` chips, this shadow and these inputs. -/
def ready (n : Nat) (m : Memory) (es : List Input) : State :=
  { State.reset with life := .ready, n := BitVec.ofNat 4 n, sh := some m, inputs := es }

/-- `READY` as above with `STRICT_RANGE = true`. -/
def strict (n : Nat) (es : List Input) : State :=
  { ready n [] es with cfg := { Config.default with strictRange := true } }

/-- `RELEASED`. -/
def released (es : List Input) : State := { State.reset with life := .released, inputs := es }

/-- A SET_ROW whose frame is presented, or taken. -/
def inFlight (taken : Bool) (es : List Input) : State :=
  { ready 1 [(0, 0x80#8)] es with
    busy := true
    seq := some ⟨.setRow 0 0 0x80#8, []⟩
    frame := some [0x01#8, 0x80#8]
    txValid := !taken
    taken := if taken then some [0x01#8, 0x80#8] else none }

/-- `n` shadow bytes of value `v` from index `i` on. -/
def fillFrom (v : Byte) (i n : Nat) : Memory := (List.range n).map fun k => (i + k, v)

/-- Status, count and shadow after a command. -/
def result (i : Instr) (s : State) : Option (Status × Nat × Option Memory) :=
  (nextOf (exec i s)).map fun t => (t.lastStatus, t.cnt.toNat, t.sh)

/-- The frame a command presents after its inputs. -/
def presented (i : Instr) (s : State) : Option Frame := (nextOf (exec i s)).bind fun t => t.frame

/-! Well-formedness: one ill-formed command for each check -/

theorem test_wf_init : (Instr.init 256).wf = false := by decide
theorem test_wf_set_power : (Instr.setPower 256 true).wf = false := by decide
theorem test_wf_set_scan_limit : (Instr.setScanLimit 256 0#8).wf = false := by decide
theorem test_wf_set_intensity : (Instr.setIntensity 256 0#8).wf = false := by decide
theorem test_wf_clear : (Instr.clear 256).wf = false := by decide
theorem test_wf_set_cell_chip : (Instr.setCell 256 0 0 true).wf = false := by decide
theorem test_wf_set_cell_row : (Instr.setCell 0 256 0 true).wf = false := by decide
theorem test_wf_set_cell_col : (Instr.setCell 0 0 256 true).wf = false := by decide
theorem test_wf_set_row_chip : (Instr.setRow 256 0 0#8).wf = false := by decide
theorem test_wf_set_row_row : (Instr.setRow 0 256 0#8).wf = false := by decide
theorem test_wf_set_row_all : (Instr.setRowAll 256 0#8).wf = false := by decide
theorem test_wf_set_column_chip : (Instr.setColumn 256 0 0#8).wf = false := by decide
theorem test_wf_set_column_col : (Instr.setColumn 0 256 0#8).wf = false := by decide

/-! Decoding: a word of every command (section 2.2), and words that spell none -/

/-- T-DC-1. -/
theorem test_decode_init : decodeWord 0b00010000000000000000000000000010#32 = some (.init 2) := by decide
/-- T-DC-5. -/
theorem test_decode_set_power : decodeWord 0b00100000000000110000000000000000#32 = some (.setPower 3 false) := by decide
/-- T-DC-7. -/
theorem test_decode_set_scan_limit :
    decodeWord 0b00110000000000000000000000000111#32 = some (.setScanLimit 0 7#8) := by decide
/-- T-DC-9. -/
theorem test_decode_set_intensity :
    decodeWord 0b01000000000000010000000000001000#32 = some (.setIntensity 1 8#8) := by decide
/-- T-DC-10. -/
theorem test_decode_clear : decodeWord 0b01010000000000100000000000000000#32 = some (.clear 2) := by decide
/-- T-DC-12. -/
theorem test_decode_clear_all : decodeWord 0b01100000000000000000000000000000#32 = some .clearAll := by decide
/-- T-DC-15. -/
theorem test_decode_set_cell :
    decodeWord 0b01110000000000010000001100000111#32 = some (.setCell 1 3 7 false) := by decide
/-- T-DC-17. -/
theorem test_decode_set_row :
    decodeWord 0b10000000000000010000001100001111#32 = some (.setRow 1 3 0x0F#8) := by decide
/-- T-DC-19. -/
theorem test_decode_set_row_all :
    decodeWord 0b10010000000000000000001111111111#32 = some (.setRowAll 3 0xFF#8) := by decide
/-- T-DC-21. -/
theorem test_decode_set_column :
    decodeWord 0b10100000000000000000001010100101#32 = some (.setColumn 0 2 0xA5#8) := by decide
/-- T-DC-22. -/
theorem test_decode_draw : decodeWord 0b10110000000000000000000000000000#32 = some .draw := by decide
/-- T-DC-24. -/
theorem test_decode_release : decodeWord 0b11000000000000000000000000000000#32 = some .release := by decide

/-- T-DC-3, 6, 8, 11, 13, 16, 18, 20, 23, 25 to 28. -/
theorem test_decode_illegal :
    [0x1000FF00#32, 0x21000100#32, 0x31000007#32, 0x50000001#32, 0x60000001#32, 0x7E000000#32, 0x81000000#32,
      0x90010000#32, 0xB0000001#32, 0x00000000#32, 0xD0000000#32, 0xFFFFFFFF#32, 0x12000002#32].all
      (fun w => (decodeWord w).isNone) = true := by decide

/-- T-DC-4 and R75: the encoder writes the same words. -/
theorem test_encode_set_power_on : encode (.setPower 0 true) = 0x21000000#32 := by decide
theorem test_encode_set_cell : encode (.setCell 1 3 7 false) = 0x70010307#32 := by decide

/-! Frames, ports and chips -/

/-- T-EN-5. -/
theorem test_encode_middle :
    encodeFrame 3 1 0x0B#8 0x07#8 = some [0x00#8, 0x00#8, 0x0B#8, 0x07#8, 0x00#8, 0x00#8] := by decide
/-- T-EN-3. -/
theorem test_encode_far : encodeFrame 2 1 0x04#8 0x0F#8 = some [0x04#8, 0x0F#8, 0x00#8, 0x00#8] := by decide
/-- T-EN-8. -/
theorem test_tx_data : (encodeFrame 8 0 0x08#8 0x01#8).map packFrame = some 0x01080000000000000000000000000000#128 := by
  decide
/-- R52: the first byte of the frame is on the wire first. -/
theorem test_wire_bits : wireBits .msbFirst [0x80#8, 0x01#8] =
    [true, false, false, false, false, false, false, false, false, false, false, false, false, false, false, true] := by
  decide
/-- T-LC-1. -/
theorem test_eff_len : [0, 1, 2, 5, 8, 9, 16, 255].map effLen = [8, 1, 2, 5, 8, 8, 8, 8] := by decide
/-- T-ST-6. -/
theorem test_status_out :
    (nextOf (exec .clearAll (released []))).map State.statusOut = some 0x00C2#16 := by decide
/-- T-CH-1. -/
theorem test_latch : (Chain.latch [0x04#8, 0x0F#8, 0x00#8, 0x00#8] { Chain.initial with wired := some 2 }).creg =
    [(cregKey 1 0x04#8, 0x0F#8)] := by decide
/-- T-CH-3. -/
theorem test_havoc : (Chain.fail true [0x04#8, 0x0F#8, 0x00#8, 0x00#8]
    { Chain.initial with wired := some 2, creg := [(cregKey 0 0x01#8, 0xFF#8)] }).known 0 0x01#8 = false := by decide
/-- P4, `HAVOC_ON_FAIL = false`: another register keeps its value. -/
theorem test_no_havoc : (Chain.fail false [0x04#8, 0x0F#8, 0x00#8, 0x00#8]
    { Chain.initial with wired := some 2, creg := [(cregKey 0 0x01#8, 0xFF#8)] }).reg 0 0x01#8 = 0xFF#8 := by decide

/-- R177: the first frame the chips act on says how many they are. -/
theorem test_first_frame_wires : (Chain.latch [0x04#8, 0x0F#8, 0x00#8, 0x00#8] Chain.initial).wired = some 2 := by
  decide
/-- 93_implementation_defined.md U14: a chain of another length is a fault. -/
theorem test_miswired : { ready 2 [] [] with chain := { Chain.initial with wired := some 3 } }.faulted = true := by
  decide
/-- P1 and P2 start at reset with the chain their INIT declares: no fault. -/
theorem test_init_wires : (nextOf (exec (.init 1) (State.reset.setInputs (okReplies 11)))).map
    (fun t => (t.chain.wired, t.finished)) = some (some 1, true) := by decide +kernel

/-! Commands -/

/-- T-LC-2. -/
theorem test_init : result (.init 1) (State.reset.setInputs (okReplies 11)) = some (.ok, 11, some []) := by
  decide +kernel
/-- T-LC-3: the 12th frame, the first of chip 1. -/
theorem test_init_order : presented (.init 2) (State.reset.setInputs (okReplies 11)) =
    some [0x0F#8, 0x01#8, 0x00#8, 0x00#8] := by decide +kernel
/-- T-LC-7. -/
theorem test_init_failure : (nextOf (exec (.init 1) (State.reset.setInputs (okReplies 2 ++ failReply)))).map
    (fun t => (t.statusOut, t.cnt, t.sh)) = some (0x0010#16, 2#8, none) := by decide +kernel
/-- T-LC-8. -/
theorem test_release : (nextOf (exec .release (ready 2 [] []))).map State.statusOut = some 0x0002#16 := by decide
/-- T-LC-9. -/
theorem test_release_twice : result .release (released []) = some (.ok, 0, none) := by decide
/-- T-CF-3. -/
theorem test_set_power : presented (.setPower 1 false) (ready 2 [] []) = some [0x0C#8, 0x01#8, 0x00#8, 0x00#8] := by
  decide
/-- T-CF-4. -/
theorem test_set_power_noop : result (.setPower 2 true) (ready 2 [] (okReplies 1)) = some (.ok, 0, some []) := by decide
/-- T-CF-7. -/
theorem test_set_scan_limit : presented (.setScanLimit 0 8#8) (ready 1 [] []) = some [0x0B#8, 0x08#8] := by decide
/-- T-CF-8. -/
theorem test_set_scan_limit_strict : result (.setScanLimit 0 8#8) (strict 1 []) = some (.ok, 0, some []) := by decide
/-- T-CF-14. -/
theorem test_set_intensity : presented (.setIntensity 0 8#8) (ready 2 [] []) =
    some [0x00#8, 0x00#8, 0x0A#8, 0x08#8] := by decide
/-- T-CF-12. -/
theorem test_set_intensity_strict : result (.setIntensity 0 0x10#8) (strict 1 []) = some (.ok, 0, some []) := by decide
/-- T-PT-1. -/
theorem test_clear : result (.clear 1) (ready 2 (fillFrom 0x11#8 0 8 ++ fillFrom 0xFF#8 8 8) (okReplies 8)) =
    some (.ok, 8, some (fillFrom 0x11#8 0 8)) := by decide +kernel
/-- T-EX-7. -/
theorem test_clear_failure : result (.clear 0) (ready 1 (fillFrom 0xFF#8 0 8) (okReplies 3 ++ failReply)) =
    some (.transportFail, 3, some (fillFrom 0xFF#8 4 4)) := by decide +kernel
/-- R136: the ninth frame, the first of chip 1. -/
theorem test_clear_all_order : presented .clearAll (ready 2 [] (okReplies 8)) =
    some [0x01#8, 0x00#8, 0x00#8, 0x00#8] := by decide +kernel
/-- T-EX-8. -/
theorem test_clear_all_failure : result .clearAll (ready 8 (fillFrom 0xFF#8 0 64) (okReplies 8 ++ failReply)) =
    some (.transportFail, 8, some (fillFrom 0xFF#8 9 55)) := by decide +kernel
/-- T-SC-3. -/
theorem test_set_cell : result (.setCell 0 1 3 false) (ready 1 [(1, 0xFF#8)] (okReplies 1)) =
    some (.ok, 1, some [(1, 0xEF#8)]) := by decide
/-- T-SC-11. -/
theorem test_set_cell_failure : result (.setCell 0 0 0 true) (ready 1 [] failReply) =
    some (.transportFail, 0, some [(0, 0x80#8)]) := by decide
/-- T-L1-9. -/
theorem test_set_row : presented (.setRow 1 3 0x0F#8) (ready 2 [] []) =
    some [0x04#8, 0x0F#8, 0x00#8, 0x00#8] := by decide
/-- T-EX-2: admission before the range tests. -/
theorem test_set_row_uninit : result (.setRow 8 0 0#8) State.reset = some (.illegalState, 0, none) := by decide
/-- T-PT-9. -/
theorem test_set_row_all_failure : result (.setRowAll 2 0x3C#8) (ready 3 [] (okReplies 1 ++ failReply)) =
    some (.transportFail, 1, some [(2, 0x3C#8), (10, 0x3C#8)]) := by decide
/-- T-PT-8. -/
theorem test_set_row_all_noop : result (.setRowAll 8 0x3C#8) (ready 3 [] (okReplies 3)) = some (.ok, 0, some []) := by
  decide
/-- T-PT-10. -/
theorem test_set_column : result (.setColumn 0 2 0xA5#8) (ready 1 [] (okReplies 8)) =
    some (.ok, 8, some [(0, 0x20#8), (2, 0x20#8), (5, 0x20#8), (7, 0x20#8)]) := by decide +kernel
/-- T-PT-11. -/
theorem test_set_column_off : result (.setColumn 0 0 0x00#8) (ready 1 (fillFrom 0xFF#8 0 8) (okReplies 8)) =
    some (.ok, 8, some (fillFrom 0x7F#8 0 8)) := by decide +kernel
/-- T-RS-4. -/
theorem test_draw : result .draw { ready 2 (fillFrom 0xFF#8 0 16) (okReplies 16) with pixIn := 1#512 <<< 8 } =
    some (.ok, 16, some [(8, 0x80#8)]) := by decide +kernel
/-- T-RS-6. -/
theorem test_draw_failure : result .draw (ready 2 (fillFrom 0xFF#8 0 16) (okReplies 3 ++ failReply)) =
    some (.transportFail, 3, some (fillFrom 0xFF#8 2 6 ++ fillFrom 0xFF#8 10 6)) := by decide +kernel

/-! Steps -/

/-- T-EX-1: an illegal word in `UNINIT`. -/
theorem test_step_illegal : (nextOf (step (State.reset.withFetchWord 32 0x00000000))).map
    (fun t => (t.statusOut, t.rspValid)) = some (0x0020#16, true) := by decide
/-- T-EX-5: `USE_AFTER_RELEASE` before the range tests, with `FAULT`. -/
theorem test_step_released : (nextOf (step ((released []).withFetchWord 32 0x80090900))).map
    (fun t => (t.lastStatus, t.faultFlag)) = some (.useAfterRelease, true) := by decide
/-- T-ST-3 but for the length: INIT's first frame is presented with `LIFE = READY` and `BUSY = 1`. -/
theorem test_step_init : (nextOf (step (State.reset.withFetchWord 32 0x10000008))).map State.statusOut =
    some 0x0805#16 := by decide +kernel
/-- R216: reset while a frame is with the transport. -/
theorem test_step_reset : (nextOf (step (inFlight true [.rst false]))).map
    (fun t => (t.statusOut, t.rspValid, t.frame, t.taken)) =
    some (0x0000#16, false, none, some [0x01#8, 0x80#8]) := by decide

/-! The assembler -/

/-- R77. -/
theorem test_asm_line : assemble 1 ["  SET_CELL 1, 3, 7, 0  ; a comment".toList] =
    some [⟨0x70010307#32, none⟩] := by decide +kernel
/-- R75: an operand outside 0..255 is an assembly error. -/
theorem test_asm_range : assemble 1 ["INIT 256".toList] = none := by decide +kernel
/-- R76. -/
theorem test_asm_pseudo : assemble 2 ["SET_POWER_ALL off".toList] =
    some [⟨0x20000000#32, none⟩, ⟨0x20010000#32, none⟩] := by decide +kernel
/-- R75: a plane block, row 0 first. -/
theorem test_asm_plane :
    assemble 1 (".plane p".toList :: ".#......".toList :: List.replicate 7 "........".toList ++ ["DRAW p".toList]) =
    some [⟨0xB0000000#32, some 2#512⟩] := by decide +kernel

/-! The memory of `SH` -/

/-- Writing what an unlisted address reads as takes the entry out. -/
theorem test_memory_canonical : Memory.write [(3, 0x11#8)] 3 0x00#8 = [] := by decide
theorem test_memory_order : Memory.write [(3, 0x11#8)] 1 0x22#8 = [(1, 0x22#8), (3, 0x11#8)] := by decide

/-! Witnesses: concrete states and operands that meet the hypotheses of each statement together -/

theorem ready_runs_one (m : Memory) (es : List Input) (h : (ready 1 m es).shadowOk = true) : (ready 1 m es).Runs :=
  ⟨⟨rfl, h, rfl, rfl, rfl⟩, rfl, rfl⟩

theorem ready_runs_two (m : Memory) (es : List Input) (h : (ready 2 m es).shadowOk = true) : (ready 2 m es).Runs :=
  ⟨⟨rfl, h, rfl, rfl, rfl⟩, rfl, rfl⟩

theorem ready_runs_eight (m : Memory) (es : List Input) (h : (ready 8 m es).shadowOk = true) : (ready 8 m es).Runs :=
  ⟨⟨rfl, h, rfl, rfl, rfl⟩, rfl, rfl⟩

theorem strict_runs (es : List Input) : (strict 1 es).Runs := ⟨⟨rfl, rfl, rfl, rfl, rfl⟩, rfl, rfl⟩

theorem released_inv (es : List Input) : (released es).Inv := ⟨rfl, rfl, rfl, rfl, rfl⟩

theorem uninit_inv (es : List Input) : (State.reset.setInputs es).Inv := ⟨rfl, rfl, rfl, rfl, rfl⟩

/-- In a state that meets the invariant: the return of `rst_n`; and a report of a frame from before the reset. -/
theorem witness_ResetHoldsState :
    let s := { State.reset with rstN := false, inputs := [.rst true] }
    let r := { State.reset with rstN := false, taken := some [0x01#8, 0x80#8], inputs := [.tx (.done true)] }
    (s.rstN = false ∧ s.Inv ∧ ∀ ok, s.inputs.head? ≠ some (.tx (.done ok))) ∧
      (r.rstN = false ∧ r.Inv ∧ r.inputs.head? = some (.tx (.done true)) ∧ r.taken = some [0x01#8, 0x80#8]) :=
  ⟨⟨rfl, ⟨rfl, rfl, rfl, by decide +kernel, rfl⟩, by simp⟩, rfl, ⟨rfl, rfl, rfl, by decide +kernel, rfl⟩, rfl, rfl⟩

/-- With a frame taken; and idle with a response not taken and `FAULT` set. -/
theorem witness_ResetEndsCommandSilently :
    let s := inFlight true [.rst false]
    let r := { released [.rst false] with rspValid := true, faultFlag := true }
    (s.rstN = true ∧ s.inputs = .rst false :: []) ∧ (r.rstN = true ∧ r.inputs = .rst false :: []) :=
  ⟨⟨rfl, rfl⟩, rfl, rfl⟩

/-- Nothing is taken; and a frame from before a reset is. -/
theorem witness_StrayCompletionIgnored :
    let s := ready 1 [] [.tx (.done true)]
    let r := { State.reset with taken := some [0x01#8, 0x80#8], inputs := [.tx (.done false)] }
    (s.rstN = true ∧ s.awaitsDone = false ∧ s.inputs = [.tx (.done true)] ∧ s.taken = none) ∧
      (r.rstN = true ∧ r.awaitsDone = false ∧ r.inputs = [.tx (.done false)] ∧ r.taken = some [0x01#8, 0x80#8]) :=
  ⟨⟨rfl, rfl, rfl, rfl⟩, rfl, rfl, rfl, rfl⟩

theorem witness_TxDataLanes :
    (0 < 16 ∧ 15 < 16) ∧ (inFlight true []).txValid = false ∧ (inFlight false []).Inv ∧
      (inFlight false []).txValid = true :=
  ⟨by decide, rfl, ⟨rfl, rfl, rfl, rfl, rfl⟩, rfl⟩

/-- A command in flight; and a response not taken. -/
theorem witness_CommandNeedsReady :
    let s := inFlight false [.command 0x60000000#32 0#512]
    let r := { released [.command 0x60000000#32 0#512] with rspValid := true }
    (s.rstN = true ∧ s.busy = true ∧ s.inputs = .command 0x60000000#32 0#512 :: []) ∧
      (r.rstN = true ∧ r.rspValid = true ∧ r.inputs = .command 0x60000000#32 0#512 :: []) :=
  ⟨⟨rfl, rfl, rfl⟩, rfl, rfl, rfl⟩

theorem witness_ResponseTaken :
    let s := { released [.takeResponse] with rspValid := true }
    s.rspValid = true ∧ (released []).rspValid = false ∧ s.rstN = true ∧ s.inputs = .takeResponse :: [] :=
  ⟨rfl, rfl, rfl, rfl⟩

theorem witness_StepRunsCommand :
    let s := ready 1 [] [.command 0x71000000#32 0#512]
    s.cmdReady = true ∧ s.inputs = .command 0x71000000#32 0#512 :: [] ∧
      decodeWord 0x71000000#32 = some (.setCell 0 0 0 true) := ⟨rfl, rfl, by decide⟩

theorem witness_IllegalWordStatus :
    let s := ready 1 [] [.command 0x12000002#32 0#512]
    s.cmdReady = true ∧ s.seq = none ∧ s.inputs = .command 0x12000002#32 0#512 :: [] ∧
      decodeWord 0x12000002#32 = none := ⟨rfl, rfl, rfl, by decide⟩

theorem witness_StalledTransportWaits :
    (inFlight true []).rstN = true ∧ (inFlight true []).busy = true ∧ (inFlight true []).inputs = [] :=
  ⟨rfl, rfl, rfl⟩

theorem witness_DecodeEncode : (Instr.setCell 255 255 255 true).wf = true := by decide

theorem witness_EncodeDecode : decodeWord 0x71FFFFFF#32 = some (.setCell 255 255 255 true) := by decide

/-- An undefined selector; and a reserved bit. -/
theorem witness_ReservedWordsIllegal :
    (0xD0000000#32).extractLsb' 28 4 ∈ [0x0#4, 0xD#4, 0xE#4, 0xF#4] ∧ (0x12000002#32).extractLsb' 25 3 ≠ 0#3 := by
  decide

theorem witness_EncodePairs : 7 < 8 ∧ 0 < 8 := by decide

theorem witness_EncodeRangeAndSingle : 2 ≤ 2 := by decide

/-- The number of chips known, and not yet known. -/
theorem witness_LatchChangesTargetOnly :
    { Chain.initial with wired := some 2 }.agrees 2 = true ∧ Chain.initial.agrees 2 = true ∧ 1 < 2 ∧
      0x04#8 ≠ regNop ∧ encodeFrame 2 1 0x04#8 0x0F#8 = some [0x04#8, 0x0F#8, 0x00#8, 0x00#8] ∧
      (0 < 2 ∧ 0x04#8 ≠ regNop) := by decide

/-- The last clause: another register of the target. -/
theorem witness_FailedFrameEffect :
    { Chain.initial with wired := some 2 }.agrees 2 = true ∧ 1 < 2 ∧ 0x04#8 ≠ regNop ∧
      encodeFrame 2 1 0x04#8 0x0F#8 = some [0x04#8, 0x0F#8, 0x00#8, 0x00#8] ∧
      (1 < 2 ∧ 0x05#8 ≠ regNop ∧ ¬ (1 = 1 ∧ 0x05#8 = 0x04#8)) := by decide

/-- A success with these items of pseudocode still to come. -/
def midway (ms : List Micro) : State :=
  { inFlight true [.tx (.done true)] with seq := some ⟨.setRow 0 0 0x80#8, ms⟩ }

/-- Success of the last frame, or failure. -/
theorem witness_CompletionEndsTransmit (ok : Bool) :
    let s := inFlight true [.tx (.done ok)]
    s.rstN = true ∧ s.awaitsDone = true ∧ s.seq = some ⟨.setRow 0 0 0x80#8, []⟩ ∧
      s.inputs = .tx (.done ok) :: [] ∧ s.taken = some [0x01#8, 0x80#8] := ⟨rfl, rfl, rfl, rfl, rfl⟩

/-- TxIssue with a frame presented; and with none, in an idle state that holds a frame from before a reset. -/
theorem witness_CompletionEndsTransmit_issue :
    let s := inFlight false [.tx .issue, .takeResponse]
    let r := { State.reset with taken := some [0x01#8, 0x80#8], inputs := [.tx .issue] }
    (s.rstN = true ∧ s.inputs = .tx .issue :: [.takeResponse] ∧ (∀ e x, [Input.takeResponse] ≠ .tx e :: x) ∧
      s.txValid = true ∧ s.frame = some [0x01#8, 0x80#8]) ∧
      (r.rstN = true ∧ r.inputs = .tx .issue :: [] ∧ r.busy = false ∧ r.txValid = false) :=
  ⟨⟨rfl, rfl, fun _ _ h => (by cases h), rfl, rfl⟩, rfl, rfl, rfl, rfl⟩

/-- A control register next. -/
theorem witness_CompletionEndsTransmit_send :
    let s := midway [.send 0 .scanLimit 0x07#8]
    s.rstN = true ∧ s.awaitsDone = true ∧ s.seq = some ⟨.setRow 0 0 0x80#8, .send 0 .scanLimit 0x07#8 :: []⟩ ∧
      s.inputs = .tx (.done true) :: [] ∧ s.Inv := ⟨rfl, rfl, rfl, rfl, rfl, rfl, rfl, rfl, rfl⟩

/-- A row next, the last one, in each of the four ways. -/
theorem witness_CompletionEndsTransmit_row :
    (∀ m ∈ [Micro.clearRow 0 7, .setRow 0 7 0x11#8, .drawRow 0 7, .setCell 0 7 7 true],
      (midway [m]).rstN = true ∧ (midway [m]).awaitsDone = true ∧ (midway [m]).inputs = .tx (.done true) :: [] ∧
        (midway [m]).flightOk = true) ∧
    (midway [.clearRow 0 7]).Inv ∧ rasterByte (midway []).pix 0 7 = 0x00#8 ∧
      ∃ w, (midway []).shadowByte (0 * 8 + 7) = some w ∧
        0x01#8 = if true then w ||| (0x80#8 >>> 7) else w &&& ~~~ (0x80#8 >>> 7) :=
  ⟨by decide, ⟨rfl, rfl, rfl, rfl, rfl⟩, by decide +kernel, 0x00#8, rfl, by decide⟩

/-- 43_pattern.md R143, 44_rasterizer.md R160: an item still to come that is out of range breaks the invariant; `N = 1`. -/
theorem test_inv_items_in_range :
    (∀ m ∈ [Micro.setRow 1 0 0#8, .setRow 0 8 0#8, .drawRow 1 0, .drawRow 0 8, .setCell 1 0 0 true, .setCell 0 8 0 true,
      .setCell 0 0 8 true], (midway [m, .clearRow 0 0]).flightOk = false) ∧
    ∀ m ∈ [Micro.setRow 0 7 0#8, .drawRow 0 7, .setCell 0 7 7 true], (midway [m, .clearRow 0 0]).flightOk = true := by
  decide

theorem witness_InitResult :
    let s := State.reset.setInputs (okReplies 88 ++ [.takeResponse])
    s.Inv ∧ s.cmdReady = true ∧ s.life ≠ .ready ∧
      s.inputs = okReplies ((s.cfg.dtPulse.length + 9) * effLen 0) ++ [.takeResponse] :=
  ⟨uninit_inv _, rfl, by decide, rfl⟩

/-- The last frame of the pulse, the scan limit and the last row: presented, or failed. -/
theorem witness_InitPartial :
    let s := fun es => State.reset.setInputs es
    ∀ k ∈ [1, 2, 10, 87], (s (okReplies k)).Inv ∧ (s (okReplies k)).cmdReady = true ∧ (s (okReplies k)).life ≠ .ready ∧
      k < ((s (okReplies k)).cfg.dtPulse.length + 9) * effLen 255 ∧ (s (okReplies k)).inputs = okReplies k ∧
      (s (okReplies k ++ failReply ++ [])).inputs = okReplies k ++ failReply ++ [] := by
  intro s k hk
  refine ⟨uninit_inv _, rfl, Life.noConfusion, ?_, rfl, rfl⟩
  have h : ∀ j ∈ [1, 2, 10, 87], j < (Config.default.dtPulse.length + 9) * effLen 255 := by decide
  exact h k hk

theorem witness_ReleaseResult :
    ((ready 2 [] []).Inv ∧ (ready 2 [] []).cmdReady = true ∧ (ready 2 [] []).life = .ready) ∧
      ((released []).Inv ∧ (released []).cmdReady = true ∧ (released []).life ≠ .ready) :=
  ⟨⟨(ready_runs_two [] [] rfl).inv, rfl, rfl⟩, released_inv [], rfl, by decide⟩

theorem witness_AdmissionByLife :
    ((ready 2 [] []).Inv ∧ (ready 2 [] []).cmdReady = true ∧ (∃ req, Instr.init 3 = .init req) ∧
      (ready 2 [] []).life = .ready) ∧
    ((State.reset.setInputs []).Inv ∧ (State.reset.setInputs []).cmdReady = true ∧
      (∀ req, Instr.draw ≠ .init req) ∧ Instr.draw ≠ .release ∧ (State.reset.setInputs []).life = .uninit) ∧
    ((released []).Inv ∧ (released []).cmdReady = true ∧ (∀ req, Instr.draw ≠ .init req) ∧ Instr.draw ≠ .release ∧
      (released []).life = .released) :=
  ⟨⟨(ready_runs_two [] [] rfl).inv, rfl, ⟨3, rfl⟩, rfl⟩,
    ⟨uninit_inv [], rfl, fun _ => by simp, by simp, rfl⟩, released_inv [], rfl, fun _ => by simp, by simp, rfl⟩

theorem witness_SetPowerResult :
    let s := ready 8 [] (okReplies 1 ++ [.takeResponse])
    s.Runs ∧ 7 < s.chips ∧ s.inputs = okReplies 1 ++ [.takeResponse] := ⟨ready_runs_eight _ _ rfl, by decide, rfl⟩

/-- Any value with the default guard; the largest value with the strict one. -/
theorem witness_SetScanLimitResult :
    let s := ready 8 [] (okReplies 1 ++ [])
    let r := strict 1 (okReplies 1 ++ [])
    (s.Runs ∧ 7 < s.chips ∧ s.cfg.strictRange = false ∧ s.inputs = okReplies 1 ++ []) ∧
      (r.Runs ∧ 0 < r.chips ∧ (7#8).toNat ≤ 7 ∧ r.inputs = okReplies 1 ++ []) :=
  ⟨⟨ready_runs_eight _ _ rfl, by decide, rfl, rfl⟩,
    strict_runs _, by decide, by decide, rfl⟩

theorem witness_SetIntensityResult :
    let s := ready 8 [] (okReplies 1 ++ [])
    let r := strict 1 (okReplies 1 ++ [])
    (s.Runs ∧ 7 < s.chips ∧ s.cfg.strictRange = false ∧ s.inputs = okReplies 1 ++ []) ∧
      (r.Runs ∧ 0 < r.chips ∧ (15#8).toNat ≤ 15 ∧ r.inputs = okReplies 1 ++ []) :=
  ⟨⟨ready_runs_eight _ _ rfl, by decide, rfl, rfl⟩,
    strict_runs _, by decide, by decide, rfl⟩

/-- The first chip that is not there; the first value out of range. -/
theorem witness_ChipConfigNoop :
    ((ready 2 [] []).Runs ∧ (∃ chip on, Instr.setPower 2 true = .setPower chip on ∧ (ready 2 [] []).chips ≤ chip)) ∧
    ((strict 1 []).Runs ∧ (∃ chip limit, Instr.setScanLimit 0 8#8 = .setScanLimit chip limit ∧
      ((strict 1 []).chips ≤ chip ∨ (strict 1 []).cfg.strictRange = true ∧ 7 < limit.toNat))) ∧
    ((strict 1 []).Runs ∧ (∃ chip level, Instr.setIntensity 0 16#8 = .setIntensity chip level ∧
      ((strict 1 []).chips ≤ chip ∨ (strict 1 []).cfg.strictRange = true ∧ 15 < level.toNat))) :=
  ⟨⟨ready_runs_two _ _ rfl, 2, true, rfl, by decide⟩, ⟨strict_runs _, 0, 8#8, rfl, by decide⟩,
    strict_runs _, 0, 16#8, rfl, by decide⟩

/-- The frame waits; the frame fails. -/
theorem witness_ChipConfigPartial :
    let s := strict 1 []
    let r := strict 1 (failReply ++ [])
    (s.Runs ∧ 0 < s.chips ∧
      (∃ on : Bool, Instr.setPower 0 false = .setPower 0 on ∧ 0x0C#8 = s.cfg.reg.shutdown ∧
        0x01#8 = if on then 0x00#8 else 0x01#8) ∧ (7#8).toNat ≤ 7 ∧ 0x0B#8 = s.cfg.reg.scanLimit ∧
      (15#8).toNat ≤ 15 ∧ 0x0A#8 = s.cfg.reg.intensity ∧ s.inputs = []) ∧
      (r.Runs ∧ 0 < r.chips ∧
      (∃ on : Bool, Instr.setPower 0 false = .setPower 0 on ∧ 0x0C#8 = r.cfg.reg.shutdown ∧
        0x01#8 = if on then 0x00#8 else 0x01#8) ∧ (7#8).toNat ≤ 7 ∧ 0x0B#8 = r.cfg.reg.scanLimit ∧
      (15#8).toNat ≤ 15 ∧ 0x0A#8 = r.cfg.reg.intensity ∧ r.inputs = failReply ++ []) :=
  ⟨⟨strict_runs _, by decide, ⟨false, rfl, rfl, rfl⟩, by decide, rfl, by decide, rfl, rfl⟩,
    strict_runs _, by decide, ⟨false, rfl, rfl, rfl⟩, by decide, rfl, by decide, rfl, rfl⟩

/-- The first chip, row and column that are not there. -/
theorem witness_PatternNoop :
    (ready 2 [] []).Runs ∧ (∃ chip, Instr.clear 2 = .clear chip ∧ (ready 2 [] []).chips ≤ chip) ∧
      (∃ chip row col lit, Instr.setCell 0 0 8 true = .setCell chip row col lit ∧
        ((ready 2 [] []).chips ≤ chip ∨ 7 < row ∨ 7 < col)) ∧
      (∃ chip row v, Instr.setRow 0 8 0xFF#8 = .setRow chip row v ∧ ((ready 2 [] []).chips ≤ chip ∨ 7 < row)) ∧
      (∃ row v, Instr.setRowAll 8 0xFF#8 = .setRowAll row v ∧ 7 < row) ∧
      (∃ chip col v, Instr.setColumn 2 0 0xFF#8 = .setColumn chip col v ∧
        ((ready 2 [] []).chips ≤ chip ∨ 7 < col)) :=
  ⟨ready_runs_two _ _ rfl, ⟨2, rfl, by decide⟩, ⟨0, 0, 8, true, rfl, by decide⟩, ⟨0, 8, 0xFF#8, rfl, by decide⟩,
    ⟨8, 0xFF#8, rfl, by decide⟩, 2, 0, 0xFF#8, rfl, by decide⟩

theorem witness_SetRowResult :
    let s := ready 8 [] (okReplies 1 ++ [.takeResponse])
    s.Runs ∧ 7 < s.chips ∧ 7 ≤ 7 ∧ s.inputs = okReplies 1 ++ [.takeResponse] :=
  ⟨ready_runs_eight _ _ rfl, by decide, by decide, rfl⟩

theorem witness_SetCellResult :
    let s := ready 2 [(15, 0x0F#8)] (okReplies 1 ++ [.takeResponse])
    s.Runs ∧ 1 < s.chips ∧ 7 ≤ 7 ∧ 7 ≤ 7 ∧ s.inputs = okReplies 1 ++ [.takeResponse] :=
  ⟨ready_runs_two _ _ rfl, by decide, by decide, by decide, rfl⟩

theorem witness_CellUpdateBits : 7 ≤ 7 ∧ 0 < 8 := by decide

theorem witness_RowAndCellPartial :
    let s := ready 2 [(15, 0x0F#8)] []
    let r := ready 2 [(15, 0x0F#8)] (failReply ++ [])
    (s.Runs ∧ 1 < s.chips ∧ 7 ≤ 7 ∧ Instr.setRow 1 7 0xAA#8 = .setRow 1 7 0xAA#8 ∧
      (∃ col lit v, Instr.setCell 1 7 7 false = .setCell 1 7 col lit ∧ col ≤ 7 ∧ s.shadowByte (1 * 8 + 7) = some v ∧
        0x0E#8 = (if lit then v ||| (0x80#8 >>> col) else v &&& ~~~ (0x80#8 >>> col))) ∧ s.inputs = []) ∧
      (r.Runs ∧ 1 < r.chips ∧ 7 ≤ 7 ∧ Instr.setRow 1 7 0xAA#8 = .setRow 1 7 0xAA#8 ∧
      (∃ col lit v, Instr.setCell 1 7 7 false = .setCell 1 7 col lit ∧ col ≤ 7 ∧ r.shadowByte (1 * 8 + 7) = some v ∧
        0x0E#8 = (if lit then v ||| (0x80#8 >>> col) else v &&& ~~~ (0x80#8 >>> col))) ∧ r.inputs = failReply ++ []) :=
  ⟨⟨ready_runs_two _ _ rfl, by decide, by decide, rfl, ⟨7, false, 0x0F#8, rfl, by decide, rfl, by decide⟩, rfl⟩, ready_runs_two _ _ rfl, by decide, by decide, rfl, ⟨7, false, 0x0F#8, rfl, by decide, rfl, by decide⟩, rfl⟩

theorem witness_ClearResult :
    let s := ready 2 [(15, 0x0F#8)] (okReplies 8 ++ [.takeResponse])
    s.Runs ∧ 1 < s.chips ∧ s.inputs = okReplies 8 ++ [.takeResponse] := ⟨ready_runs_two _ _ rfl, by decide, rfl⟩

theorem witness_ClearPartial :
    let s := ready 2 [(15, 0x0F#8)] (okReplies 7)
    let r := ready 2 [(15, 0x0F#8)] (okReplies 7 ++ failReply ++ [])
    (s.Runs ∧ 1 < s.chips ∧ 7 ≤ 7 ∧ s.inputs = okReplies 7) ∧
      (r.Runs ∧ 1 < r.chips ∧ 7 ≤ 7 ∧ r.inputs = okReplies 7 ++ failReply ++ []) :=
  ⟨⟨ready_runs_two _ _ rfl, by decide, by decide, rfl⟩, ready_runs_two _ _ rfl, by decide, by decide, rfl⟩

theorem witness_ClearAllResult :
    let s := ready 2 [(15, 0x0F#8)] (okReplies 16 ++ [.takeResponse])
    s.Runs ∧ s.inputs = okReplies (8 * s.chips) ++ [.takeResponse] := ⟨ready_runs_two _ _ rfl, rfl⟩

theorem witness_ClearAllPartial :
    let s := ready 2 [(15, 0x0F#8)] (okReplies 15)
    let r := ready 2 [(15, 0x0F#8)] (okReplies 15 ++ failReply ++ [])
    (s.Runs ∧ 15 < 8 * s.chips ∧ s.inputs = okReplies 15) ∧
      (r.Runs ∧ 15 < 8 * r.chips ∧ r.inputs = okReplies 15 ++ failReply ++ []) :=
  ⟨⟨ready_runs_two _ _ rfl, by decide, rfl⟩, ready_runs_two _ _ rfl, by decide, rfl⟩

theorem witness_SetRowAllResult :
    let s := ready 8 [] (okReplies 8 ++ [.takeResponse])
    s.Runs ∧ 7 ≤ 7 ∧ s.inputs = okReplies s.chips ++ [.takeResponse] :=
  ⟨ready_runs_eight _ _ rfl, by decide, rfl⟩

theorem witness_SetRowAllPartial :
    let s := ready 8 [] (okReplies 7)
    let r := ready 8 [] (okReplies 7 ++ failReply ++ [])
    (s.Runs ∧ 7 ≤ 7 ∧ 7 < s.chips ∧ s.inputs = okReplies 7) ∧
      (r.Runs ∧ 7 ≤ 7 ∧ 7 < r.chips ∧ r.inputs = okReplies 7 ++ failReply ++ []) :=
  ⟨⟨ready_runs_eight _ _ rfl, by decide, by decide, rfl⟩, ready_runs_eight _ _ rfl, by decide, by decide, rfl⟩

/-- The last row of the chip, and the bytes on both sides of it. -/
theorem witness_SetColumnResult :
    let s := ready 8 [] (okReplies 8 ++ [.takeResponse])
    s.Runs ∧ 1 < s.chips ∧ 7 ≤ 7 ∧ s.inputs = okReplies 8 ++ [.takeResponse] ∧ (7 ≤ 7 ∧ 0 < 8) ∧ 7 < 1 * 8 ∧
      1 * 8 + 8 ≤ 16 :=
  ⟨ready_runs_eight _ _ rfl, by decide, by decide, rfl, by decide, by decide, by decide⟩

theorem witness_SetColumnPartial :
    let s := ready 8 [] (okReplies 7)
    let r := ready 8 [] (okReplies 7 ++ failReply ++ [])
    (s.Runs ∧ 7 < s.chips ∧ 7 ≤ 7 ∧ 7 ≤ 7 ∧ s.inputs = okReplies 7) ∧
      (r.Runs ∧ 7 < r.chips ∧ 7 ≤ 7 ∧ 7 ≤ 7 ∧ r.inputs = okReplies 7 ++ failReply ++ []) :=
  ⟨⟨ready_runs_eight _ _ rfl, by decide, by decide, by decide, rfl⟩,
    ready_runs_eight _ _ rfl, by decide, by decide, by decide, rfl⟩

theorem witness_RasterByteBits : 7 ≤ 7 := by decide

theorem witness_DrawResult :
    let s := ready 1 [] (okReplies 8 ++ [.takeResponse])
    s.Runs ∧ s.inputs = okReplies (8 * s.chips) ++ [.takeResponse] ∧ 0 < s.chips ∧ 7 ≤ 7 :=
  ⟨ready_runs_one _ _ rfl, rfl, by decide, by decide⟩

theorem witness_DrawPartial :
    let s := ready 2 [] (okReplies 15)
    let r := ready 2 [] (okReplies 15 ++ failReply ++ [])
    (s.Runs ∧ 15 < 8 * s.chips ∧ (1 < s.chips ∧ 7 ≤ 7) ∧ s.inputs = okReplies 15) ∧
      (r.Runs ∧ 15 < 8 * r.chips ∧ (1 < r.chips ∧ 7 ≤ 7) ∧ r.inputs = okReplies 15 ++ failReply ++ []) :=
  ⟨⟨ready_runs_two _ _ rfl, by decide, by decide, rfl⟩, ready_runs_two _ _ rfl, by decide, by decide, rfl⟩

theorem witness_DrawReachesTheChips :
    let s := ready 8 [] (okReplies 64 ++ [])
    s.Runs ∧ s.chain.agrees s.chips = true ∧ s.cfg.reg.conforming = true ∧ s.inputs = okReplies (8 * s.chips) ++ [] ∧
      (7 < s.chips ∧ 7 ≤ 7) :=
  ⟨ready_runs_eight _ _ rfl, rfl, by decide, rfl, by decide⟩

/-- The last chip, row and column, and the commands of all chips. -/
theorem witness_RowRegisterMirrorsShadow :
    ∀ i ∈ [Instr.setRow 7 7 0xAA#8, .setCell 7 7 7 true, .clear 7, .clearAll, .setRowAll 7 0xFF#8,
      .setColumn 7 7 0xA5#8, .draw],
      let s := ready 8 [] (okReplies (rowsSent 8 i).length ++ [])
      s.Runs ∧ s.chain.agrees s.chips = true ∧ s.cfg.reg.conforming = true ∧ rowsValid s.chips i = true ∧
        s.inputs = okReplies (rowsSent s.chips i).length ++ [] := by
  intro i hi
  have h : ∀ j ∈ [Instr.setRow 7 7 0xAA#8, .setCell 7 7 7 true, .clear 7, .clearAll, .setRowAll 7 0xFF#8,
    .setColumn 7 7 0xA5#8, .draw], rowsValid 8 j = true := by decide
  exact ⟨ready_runs_eight _ _ rfl, rfl, rfl, h i hi, rfl⟩

/-- The last clause: a control register, and the register of a row that is not sent. -/
theorem witness_RowRegisterMirrorsShadow_others :
    7 < (ready 8 [] []).chips ∧ 0x0A#8 ≠ regNop ∧
      (∀ r ∈ List.range 8, (7, r) ∈ rowsSent 8 (.setRowAll 7 0xFF#8) →
        0x0A#8 ≠ Config.default.reg.addr (.digit r) ∧ 0x01#8 ≠ Config.default.reg.addr (.digit r)) := by decide

theorem witness_InitReachesTheChips :
    let s := State.reset.setInputs (okReplies 88 ++ [])
    s.Inv ∧ s.cmdReady = true ∧ s.life ≠ .ready ∧ s.chain.agrees (effLen 8) = true ∧ s.cfg.reg.conforming = true ∧
      s.cfg.reg.scanLimit ≠ s.cfg.reg.displayTest ∧
      (∀ r, r ≤ 7 → s.cfg.reg.addr (.digit r) ≠ s.cfg.reg.scanLimit ∧
        s.cfg.reg.addr (.digit r) ≠ s.cfg.reg.displayTest) ∧
      s.inputs = okReplies ((s.cfg.dtPulse.length + 9) * effLen 8) ++ [] ∧
      s.cfg.dtPulse.getLast? = some 0x00#8 ∧ (0x0A#8 ≠ regNop ∧ 0x0A#8 ≠ s.cfg.reg.scanLimit ∧
        0x0A#8 ≠ s.cfg.reg.displayTest ∧ ∀ r, r ≤ 7 → 0x0A#8 ≠ s.cfg.reg.addr (.digit r)) :=
  ⟨uninit_inv _, rfl, by decide, rfl, by decide, by decide, by decide, rfl, rfl, by decide, by decide, by decide,
    by decide⟩

/-- One chip whose row registers are all known, with a SET_ROW of row 0 in flight and the register of row 0 still the
old one. -/
def mirrored (es : List Input) : State :=
  { inFlight true es with chain := ⟨some 1, (List.range 8).map fun r => (r + 1, 0x00#8), 0, 1, false⟩ }

theorem inFlight_framesOk (es : List Input) : (inFlight true es).FramesOk := by
  refine ⟨fun f hf => ?_, fun q chip reg d hq hm => ?_⟩
  · cases hf
    exact ⟨0, .digit 0, 0x80#8, rfl, .inr ⟨0, by decide, rfl, rfl⟩⟩
  · cases hq
    cases hm

theorem mirrored_framesOk (es : List Input) : (mirrored es).FramesOk :=
  ⟨(inFlight_framesOk es).frame, (inFlight_framesOk es).toCome⟩

theorem mirrored_mirrored (es : List Input) : (mirrored es).Mirrored := by
  refine ⟨.inr ⟨rfl, rfl⟩, fun _ c r hc hr => ?_⟩
  have hc0 : c = 0 := Nat.lt_one_iff.mp hc
  subst hc0
  interval_cases r
  · exact .inr (.inl ⟨0x80#8, rfl, rfl, rfl⟩)
  all_goals exact .inl rfl

/-- No failed completion among the inputs used; and none used, with another one to come after `LAST_STATUS` has been
TRANSPORT_FAIL. -/
theorem witness_MirrorPreserved :
    let s := mirrored [.tx (.done true)]
    let r := { mirrored [.takeResponse, .tx (.done false)] with lastStatus := .transportFail }
    (s.Inv ∧ s.FramesOk ∧ s.Mirrored ∧ s.cfg.reg.conforming = true ∧
      (∀ x g, x ≤ 7 → g ∈ controlRegs → s.cfg.reg.addr (.digit x) ≠ s.cfg.reg.addr g) ∧ s.rstN = true ∧
      ∃ t, step s = .next t ∧ t.rstN = true ∧ t.miswired = false ∧
        (s.inputs = [.tx (.done true)] ++ t.inputs ∧ .tx (.done false) ∉ [Input.tx (.done true)]) ∧
        t.life = .ready ∧ t.busy = false) ∧
    (r.Inv ∧ r.FramesOk ∧ r.Mirrored ∧ r.rstN = true ∧
      ∃ t, step r = .next t ∧ t.rstN = true ∧ t.miswired = false ∧
        ¬ (r.rspValid = false ∧ t.rspValid = true ∧ t.lastStatus = .transportFail)) := by
  refine ⟨⟨⟨rfl, rfl, rfl, rfl, rfl⟩, mirrored_framesOk _, mirrored_mirrored _, by decide, ?_, rfl, _, rfl, rfl, rfl,
    ⟨rfl, by decide⟩, rfl, rfl⟩, ⟨rfl, rfl, rfl, rfl, rfl⟩, ?_, ?_, rfl, _, rfl, rfl, rfl, by decide⟩
  · have h : ∀ x ≤ 7, ∀ g ∈ controlRegs,
        (mirrored []).cfg.reg.addr (.digit x) ≠ (mirrored []).cfg.reg.addr g := by decide
    exact fun x g hx hg => h x hx g hg
  · exact ⟨(inFlight_framesOk []).frame, (inFlight_framesOk []).toCome⟩
  · exact ⟨(mirrored_mirrored []).taken, (mirrored_mirrored []).rows⟩

theorem witness_StepKeepsInvariant : (inFlight true [.tx (.done false)]).Inv := ⟨rfl, rfl, rfl, rfl, rfl⟩

theorem witness_FramesCarryTheShadow :
    let s := inFlight true [.tx (.done true)]
    s.Inv ∧ s.FramesOk ∧ ∃ t, step s = .next t :=
  ⟨⟨rfl, rfl, rfl, rfl, rfl⟩, inFlight_framesOk _, _, rfl⟩

theorem witness_CountNeverWraps :
    let s := inFlight true [.tx (.done true)]
    s.Inv ∧ s.cfg.dtPulse.length ≤ 22 ∧ s.countOk = true ∧ ∃ t, step s = .next t :=
  ⟨⟨rfl, rfl, rfl, rfl, rfl⟩, by decide, rfl, _, rfl⟩

/-- `FAULT` stays set; `FAULT` becomes set; a fault of the wiring stays; a frame for another number of chips. -/
theorem witness_FaultStickyUntilReset :
    let s := { ready 1 [] [.takeResponse] with faultFlag := true }
    let r := released [.command 0x60000000#32 0#512]
    let u := { ready 1 [] [.rst false] with chain := { Chain.initial with miswired := true } }
    let v := { inFlight true [.tx (.done true)] with chain := { Chain.initial with wired := some 2 } }
    (∃ t, step s = .next t ∧ s.rstN = true ∧ s.faultFlag = true ∧ t.rstN = true ∧ t.faultFlag = true) ∧
      (∃ t, step r = .next t ∧ r.rstN = true ∧ r.faultFlag = false ∧ t.faultFlag = true) ∧
      (∃ t, step u = .next t ∧ u.chain.miswired = true) ∧
      ∃ t, step v = .next t ∧ v.taken = some [0x01#8, 0x80#8] ∧ v.chain.wired = some 2 ∧
        [0x01#8, 0x80#8].length ≠ 2 * 2 ∧ v.inputs = .tx (.done true) :: [] ∧ t.chain.miswired = true :=
  ⟨⟨_, rfl, rfl, rfl, rfl, rfl⟩, ⟨_, rfl, rfl, rfl, rfl⟩, ⟨_, rfl, rfl⟩, _, rfl, rfl, rfl, by decide, rfl, rfl⟩

theorem witness_LengthFixedWhileReady :
    let s := ready 2 [] [.command 0x60000000#32 0#512]
    s.rstN = true ∧ ∃ t, step s = .next t ∧ s.life = .ready ∧ t.life = .ready := ⟨rfl, _, rfl, rfl, rfl⟩

/-- With the number of chips known. -/
theorem witness_ParametersFixed :
    let s := { inFlight true [.tx (.done false)] with chain := { Chain.initial with wired := some 1 } }
    ∃ t, step s = .next t ∧ s.chain.wired ≠ none := ⟨_, rfl, Option.some_ne_none 1⟩

/-- A DRAW accepted; a response not taken, with nothing accepted; a report of a frame from before a reset; no report
among the inputs. -/
theorem witness_OnlyCommandsChangeState :
    let s := ready 1 [] [.command 0xB0000000#32 1#512]
    let r := { released [.command 0x60000000#32 0#512] with rspValid := true }
    let u := { State.reset with taken := some [0x01#8, 0x80#8], inputs := [.tx (.done true)] }
    (s.rstN = true ∧ ∃ t, step s = .next t ∧ t.rstN = true ∧ t.pix ≠ s.pix ∧ t.busy = true) ∧
      (r.rstN = true ∧ (∃ t, step r = .next t ∧ t.rstN = true) ∧ r.rspValid = true ∧ r.busy = false ∧
        ∀ w p rest, r.inputs = .command w p :: rest → r.cmdReady = false) ∧
      (u.rstN = true ∧ (∃ t, step u = .next t ∧ t.rstN = true) ∧ u.busy = false ∧
        ∀ w p rest, u.inputs = .command w p :: rest → u.cmdReady = false) ∧
      (∀ ok, .tx (.done ok) ∉ s.inputs) ∧ s.taken = none ∧ .tx .issue ∉ s.inputs :=
  ⟨⟨rfl, _, rfl, rfl, by decide +kernel, rfl⟩, ⟨rfl, ⟨_, rfl, rfl⟩, rfl, rfl, fun _ _ _ _ => rfl⟩,
    ⟨rfl, ⟨_, rfl, rfl⟩, rfl, fun _ _ _ h => by cases h⟩, by simp [ready], rfl, by simp [ready]⟩

/-- A command cut after its first frame; a command in flight; one whose inputs are cut; an idle state and a list that
does not begin with the transport. -/
theorem witness_CommandRunsEventByEvent :
    (ready 1 [] (okReplies 1 ++ failReply)).inputs = okReplies 1 ++ failReply ∧
      ((inFlight true [.tx (.done true), .takeResponse]).rstN = true ∧
        (inFlight true [.tx (.done true), .takeResponse]).busy = true ∧
        (inFlight true [.tx (.done true), .takeResponse]).inputs = .tx (.done true) :: ([] ++ [.takeResponse])) ∧
      (ready 1 [] []).busy = false ∧ (∀ e rest, [Input.takeResponse] ≠ .tx e :: rest) :=
  ⟨rfl, ⟨rfl, rfl, rfl⟩, rfl, fun _ _ h => by cases h⟩

end Sys2Proof.Tests
end

section
/-! PROOFS. Inversion: what the sequencer, the transport and an accepted command can do, each said once. -/

namespace Sys2Proof.Machine

/-! The sequencer -/

/-- A frame that is built is presented, and nothing else changes. -/
theorem present_cases {chip : Nat} {reg : Reg} {d : Byte} {s t : State} (h : present chip reg d s = .next t) :
    ∃ f, t = { s with frame := some f, txValid := true } := by
  unfold present at h
  split at h
  · exact ⟨_, (Host.Outcome.next.inj h).symm⟩
  · cases h

/-- A row that is written is a byte of the shadow, and its frame is presented. -/
theorem writeRow_cases {chip row : Nat} {v : Byte} {s t : State} (h : writeRow chip row v s = .next t) :
    s.shadowHas (shadowIndex chip row) = true ∧ ∃ f, t = { s with
      sh := s.sh.map fun m => m.write (shadowIndex chip row) v, frame := some f, txValid := true } := by
  obtain ⟨u, hu, ht⟩ := andThen_eq_next h
  unfold shadowSet at hu
  split at hu
  · rename_i hb
    obtain rfl := Host.Outcome.next.inj hu
    obtain ⟨f, rfl⟩ := present_cases ht
    exact ⟨hb, f, rfl⟩
  · cases hu

/-- An item of pseudocode is a `noop`, or it presents a frame after at most one write to a byte of the shadow. -/
theorem runMicro_cases {m : Micro} {s t : State} (h : runMicro m s = .next t) :
    t = finish .ok s ∨ ∃ sh f, t = { s with sh := sh, frame := some f, txValid := true } ∧
      (sh = s.sh ∨ ∃ j v, s.shadowHas j = true ∧ sh = s.sh.map fun m => m.write j v) := by
  have write : ∀ {chip row v}, writeRow chip row v s = .next t →
      ∃ sh f, t = { s with sh := sh, frame := some f, txValid := true } ∧
        (sh = s.sh ∨ ∃ j v, s.shadowHas j = true ∧ sh = s.sh.map fun m => m.write j v) := fun h =>
    have ⟨hb, f, ht⟩ := writeRow_cases h
    ⟨_, f, ht, .inr ⟨_, _, hb, rfl⟩⟩
  have setRow : ∀ {chip row v}, setRowBody chip row v s = .next t → t = finish .ok s ∨
      ∃ sh f, t = { s with sh := sh, frame := some f, txValid := true } ∧
        (sh = s.sh ∨ ∃ j v, s.shadowHas j = true ∧ sh = s.sh.map fun m => m.write j v) := fun h => by
    unfold setRowBody at h
    split at h
    · exact .inr (write h)
    · exact .inl (Host.Outcome.next.inj h).symm
  cases m with
  | send chip reg d =>
    obtain ⟨f, ht⟩ := present_cases h
    exact .inr ⟨s.sh, f, ht, .inl rfl⟩
  | clearRow chip row => exact .inr (write h)
  | setRow chip row v => exact setRow h
  | setCell chip row col lit =>
    simp only [runMicro, setCellBody, shadowGet] at h
    split at h
    · split at h
      · exact .inr (write h)
      · cases h
    · exact .inl (Host.Outcome.next.inj h).symm
  | drawRow chip row => exact setRow h

/-- What the sequencer can do (10_state.md R34): nothing without a command, end the command, or present the frame of
the next item. -/
inductive Advances (s : State) : State → Prop
  | idle (hq : s.seq = none) : Advances s s
  | ends : Advances s (finish .ok s)
  | presents {i : Instr} {m : Micro} {ms : List Micro} (hq : s.seq = some ⟨i, m :: ms⟩) (sh : Option Memory)
      (f : Frame) : Advances s { s with seq := some ⟨i, ms⟩, sh := sh, frame := some f, txValid := true }

theorem advance_cases {s t : State} (h : advance s = .next t) : Advances s t := by
  unfold advance at h
  split at h
  · rename_i hq
    obtain rfl := Host.Outcome.next.inj h
    exact .idle hq
  · obtain rfl := Host.Outcome.next.inj h
    exact .ends
  · rename_i i m ms hq
    obtain rfl | ⟨sh, f, rfl, -⟩ := runMicro_cases h
    · exact .ends
    · exact .presents hq sh f

/-! The transport -/

/-- An error other than a failed transaction: the command ends, and USE_AFTER_RELEASE sets `FAULT` (60_exceptions.md
R190, R196). -/
theorem raise_of_ne_transportFail {st : Status} (h : st ≠ .transportFail) (s : State) :
    raise st s = finish st { s with faultFlag := s.faultFlag || decide (st = .useAfterRelease) } := by
  cases st with
  | transportFail => exact absurd rfl h
  | useAfterRelease => simp [raise]
  | ok => simp [raise]
  | illegalCmd => simp [raise]
  | illegalState => simp [raise]

/-- A failed transaction ends the command, of INIT after its own handler (41_lifecycle.md R104). -/
theorem raise_transportFail (s : State) :
    raise .transportFail s = finish .transportFail (undoInit s) ∨
      raise .transportFail s = finish .transportFail s := by
  unfold raise
  split
  · exact .inl rfl
  · rename_i h; cases h
  · exact .inr rfl

/-- Of a command other than INIT it leaves what the command has done so far (60_exceptions.md R190). -/
theorem raise_transportFail_of_ne_init {s : State} {i : Instr} {ms : List Micro} (hq : s.seq = some ⟨i, ms⟩)
    (hi : ∀ req, i ≠ .init req) : raise .transportFail s = finish .transportFail s := by
  cases i with
  | init req => exact absurd rfl (hi req)
  | _ => simp only [raise, hq]

/-- What one act of the transport can do (10_state.md R29): it takes the presented frame; a report that the LMDC does
not wait for reaches only the chips; a failure ends the command; after a success the sequencer goes on. -/
inductive Handles (s : State) : TxEvent → State → Prop
  | issue : Handles s .issue (onTxIssue s)
  | stray (ok : Bool) (ha : s.awaitsDone = false) : Handles s (.done ok) (completeTaken ok s)
  | fails (ha : s.awaitsDone = true) :
      Handles s (.done false) (raise .transportFail { completeTaken false s with frame := none })
  | goesOn (ha : s.awaitsDone = true) {t : State}
      (h : Advances { completeTaken true s with frame := none, cnt := s.cnt + 1#8 } t) : Handles s (.done true) t

/-- The completion of the taken frame does not change whether the LMDC waits for it. -/
@[simp] theorem completeTaken_awaitsDone (ok : Bool) (s : State) : (completeTaken ok s).awaitsDone = s.awaitsDone := rfl

/-- A report that the LMDC does not wait for reaches only the chips. -/
theorem onTxDone_stray {s : State} (ha : s.awaitsDone = false) (ok : Bool) :
    onTxDone ok s = .next (completeTaken ok s) := by
  simp [onTxDone, ha]

/-- A report that the LMDC waits for ends the transaction. -/
theorem onTxDone_awaited {s : State} (ha : s.awaitsDone = true) (ok : Bool) :
    onTxDone ok s = finishTransmit ok (completeTaken ok s) := by
  simp [onTxDone, ha]

theorem onTransport_cases {e : TxEvent} {s t : State} (h : onTransport e s = .next t) : Handles s e t := by
  cases e with
  | issue => exact Host.Outcome.next.inj h ▸ .issue
  | done ok =>
    simp only [onTransport] at h
    cases ha : s.awaitsDone with
    | false =>
      rw [onTxDone_stray ha] at h
      exact Host.Outcome.next.inj h ▸ .stray ok ha
    | true =>
      rw [onTxDone_awaited ha] at h
      cases ok with
      | false => exact Host.Outcome.next.inj h ▸ .fails ha
      | true => exact .goesOn ha (advance_cases h)

/-! Running on -/

/-- What holds at the start and survives every act of the transport in the list holds where the command stops. -/
theorem settle_keeps {P : State → Prop} {es : List Input} (hi : ∀ fs s, P s → P (s.setInputs fs))
    (ht : ∀ e s t, .tx e ∈ es → s.busy = true → P s → onTransport e s = .next t → P t) {s t : State} (hs : P s)
    (h : settle es s = .next t) : P t := by
  induction es generalizing s with
  | nil => exact Host.Outcome.next.inj h ▸ hi [] s hs
  | cons e es ih =>
    cases hb : s.busy with
    | false =>
      rw [settle_idle hb] at h
      exact Host.Outcome.next.inj h ▸ hi _ s hs
    | true =>
      cases e with
      | tx e =>
        rw [settle_tx hb] at h
        obtain ⟨u, hu, h⟩ := andThen_eq_next h
        refine ih (fun e s t he => ht e s t (List.mem_cons_of_mem _ he)) ?_ h
        exact ht e (s.setInputs es) u List.mem_cons_self hb (hi es s hs) hu
      | rst l => exact Host.Outcome.next.inj h ▸ hi _ s hs
      | command w p => exact Host.Outcome.next.inj h ▸ hi _ s hs
      | takeResponse => exact Host.Outcome.next.inj h ▸ hi _ s hs

/-- If every act of the transport answers a next state that keeps `P`, so does running on. -/
theorem settle_answers {P : State → Prop} (hi : ∀ fs s, P s → P (s.setInputs fs))
    (ht : ∀ e s, P s → ∃ t, onTransport e s = .next t ∧ P t) (es : List Input) {s : State} (hs : P s) :
    ∃ t, settle es s = .next t ∧ P t := by
  induction es generalizing s with
  | nil => exact ⟨_, rfl, hi [] s hs⟩
  | cons e es ih =>
    cases hb : s.busy with
    | false => exact ⟨_, settle_idle hb _, hi _ s hs⟩
    | true =>
      cases e with
      | tx e =>
        obtain ⟨u, hu, hP⟩ := ht e _ (hi es s hs)
        rw [settle_tx hb, hu]
        exact ih hP
      | rst l => exact ⟨_, rfl, hi _ s hs⟩
      | command w p => exact ⟨_, rfl, hi _ s hs⟩
      | takeResponse => exact ⟨_, rfl, hi _ s hs⟩

/-- The state in which the sequencer has been given the pseudocode. -/
def State.withRest (ms : List Micro) (s : State) : State := { s with seq := s.seq.map fun q => { q with rest := ms } }

theorem launch_eq (ms : List Micro) (s : State) :
    launch ms s = andThen (advance (s.withRest ms)) fun t => settle t.inputs t := rfl

/-- Pseudocode whose first item is a `noop` ends the command at once (43_pattern.md R131). -/
theorem launch_noop {i : Instr} {m : Micro} {ms : List Micro} {s : State} (hq : s.seq = some ⟨i, []⟩)
    (h : ∀ u : State, u.n = s.n → runMicro m u = noop u) : launch (m :: ms) s = .next (finish .ok s) := by
  have hr : s.withRest (m :: ms) = { s with seq := some ⟨i, m :: ms⟩ } := by simp [State.withRest, hq]
  have ha : advance { s with seq := some ⟨i, m :: ms⟩ } = runMicro m { s with seq := some ⟨i, ms⟩ } := rfl
  rw [launch_eq, hr, ha, h { s with seq := some ⟨i, ms⟩ } rfl]
  exact settle_idle (s := finish .ok s) rfl s.inputs

/-! An accepted command -/

/-- The effective length is one of 1..8 (41_lifecycle.md R101). -/
theorem effLen_bounds (req : Nat) : 1 ≤ effLen req ∧ effLen req ≤ 8 := by
  unfold effLen
  split <;> omega

/-- The rows of ClearChip are rows of the chip. -/
theorem clearChip_inRange {c n : Nat} (hc : c < n) : ∀ m ∈ clearChip c, m.inRange n = true := by
  intro m hm
  obtain ⟨r, hr, rfl⟩ := List.mem_map.mp hm
  have := List.mem_range.mp hr
  simp [Micro.inRange, validRow, hc, show r ≤ 7 by omega]

@[simp] theorem clearChip_length (c : Nat) : (clearChip c).length = 8 := by simp [clearChip]

@[simp] theorem initChip_length (cfg : Config) (c : Nat) : (initChip cfg c).length = cfg.dtPulse.length + 9 := by
  simp [initChip]

/-- Every frame of INIT is for a chip and a row that exist. -/
theorem initFrames_inRange (cfg : Config) (n : Nat) : ∀ m ∈ initFrames cfg n, m.inRange n = true := by
  intro m hm
  obtain ⟨c, hc, hm⟩ := List.mem_flatMap.mp hm
  have hc := List.mem_range.mp hc
  simp only [initChip, List.mem_append, List.mem_map, List.mem_singleton] at hm
  rcases hm with (⟨d, -, rfl⟩ | rfl) | hm
  · simp [Micro.inRange, hc]
  · simp [Micro.inRange, hc]
  · exact clearChip_inRange hc m hm

@[simp] theorem initFrames_length (cfg : Config) (n : Nat) :
    (initFrames cfg n).length = (cfg.dtPulse.length + 9) * n := by
  simp [initFrames, List.length_flatMap, Nat.mul_comm]

/-- What the meaning of a command is, by its admission (60_exceptions.md R193) and its operands: an error, a `noop`, the
end of RELEASE, or pseudocode given to the sequencer, all of whose items are in range. -/
inductive Executes (i : Instr) (s : State) : Result → Prop
  | rejected (st : Status) (h : st = .illegalState ∨ st = .useAfterRelease ∧ s.life = .released) :
      Executes i s (.next (raise st (accept i s)))
  | nothing : Executes i s (.next (finish .ok (accept i s)))
  | releases (hl : s.life = .ready) :
      Executes i s (.next (finish .ok { accept i s with life := .released, n := 0#4, sh := none }))
  | launches (ms : List Micro) (hl : s.life = .ready) (hr : ∀ m ∈ ms, m.inRange s.chips = true)
      (hn : ms.length ≤ 8 * s.chips) : Executes i s (launch ms (accept i s))
  | begins (req : Nat) (hl : s.life ≠ .ready) :
      Executes i s (launch (initFrames s.cfg (effLen req)) (beginLife (effLen req) (accept i s)))

/-- A command that runs in `READY` only is its body, or an error. -/
theorem inReady_cases {i : Instr} {body : State → Result} {s : State}
    (h : s.life = .ready → Executes i s (body (accept i s))) : Executes i s (inReady i body s) := by
  cases hl : s.life with
  | ready => exact inReady_runs i body hl ▸ h hl
  | uninit =>
    have : inReady i body s = .next (raise .illegalState (accept i s)) := by simp only [inReady, accept_life, hl]
    exact this ▸ .rejected _ (.inl rfl)
  | released =>
    have : inReady i body s = .next (raise .useAfterRelease (accept i s)) := by simp only [inReady, accept_life, hl]
    exact this ▸ .rejected _ (.inr ⟨rfl, hl⟩)

/-- One item that is in range or else a `noop`. -/
theorem Executes.single {i : Instr} {m : Micro} {s : State} (hl : s.life = .ready)
    (hr : m.inRange s.chips = true → 0 < s.chips)
    (h : m.inRange s.chips = false → ∀ u : State, u.n = s.n → runMicro m u = noop u) :
    Executes i s (launch [m] (accept i s)) := by
  cases hm : m.inRange s.chips with
  | true =>
    have := hr hm
    exact .launches [m] hl (by simpa using hm) (by simp only [List.length_singleton]; omega)
  | false =>
    rw [launch_noop (accept_seq i s) (h hm)]
    exact .nothing

/-- A SET_ROW out of range is a `noop` (43_pattern.md R139). -/
theorem setRow_noop {chip row : Nat} {v : Byte} {u : State} (h : Micro.inRange u.chips (.setRow chip row v) = false) :
    runMicro (.setRow chip row v) u = noop u := by
  simp only [runMicro, setRowBody, validChip]
  exact if_neg (by simpa [Micro.inRange] using h)

/-- A SET_CELL out of range is a `noop` (43_pattern.md R137). -/
theorem setCell_noop {chip row col : Nat} {lit : Bool} {u : State}
    (h : Micro.inRange u.chips (.setCell chip row col lit) = false) :
    runMicro (.setCell chip row col lit) u = noop u := by
  simp only [runMicro, setCellBody, validChip]
  exact if_neg (by simpa [Micro.inRange] using h)

/-- SET_POWER, SET_SCAN_LIMIT and SET_INTENSITY after their admission (42_chip_config.md R115, R118). -/
theorem sendControl_cases {i : Instr} {chip : Nat} {guarded : Bool} {reg : Reg} {d : Byte} {s : State}
    (hl : s.life = .ready) : Executes i s (sendControl chip guarded reg d (accept i s)) := by
  unfold sendControl
  split
  · rename_i hc
    have hc : chip < s.chips := of_decide_eq_true hc
    split
    · exact .launches _ hl (by simpa [Micro.inRange] using hc) (by simp only [List.length_singleton]; omega)
    · exact .nothing
  · exact .nothing

/-- SET_ROW_ALL after its admission: its row is there, or its first SET_ROW is a `noop` (43_pattern.md R140). -/
theorem setRowAll_cases {i : Instr} {row : Nat} {v : Byte} {s : State} (hl : s.life = .ready) :
    Executes i s (launch ((List.range s.chips).map fun c => .setRow c row v) (accept i s)) := by
  by_cases hr : row ≤ 7 ∨ s.chips = 0
  · refine .launches _ hl (fun m hm => ?_) (by simp only [List.length_map, List.length_range]; omega)
    obtain ⟨c, hc, rfl⟩ := List.mem_map.mp hm
    have hc := List.mem_range.mp hc
    simp [Micro.inRange, validRow, hc, show row ≤ 7 by omega]
  · obtain ⟨k, hk⟩ : ∃ k, s.chips = k + 1 := ⟨s.chips - 1, by omega⟩
    rw [hk, List.range_succ_eq_map, List.map_cons, launch_noop (accept_seq i s)]
    · exact .nothing
    · intro u _
      exact setRow_noop (by simp [Micro.inRange, validRow, show ¬ row ≤ 7 by omega])

/-- SET_COLUMN after its admission: its chip and column are there, or its first SET_CELL is a `noop` (43_pattern.md
R141). -/
theorem setColumn_cases {i : Instr} {chip col : Nat} {v : Byte} {s : State} (hl : s.life = .ready) :
    Executes i s (launch ((List.range 8).map fun r => .setCell chip r col (columnBit v r)) (accept i s)) := by
  by_cases h : chip < s.chips ∧ col ≤ 7
  · obtain ⟨hc, hk⟩ := h
    refine .launches _ hl (fun m hm => ?_) (by simp only [List.length_map, List.length_range]; omega)
    obtain ⟨r, hr, rfl⟩ := List.mem_map.mp hm
    have hr := List.mem_range.mp hr
    simp [Micro.inRange, validRow, validCol, hc, hk, show r ≤ 7 by omega]
  · rw [List.range_succ_eq_map, List.map_cons, launch_noop (accept_seq i s)]
    · exact .nothing
    · intro u hu
      have hu : u.chips = s.chips := by simp [State.chips, hu]
      refine setCell_noop ?_
      simp only [Micro.inRange, validRow, validCol, hu]
      simpa using h

/-- Every row of every chip is in range in DRAW (44_rasterizer.md R160). -/
theorem drawFrames_inRange (n : Nat) : ∀ m ∈ drawFrames n, m.inRange n = true := by
  intro m hm
  obtain ⟨r, hr, hm⟩ := List.mem_flatMap.mp hm
  obtain ⟨c, hc, rfl⟩ := List.mem_map.mp hm
  have hr := List.mem_range.mp hr
  have hc := List.mem_range.mp hc
  simp [Micro.inRange, validRow, hc, show r ≤ 7 by omega]

/-- The meaning of every command is one of the cases. -/
theorem exec_cases (i : Instr) (s : State) : Executes i s (exec i s) := by
  cases i with
  | init req =>
    simp only [exec, execInit, accept_life, accept_cfg]
    cases hl : s.life with
    | ready => exact .rejected _ (.inl rfl)
    | uninit => exact .begins req (by simp [hl])
    | released => exact .begins req (by simp [hl])
  | setPower chip on => exact inReady_cases sendControl_cases
  | setScanLimit chip limit => exact inReady_cases sendControl_cases
  | setIntensity chip level => exact inReady_cases sendControl_cases
  | clear chip =>
    unfold exec execClear
    refine inReady_cases fun hl => ?_
    split
    · rename_i hc
      have hc : chip < s.chips := of_decide_eq_true hc
      exact .launches _ hl (clearChip_inRange hc) (by simp only [clearChip_length]; omega)
    · exact .nothing
  | clearAll =>
    refine inReady_cases fun hl => .launches _ hl (fun m hm => ?_) ?_
    · obtain ⟨c, hc, hm⟩ := List.mem_flatMap.mp hm
      exact clearChip_inRange (List.mem_range.mp hc) m hm
    · simp [List.length_flatMap, State.chips, Nat.mul_comm]
  | setCell chip row col lit =>
    refine inReady_cases fun hl => .single hl (fun h => ?_) fun h u hu => ?_
    · simp only [Micro.inRange, Bool.and_eq_true, decide_eq_true_eq] at h
      omega
    · exact setCell_noop (by simpa only [State.chips, hu] using h)
  | setRow chip row v =>
    refine inReady_cases fun hl => .single hl (fun h => ?_) fun h u hu => ?_
    · simp only [Micro.inRange, Bool.and_eq_true, decide_eq_true_eq] at h
      omega
    · exact setRow_noop (by simpa only [State.chips, hu] using h)
  | setRowAll row v => exact inReady_cases setRowAll_cases
  | setColumn chip col v => exact inReady_cases setColumn_cases
  | draw =>
    refine inReady_cases fun hl => .launches _ hl (drawFrames_inRange _) ?_
    simp [drawFrames, List.length_flatMap, State.chips]
    omega
  | release =>
    simp only [exec, execRelease, accept_life]
    cases hl : s.life with
    | ready => exact .releases hl
    | uninit => exact .nothing
    | released => exact .nothing

end Sys2Proof.Machine
end

section
/-! PROOFS. The invariant: that every operation of the machine keeps it, and that every step answers a next state. -/

namespace Sys2Proof.Machine

/-! The parts of the invariant in words -/

/-- A command in flight (10_state.md R36): its frame of `2*N` bytes is presented or taken, there is no response, and
what is still to come is in range. -/
structure State.InFlight (s : State) (q : Seq) (f : Frame) : Prop where
  seq : s.seq = some q
  frame : s.frame = some f
  life : s.life = .ready
  length : f.length = 2 * s.chips
  inRange : ∀ m ∈ q.rest, m.inRange s.chips = true
  held : s.txValid = true ∨ s.taken = some f
  rspValid : s.rspValid = false

theorem flightOk_busy {s : State} (hb : s.busy = true) : s.flightOk = true ↔ ∃ q f, s.InFlight q f := by
  constructor
  · intro h
    simp only [State.flightOk, hb] at h
    split at h
    · rename_i q f _ hq hf
      simp only [Bool.and_eq_true, Bool.or_eq_true, beq_iff_eq, List.all_eq_true, Bool.not_eq_true'] at h
      obtain ⟨⟨⟨⟨hl, hn⟩, hr⟩, ht⟩, hv⟩ := h
      exact ⟨q, f, hq, hf, hl, hn, hr, ht, hv⟩
    · rename_i h' _ _; cases h'
    · cases h
  · rintro ⟨q, f, h⟩
    have hr := List.all_eq_true.mpr h.inRange
    simp [State.flightOk, hb, h.seq, h.frame, h.life, h.length, hr, h.held, h.rspValid]

theorem flightOk_idle {s : State} (hb : s.busy = false) :
    s.flightOk = true ↔ s.seq = none ∧ s.frame = none ∧ s.txValid = false := by
  simp only [State.flightOk, hb]
  cases s.seq <;> cases s.frame <;> simp

theorem lifeOk_ready {s : State} (hl : s.life = .ready) :
    s.lifeOk = true ↔ (1 ≤ s.chips ∧ s.chips ≤ 8) ∧ s.sh.isSome = true := by
  simp [State.lifeOk, hl]

theorem lifeOk_not_ready {s : State} (hl : s.life ≠ .ready) :
    s.lifeOk = true ↔ s.n = 0#4 ∧ s.sh = none := by
  cases h : s.life with
  | ready => exact absurd h hl
  | uninit => simp [State.lifeOk, h]
  | released => simp [State.lifeOk, h]

theorem shadowOk_none {s : State} (h : s.sh = none) : s.shadowOk = true := by
  simp [State.shadowOk, h]

theorem shadowOk_some {s : State} {m : Memory} (h : s.sh = some m) :
    s.shadowOk = true ↔ m.wf = true ∧ ∀ c ∈ m, c.1 < 8 * s.chips := by
  simp [State.shadowOk, h]

theorem resetOk_iff {s : State} : s.resetOk = true ↔ s.rstN = true ∨ s.AtReset := by
  simp only [State.resetOk, Bool.or_eq_true, beq_iff_eq]
  refine or_congr_right ⟨fun h => ?_, fun h => ?_⟩
  · have field : ∀ {α : Type} (g : State → α), g (resetLmdc s) = g { s with pix := 0#512 } := fun g => congrArg g h
    exact ⟨(field State.life).symm, (field State.n).symm, (field State.sh).symm, (field State.busy).symm,
      (field State.seq).symm, (field State.frame).symm, (field State.txValid).symm, (field State.cnt).symm,
      (field State.lastStatus).symm, (field State.faultFlag).symm, (field State.rspValid).symm⟩
  · obtain ⟨hlife, hn, hsh, hbusy, hseq, hframe, htx, hcnt, hst, hfault, hrsp⟩ := h
    cases s
    simp_all [resetLmdc]

/-- The reset values, whatever `rst_n`, the transport and the chips are. -/
theorem resetLmdc_atReset (s : State) (level : Bool) (taken : Option Frame) (chain : Chain) :
    { resetLmdc s with rstN := level, taken := taken, chain := chain }.AtReset :=
  ⟨rfl, rfl, rfl, rfl, rfl, rfl, rfl, rfl, rfl, rfl, rfl⟩

/-- The reset values meet the invariant, in reset or out of it. -/
theorem inv_of_atReset {s : State} (h : s.AtReset) (hc : s.chainOk = true) : s.Inv := by
  have hl : s.life ≠ .ready := by simp [h.life]
  exact ⟨(lifeOk_not_ready hl).mpr ⟨h.n, h.sh⟩, shadowOk_none h.sh,
    (flightOk_idle h.busy).mpr ⟨h.seq, h.frame, h.txValid⟩, resetOk_iff.mpr (.inr h), hc⟩

theorem State.Inv.chainOk {s : State} (h : s.Inv) : s.chainOk = true := by
  obtain ⟨-, -, -, -, hc⟩ := h
  exact hc

/-- The invariant of a state out of reset. -/
structure State.Operating (s : State) : Prop where
  rstN : s.rstN = true
  lifeOk : s.lifeOk = true
  shadowOk : s.shadowOk = true
  flightOk : s.flightOk = true
  chainOk : s.chainOk = true

theorem operating_iff {s : State} : s.Operating ↔ s.rstN = true ∧ s.Inv :=
  ⟨fun ⟨hr, hl, hs, hf, hc⟩ => ⟨hr, hl, hs, hf, resetOk_iff.mpr (.inl hr), hc⟩,
    fun ⟨hr, hl, hs, hf, _, hc⟩ => ⟨hr, hl, hs, hf, hc⟩⟩

/-- The inputs still to come do not matter. -/
theorem State.Operating.setInputs {s : State} (h : s.Operating) (es : List Input) : (s.setInputs es).Operating :=
  ⟨h.rstN, h.lifeOk, h.shadowOk, h.flightOk, h.chainOk⟩

/-- With a command in flight the LMDC waits for a report exactly when the frame is not presented any more. -/
theorem State.InFlight.awaitsDone {s : State} {q : Seq} {f : Frame} (h : s.InFlight q f) (hb : s.busy = true) :
    s.awaitsDone = !s.txValid := by
  simp [State.awaitsDone, hb, h.frame]

/-! The chips -/

/-- The list of known registers is sound: in order, of wired chips, and the draw of the unknown ones has been made. -/
structure Chain.Ok (h : Chain) : Prop where
  sorted : Cells.sorted h.creg = true
  wired : ∀ c ∈ h.creg, c.1 < 256 * h.wired.getD 0
  drawn : h.epoch < h.draws

theorem chainOk_iff {s : State} : s.chainOk = true ↔ s.chain.Ok := by
  simp only [State.chainOk, Bool.and_eq_true, List.all_eq_true, decide_eq_true_eq]
  exact ⟨fun ⟨⟨hs, hw⟩, hd⟩ => ⟨hs, hw, hd⟩, fun ⟨hs, hw, hd⟩ => ⟨⟨hs, hw⟩, hd⟩⟩

/-- With every register unknown the list is sound. -/
theorem Chain.ok_of_nil {h : Chain} (hc : h.creg = []) (hd : h.epoch < h.draws) : h.Ok :=
  ⟨by simp [hc], by simp [hc], hd⟩

/-- Latching a frame for all chips keeps the list sound. -/
theorem Chain.Ok.latchChips {h h' : Chain} (ho : h.Ok) {v : Nat → Byte → Byte → Byte} {f : Frame}
    (hw : h'.wired = some (h.size f)) (hc : h'.creg = latchChips v (h.size f) f (h.size f) h.creg)
    (hd : h'.epoch < h'.draws) : h'.Ok := by
  refine ⟨hc ▸ sorted_latchChips _ _ _ _ ho.sorted, fun c hm => ?_, hd⟩
  rw [hc] at hm
  rw [hw, Option.getD_some]
  rcases mem_latchChips hm with hm | hm
  · have := ho.wired c hm
    cases hn : h.wired with
    | none => simp [hn] at this
    | some n => simpa [Chain.size, hn] using this
  · exact hm

/-- The end of a transaction keeps the list sound. -/
theorem Chain.Ok.complete {h : Chain} (ho : h.Ok) (havoc ok : Bool) (f : Frame) : (h.complete havoc ok f).Ok := by
  cases hf : h.fits f with
  | false =>
    rw [complete_of_not_fits hf]
    exact Chain.ok_of_nil rfl (Nat.lt_succ_self _)
  | true =>
    cases ok with
    | true =>
      simp only [Chain.complete, Chain.latch, hf, if_true]
      exact ho.latchChips rfl rfl ho.drawn
    | false =>
      cases havoc with
      | true =>
        simp only [Chain.complete, Chain.fail, hf, if_true, Bool.false_eq_true, if_false]
        exact Chain.ok_of_nil rfl (Nat.lt_succ_self _)
      | false =>
        simp only [Chain.complete, Chain.fail, hf, if_true, Bool.false_eq_true, if_false]
        exact ho.latchChips rfl rfl (Nat.lt_succ_of_lt ho.drawn)

/-- The completion of a frame that no transport holds changes nothing of the chips. -/
theorem completeTaken_chain_none {s : State} (ht : s.taken = none) (ok : Bool) :
    (completeTaken ok s).chain = s.chain := by
  simp [completeTaken, ht]

/-- The chips react to the frame that the transport holds. -/
theorem completeTaken_chain_some {s : State} {f : Frame} (ht : s.taken = some f) (ok : Bool) :
    (completeTaken ok s).chain = s.chain.complete s.cfg.havocOnFail ok f := by
  simp [completeTaken, ht]

theorem completeTaken_chainOk {s : State} (h : s.chainOk = true) (ok : Bool) : (completeTaken ok s).chainOk = true := by
  rw [chainOk_iff] at h ⊢
  cases ht : s.taken with
  | none => rwa [completeTaken_chain_none ht]
  | some f =>
    rw [completeTaken_chain_some ht]
    exact h.complete _ _ _

/-! The sequencer -/

/-- A write to a byte of the shadow keeps its canonical form and its bound. -/
theorem shadowOk_write {s t : State} {j : Nat} {v : Byte} (h : s.shadowOk = true) (hj : s.shadowHas j = true)
    (hn : t.n = s.n) (ht : t.sh = s.sh.map fun m => m.write j v) : t.shadowOk = true := by
  simp only [State.shadowHas, Bool.and_eq_true, decide_eq_true_eq] at hj
  obtain ⟨m, hm⟩ := Option.isSome_iff_exists.mp hj.1
  obtain ⟨hw, hb⟩ := (shadowOk_some hm).mp h
  have hn : t.chips = s.chips := congrArg BitVec.toNat hn
  rw [hm] at ht
  refine (shadowOk_some ht).mpr ⟨Memory.wf_write hw _ _, fun c hc => hn ▸ ?_⟩
  rcases Memory.mem_write hc with rfl | hc
  · exact hj.2
  · exact hb c hc

/-- An item of pseudocode keeps the shadow's canonical form and its bound. -/
theorem runMicro_shadowOk {m : Micro} {s t : State} (h : s.shadowOk = true) (ht : runMicro m s = .next t) :
    t.shadowOk = true := by
  obtain rfl | ⟨sh, f, rfl, rfl | ⟨j, v, hj, rfl⟩⟩ := runMicro_cases ht
  · exact h
  · exact h
  · exact shadowOk_write h hj rfl rfl

/-- A command between two frames: nothing is presented, and the items still to come are in range. -/
structure State.Between (s : State) (i : Instr) (ms : List Micro) : Prop where
  rstN : s.rstN = true
  lifeOk : s.lifeOk = true
  shadowOk : s.shadowOk = true
  chainOk : s.chainOk = true
  life : s.life = .ready
  busy : s.busy = true
  seq : s.seq = some ⟨i, ms⟩
  inRange : ∀ m ∈ ms, m.inRange s.chips = true
  frame : s.frame = none
  txValid : s.txValid = false
  rspValid : s.rspValid = false

/-- Between two frames the sequencer ends the command or presents the next frame, and the invariant holds again. -/
theorem State.Between.advance {s : State} {i : Instr} {ms : List Micro} (h : s.Between i ms) :
    ∃ t, advance s = .next t ∧ t.Operating := by
  cases ms with
  | nil =>
    refine ⟨finish .ok s, by simp only [Machine.advance, h.seq], h.rstN, h.lifeOk, h.shadowOk, ?_, h.chainOk⟩
    exact (flightOk_idle rfl).mpr ⟨rfl, h.frame, h.txValid⟩
  | cons m ms =>
    obtain ⟨hm, hms⟩ := List.forall_mem_cons.mp h.inRange
    obtain ⟨hn, hs⟩ := (lifeOk_ready h.life).mp h.lifeOk
    obtain ⟨f, sh, ht, hf, hsh⟩ := runMicro_inRange (s := { s with seq := some ⟨i, ms⟩ }) hm hs
    refine ⟨{ s with seq := some ⟨i, ms⟩, sh := sh, frame := some f, txValid := true }, ?_, h.rstN, ?_, ?_, ?_,
      h.chainOk⟩
    · simp only [Machine.advance, h.seq, ht]
    · exact (lifeOk_ready (s := { s with sh := sh }) h.life).mpr ⟨hn, hsh⟩
    · exact runMicro_shadowOk (s := { s with seq := some ⟨i, ms⟩ }) h.shadowOk ht
    · refine (flightOk_busy (s := { s with seq := some ⟨i, ms⟩, frame := some f, txValid := true }) h.busy).mpr ?_
      exact ⟨⟨i, ms⟩, f, rfl, rfl, h.life, hf, hms, .inl rfl, h.rspValid⟩

/-! The transport -/

/-- The taking of a frame keeps the invariant. -/
theorem State.Operating.onTxIssue {s : State} (h : s.Operating) : (onTxIssue s).Operating := by
  refine ⟨h.rstN, h.lifeOk, h.shadowOk, ?_, h.chainOk⟩
  cases hb : s.busy with
  | false =>
    obtain ⟨hq, hf, -⟩ := (flightOk_idle hb).mp h.flightOk
    exact (flightOk_idle (s := Machine.onTxIssue s) hb).mpr ⟨hq, hf, rfl⟩
  | true =>
    obtain ⟨q, f, hi⟩ := (flightOk_busy hb).mp h.flightOk
    refine (flightOk_busy (s := Machine.onTxIssue s) hb).mpr
      ⟨q, f, hi.seq, hi.frame, hi.life, hi.length, hi.inRange, .inr ?_, hi.rspValid⟩
    rcases hi.held with hv | ht
    · simp [Machine.onTxIssue, hv, hi.frame]
    · simp [Machine.onTxIssue, ht, hi.frame]

/-- The completion of a frame the LMDC does not wait for keeps the invariant. -/
theorem State.Operating.completeTaken {s : State} (h : s.Operating) (ha : s.awaitsDone = false) (ok : Bool) :
    (completeTaken ok s).Operating := by
  refine ⟨h.rstN, h.lifeOk, h.shadowOk, ?_, completeTaken_chainOk h.chainOk ok⟩
  cases hb : s.busy with
  | false => exact (flightOk_idle (s := Machine.completeTaken ok s) hb).mpr ((flightOk_idle hb).mp h.flightOk)
  | true =>
    obtain ⟨q, f, hi⟩ := (flightOk_busy hb).mp h.flightOk
    have hv : s.txValid = true := by simpa [hi.awaitsDone hb] using ha
    exact (flightOk_busy (s := Machine.completeTaken ok s) hb).mpr
      ⟨q, f, hi.seq, hi.frame, hi.life, hi.length, hi.inRange, .inl hv, hi.rspValid⟩

/-- The end of a transaction leaves its command between two frames. -/
theorem State.Operating.between {s : State} (h : s.Operating) (ha : s.awaitsDone = true) (ok : Bool) (cnt : BitVec 8) :
    ∃ i ms, { Machine.completeTaken ok s with frame := none, cnt := cnt }.Between i ms := by
  have hb : s.busy = true := by
    simp only [State.awaitsDone, Bool.and_eq_true] at ha
    exact ha.1.1
  obtain ⟨⟨i, ms⟩, f, hi⟩ := (flightOk_busy hb).mp h.flightOk
  have hv : s.txValid = false := by simpa [hi.awaitsDone hb] using ha
  exact ⟨i, ms, h.rstN, h.lifeOk, h.shadowOk, completeTaken_chainOk h.chainOk ok, hi.life, hb, hi.seq, hi.inRange, rfl,
    hv, hi.rspValid⟩

/-- A command that a failed transaction ends leaves the invariant, of INIT after its own handler. -/
theorem State.Between.raise_transportFail {s : State} {i : Instr} {ms : List Micro} (h : s.Between i ms) :
    (raise .transportFail s).Operating := by
  obtain hr | hr := Machine.raise_transportFail s <;> rw [hr]
  · exact ⟨h.rstN, rfl, rfl, (flightOk_idle rfl).mpr ⟨rfl, h.frame, h.txValid⟩, h.chainOk⟩
  · exact ⟨h.rstN, h.lifeOk, h.shadowOk, (flightOk_idle rfl).mpr ⟨rfl, h.frame, h.txValid⟩, h.chainOk⟩

/-- Every act of the transport answers a next state that keeps the invariant. -/
theorem State.Operating.onTransport {s : State} (h : s.Operating) (e : TxEvent) :
    ∃ t, onTransport e s = .next t ∧ t.Operating := by
  cases e with
  | issue => exact ⟨_, rfl, h.onTxIssue⟩
  | done ok =>
    simp only [Machine.onTransport]
    cases ha : s.awaitsDone with
    | false => exact ⟨_, onTxDone_stray ha ok, h.completeTaken ha ok⟩
    | true =>
      rw [onTxDone_awaited ha]
      cases ok with
      | true =>
        obtain ⟨i, ms, hb⟩ := h.between ha true (s.cnt + 1#8)
        exact hb.advance
      | false =>
        obtain ⟨i, ms, hb⟩ := h.between ha false s.cnt
        exact ⟨_, rfl, hb.raise_transportFail⟩

/-- Running on answers a next state that keeps the invariant. -/
theorem State.Operating.settle {s : State} (h : s.Operating) (es : List Input) :
    ∃ t, settle es s = .next t ∧ t.Operating :=
  settle_answers (fun fs _ h => h.setInputs fs) (fun e _ h => h.onTransport e) es h

/-! An accepted command -/

/-- Pseudocode in range, given to the sequencer between two frames, answers a next state that meets the invariant. -/
theorem State.Between.launch {s : State} {i : Instr} {ms : List Micro} (h : (s.withRest ms).Between i ms) :
    ∃ t, launch ms s = .next t ∧ t.Operating := by
  obtain ⟨u, hu, ho⟩ := h.advance
  rw [launch_eq, hu]
  exact ho.settle u.inputs

/-- A command that ends at once without a frame leaves the invariant, if `LIFE`, `N` and `SH` still agree. -/
theorem operating_finish {s : State} (st : Status) (hr : s.rstN = true) (hl : s.lifeOk = true) (hs : s.shadowOk = true)
    (hf : s.frame = none) (hv : s.txValid = false) (hc : s.chainOk = true) : (finish st s).Operating :=
  ⟨hr, hl, hs, (flightOk_idle rfl).mpr ⟨rfl, hf, hv⟩, hc⟩

/-- The number of chips that INIT declares (41_lifecycle.md R100). -/
theorem beginLife_chips {n : Nat} (hn : n ≤ 8) (s : State) : (beginLife n s).chips = n := by
  simp only [State.chips, beginLife_n, BitVec.toNat_ofNat]
  omega

/-- A command accepted on a ready port answers a next state that meets the invariant. -/
theorem State.Operating.exec {s : State} (h : s.Operating) (hc : s.cmdReady = true) (i : Instr) :
    ∃ t, exec i s = .next t ∧ t.Operating := by
  obtain ⟨hb, hrsp, -⟩ := (cmdReady_iff s).mp hc
  obtain ⟨-, hf, hv⟩ := (flightOk_idle hb).mp h.flightOk
  have hx := exec_cases i s
  generalize Machine.exec i s = r at hx ⊢
  cases hx with
  | rejected st hst =>
    have hne : st ≠ .transportFail := by rcases hst with rfl | ⟨rfl, -⟩ <;> simp
    exact ⟨_, rfl, raise_of_ne_transportFail hne _ ▸
      operating_finish st h.rstN h.lifeOk h.shadowOk hf hv h.chainOk⟩
  | nothing => exact ⟨_, rfl, operating_finish .ok h.rstN h.lifeOk h.shadowOk hf hv h.chainOk⟩
  | releases hl => exact ⟨_, rfl, operating_finish .ok h.rstN rfl rfl hf hv h.chainOk⟩
  | launches ms hl hr hn =>
    exact State.Between.launch (i := i)
      ⟨h.rstN, h.lifeOk, h.shadowOk, h.chainOk, hl, rfl, rfl, hr, hf, hv, hrsp⟩
  | begins req hl =>
    obtain ⟨h1, h8⟩ := effLen_bounds req
    have hn := beginLife_chips h8 (accept i s)
    refine State.Between.launch (i := i) ⟨h.rstN, ?_, rfl, h.chainOk, rfl, rfl, rfl, ?_, hf, hv, hrsp⟩
    · exact (lifeOk_ready rfl).mpr ⟨hn.symm ▸ ⟨h1, h8⟩, rfl⟩
    · exact hn.symm ▸ initFrames_inRange _ _

/-! The step -/

/-- Every input out of reset answers a next state that meets the invariant. -/
theorem State.Operating.onInput {s : State} (h : s.Operating) (e : Input) : ∃ t, onInput e s = .next t ∧ t.Inv := by
  have inv : ∀ {t : State}, t.Operating → t.Inv := fun h => (operating_iff.mp h).2
  cases e with
  | rst level =>
    cases level with
    | true => exact ⟨_, rfl, inv h⟩
    | false => exact ⟨_, rfl, inv_of_atReset (resetLmdc_atReset s false _ _) h.chainOk⟩
  | command w p =>
    cases hc : s.cmdReady with
    | false => exact ⟨_, onCommand_ignored w p hc, inv h⟩
    | true =>
      have hp : { s with pixIn := p }.Operating := ⟨h.rstN, h.lifeOk, h.shadowOk, h.flightOk, h.chainOk⟩
      cases hd : decodeWord w with
      | some i =>
        obtain ⟨t, ht, ho⟩ := hp.exec hc i
        exact ⟨t, (onCommand_runs p hc hd).trans ht, inv ho⟩
      | none =>
        obtain ⟨hb, -, -⟩ := (cmdReady_iff s).mp hc
        obtain ⟨-, hf, hv⟩ := (flightOk_idle hb).mp h.flightOk
        refine ⟨endIllegal { s with pixIn := p }, by simp only [Machine.onInput, onCommand, hc, if_true, hd], inv ?_⟩
        rw [endIllegal, raise_of_ne_transportFail (by simp)]
        exact operating_finish .illegalCmd h.rstN h.lifeOk h.shadowOk hf hv h.chainOk
  | takeResponse =>
    refine ⟨_, rfl, inv ⟨h.rstN, h.lifeOk, h.shadowOk, ?_, h.chainOk⟩⟩
    cases hb : s.busy with
    | false => exact (flightOk_idle (s := onTakeResponse s) hb).mpr ((flightOk_idle hb).mp h.flightOk)
    | true =>
      obtain ⟨q, f, hi⟩ := (flightOk_busy hb).mp h.flightOk
      exact (flightOk_busy (s := onTakeResponse s) hb).mpr
        ⟨q, f, hi.seq, hi.frame, hi.life, hi.length, hi.inRange, hi.held, rfl⟩
  | tx e =>
    obtain ⟨u, hu, ho⟩ := h.onTransport e
    obtain ⟨t, ht, ho⟩ := ho.settle u.inputs
    exact ⟨t, by simp only [Machine.onInput, hu, andThen_next, ht], inv ho⟩

/-- In reset every input leaves the LMDC at its reset values. -/
theorem onInputHeld_atReset (e : Input) (s : State) : (onInputHeld e (resetLmdc s)).AtReset := by
  cases e with
  | rst level => exact resetLmdc_atReset s level _ _
  | command w p => exact resetLmdc_atReset s _ _ _
  | takeResponse => exact resetLmdc_atReset s _ _ _
  | tx e =>
    cases e with
    | issue => exact resetLmdc_atReset s _ _ _
    | done ok => exact resetLmdc_atReset s _ _ _

/-- In reset every input leaves the chip register list sound. -/
theorem onInputHeld_chainOk {s : State} (h : s.chainOk = true) (e : Input) :
    (onInputHeld e (resetLmdc s)).chainOk = true := by
  cases e with
  | rst level => exact h
  | command w p => exact h
  | takeResponse => exact h
  | tx e =>
    cases e with
    | issue => exact h
    | done ok => exact completeTaken_chainOk (s := resetLmdc s) h ok

/-- Settles O53: each operation of the machine keeps the invariant, so that no item of pseudocode is out of range. -/
theorem stepKeepsInvariant : Obligations.StepKeepsInvariant := by
  intro s h
  have hc := h.chainOk
  cases hr : s.rstN with
  | true =>
    have ho : s.Operating := operating_iff.mpr ⟨hr, h⟩
    cases hi : s.inputs with
    | nil => exact ⟨s, step_waits hr hi, h⟩
    | cons e rest =>
      rw [step_input hr hi]
      exact (ho.setInputs rest).onInput e
  | false =>
    cases hi : s.inputs with
    | nil =>
      exact ⟨_, step_held_waits hr hi, inv_of_atReset (resetLmdc_atReset s _ _ _) hc⟩
    | cons e rest =>
      exact ⟨_, step_held hr hi,
        inv_of_atReset (onInputHeld_atReset e _) (onInputHeld_chainOk (s := s.setInputs rest) hc e)⟩

end Sys2Proof.Machine
end

section
/-! PROOFS. What a step can do, said once, and what follows of the single fields: which of them a command in flight, an
accepted command and a step leave alone. -/

namespace Sys2Proof.Machine

/-! The step by its next input -/

/-- What a step out of reset can do: wait, use up an input whose handshake is not enabled, enter reset, run a command or
end an illegal one, have the response taken, or go on with an act of the transport. -/
inductive Steps (s : State) : State → Prop
  | waits (hi : s.inputs = []) : Steps s s
  | skips {e : Input} {rest : List Input} (hi : s.inputs = e :: rest)
      (he : e = .rst true ∨ ∃ w p, e = .command w p ∧ s.cmdReady = false) : Steps s (s.setInputs rest)
  | resets {rest : List Input} (hi : s.inputs = .rst false :: rest) :
      Steps s { resetLmdc (s.setInputs rest) with rstN := false }
  | executes {w : CmdWord} {p : Plane} {rest : List Input} {i : Instr} {t : State}
      (hi : s.inputs = .command w p :: rest) (hc : s.cmdReady = true) (hd : decodeWord w = some i)
      (h : exec i { s.setInputs rest with pixIn := p } = .next t) : Steps s t
  | illegal {w : CmdWord} {p : Plane} {rest : List Input} (hi : s.inputs = .command w p :: rest)
      (hc : s.cmdReady = true) (hd : decodeWord w = none) :
      Steps s (endIllegal { s.setInputs rest with pixIn := p })
  | takes {rest : List Input} (hi : s.inputs = .takeResponse :: rest) : Steps s (onTakeResponse (s.setInputs rest))
  | transports {e : TxEvent} {rest : List Input} {u t : State} (hi : s.inputs = .tx e :: rest)
      (hu : onTransport e (s.setInputs rest) = .next u) (h : settle u.inputs u = .next t) : Steps s t

theorem step_cases {s t : State} (hr : s.rstN = true) (h : step s = .next t) : Steps s t := by
  cases hi : s.inputs with
  | nil =>
    rw [step_waits hr hi] at h
    exact Host.Outcome.next.inj h ▸ .waits hi
  | cons e rest =>
    rw [step_input hr hi] at h
    cases e with
    | rst level =>
      obtain rfl := Host.Outcome.next.inj h
      cases level with
      | true => exact .skips hi (.inl rfl)
      | false => exact .resets hi
    | command w p =>
      simp only [onInput] at h
      cases hc : s.cmdReady with
      | false =>
        rw [onCommand_ignored (s := s.setInputs rest) w p hc] at h
        exact Host.Outcome.next.inj h ▸ .skips hi (.inr ⟨w, p, rfl, hc⟩)
      | true =>
        cases hd : decodeWord w with
        | some i => exact .executes hi hc hd (onCommand_runs (s := s.setInputs rest) p hc hd ▸ h)
        | none =>
          have hc' : (s.setInputs rest).cmdReady = true := hc
          simp only [onCommand, hc', if_true, hd] at h
          exact Host.Outcome.next.inj h ▸ .illegal hi hc hd
    | takeResponse => exact Host.Outcome.next.inj h ▸ .takes hi
    | tx e =>
      obtain ⟨u, hu, h⟩ := andThen_eq_next h
      exact .transports hi hu h

/-- In reset a step leaves the parameters, and the chips but for the completion of a frame the transport holds. -/
theorem step_held_cases {s t : State} (hr : s.rstN = false) (h : step s = .next t) : t.AtReset ∧ t.cfg = s.cfg ∧
    (t.chain = s.chain ∨ ∃ ok rest, s.inputs = .tx (.done ok) :: rest ∧ t.chain = (completeTaken ok s).chain) := by
  cases hi : s.inputs with
  | nil =>
    rw [step_held_waits hr hi] at h
    exact Host.Outcome.next.inj h ▸ ⟨resetLmdc_atReset s _ _ _, rfl, .inl rfl⟩
  | cons e rest =>
    rw [step_held hr hi] at h
    obtain rfl := Host.Outcome.next.inj h
    refine ⟨onInputHeld_atReset e _, ?_⟩
    cases e with
    | rst level => exact ⟨rfl, .inl rfl⟩
    | command w p => exact ⟨rfl, .inl rfl⟩
    | takeResponse => exact ⟨rfl, .inl rfl⟩
    | tx e =>
      cases e with
      | issue => exact ⟨rfl, .inl rfl⟩
      | done ok => exact ⟨rfl, .inr ⟨ok, rest, rfl, rfl⟩⟩

/-! What no transaction undoes -/

/-- The number of chips stays once it is known, and so does a fault of the wiring. -/
structure Chain.Later (h h' : Chain) : Prop where
  wired : ∀ n, h.wired = some n → h'.wired = some n
  miswired : h.miswired = true → h'.miswired = true

theorem Chain.Later.refl (h : Chain) : h.Later h := ⟨fun _ => id, id⟩

theorem Chain.Later.trans {h h' h'' : Chain} (a : h.Later h') (b : h'.Later h'') : h.Later h'' :=
  ⟨fun n hn => b.wired n (a.wired n hn), fun hm => b.miswired (a.miswired hm)⟩

theorem completeTaken_later (ok : Bool) (s : State) : s.chain.Later (completeTaken ok s).chain := by
  cases ht : s.taken with
  | none => exact completeTaken_chain_none ht ok ▸ .refl _
  | some f =>
    rw [completeTaken_chain_some ht]
    exact ⟨fun n hn => complete_wired hn _ _ _, fun hm => complete_miswired hm _ _ _⟩

/-! A command in flight -/

/-- What a command leaves alone as it runs on: the parameters, `PIX`, `rst_n` and `FAULT`; `LIFE` and `N`, but for the
failure of INIT; a response that is there; and `LAST_STATUS` until it ends. -/
structure State.RunsTo (s t : State) : Prop where
  cfg : t.cfg = s.cfg
  pix : t.pix = s.pix
  rstN : t.rstN = s.rstN
  faultFlag : t.faultFlag = s.faultFlag
  chain : s.chain.Later t.chain
  life : (t.life = s.life ∧ t.n = s.n) ∨ t.life = .uninit
  rspValid : s.rspValid = true → t.rspValid = true
  lastStatus : t.busy = true → s.busy = true ∧ t.lastStatus = s.lastStatus

theorem State.RunsTo.refl (s : State) : s.RunsTo s :=
  ⟨rfl, rfl, rfl, rfl, .refl _, .inl ⟨rfl, rfl⟩, id, fun hb => ⟨hb, rfl⟩⟩

theorem State.RunsTo.trans {s t u : State} (a : s.RunsTo t) (b : t.RunsTo u) : s.RunsTo u where
  cfg := b.cfg.trans a.cfg
  pix := b.pix.trans a.pix
  rstN := b.rstN.trans a.rstN
  faultFlag := b.faultFlag.trans a.faultFlag
  chain := a.chain.trans b.chain
  life := by
    rcases b.life with ⟨hl, hn⟩ | hl
    · exact a.life.imp (fun ⟨hl', hn'⟩ => ⟨hl.trans hl', hn.trans hn'⟩) hl.trans
    · exact .inr hl
  rspValid := fun h => b.rspValid (a.rspValid h)
  lastStatus := fun h =>
    have ⟨hb, hs⟩ := b.lastStatus h
    have ⟨hb', hs'⟩ := a.lastStatus hb
    ⟨hb', hs.trans hs'⟩

theorem runsTo_finish (st : Status) (s : State) : s.RunsTo (finish st s) :=
  ⟨rfl, rfl, rfl, rfl, .refl _, .inl ⟨rfl, rfl⟩, fun _ => rfl, fun hb => by cases hb⟩

theorem runsTo_raise_transportFail (s : State) : s.RunsTo (raise .transportFail s) := by
  rcases raise_transportFail s with hr | hr <;> rw [hr]
  · exact ⟨rfl, rfl, rfl, rfl, .refl _, .inr rfl, fun _ => rfl, fun hb => by cases hb⟩
  · exact runsTo_finish _ s

theorem Advances.runsTo {s t : State} (h : Advances s t) : s.RunsTo t := by
  cases h with
  | idle hq => exact .refl s
  | ends => exact runsTo_finish _ s
  | presents hq sh f => exact ⟨rfl, rfl, rfl, rfl, .refl _, .inl ⟨rfl, rfl⟩, id, fun hb => ⟨hb, rfl⟩⟩

theorem completeTaken_runsTo (ok : Bool) (s : State) : s.RunsTo (completeTaken ok s) :=
  ⟨rfl, rfl, rfl, rfl, completeTaken_later ok s, .inl ⟨rfl, rfl⟩, id, fun hb => ⟨hb, rfl⟩⟩

/-- The LMDC's part of a report does not touch the frame and the count in any other way than it says. -/
theorem runsTo_endFrame (s : State) (cnt : BitVec 8) : s.RunsTo { s with frame := none, cnt := cnt } :=
  ⟨rfl, rfl, rfl, rfl, .refl _, .inl ⟨rfl, rfl⟩, id, fun hb => ⟨hb, rfl⟩⟩

/-- What comes after the chips' reaction to a report. -/
theorem onTransport_done_runsTo {ok : Bool} {s t : State} (h : onTransport (.done ok) s = .next t) :
    (completeTaken ok s).RunsTo t := by
  cases onTransport_cases h with
  | stray ok ha => exact .refl _
  | fails ha => exact (runsTo_endFrame (completeTaken false s) s.cnt).trans (runsTo_raise_transportFail _)
  | goesOn ha h => exact (runsTo_endFrame (completeTaken true s) (s.cnt + 1#8)).trans h.runsTo

theorem onTransport_runsTo {e : TxEvent} {s t : State} (h : onTransport e s = .next t) : s.RunsTo t := by
  cases e with
  | issue =>
    obtain rfl := Host.Outcome.next.inj h
    exact ⟨rfl, rfl, rfl, rfl, .refl _, .inl ⟨rfl, rfl⟩, id, fun hb => ⟨hb, rfl⟩⟩
  | done ok => exact (completeTaken_runsTo ok s).trans (onTransport_done_runsTo h)

theorem setInputs_runsTo (es : List Input) (s : State) : s.RunsTo (s.setInputs es) :=
  ⟨rfl, rfl, rfl, rfl, .refl _, .inl ⟨rfl, rfl⟩, id, fun hb => ⟨hb, rfl⟩⟩

theorem settle_runsTo {es : List Input} {s t : State} (h : settle es s = .next t) : s.RunsTo t :=
  settle_keeps (P := s.RunsTo) (fun fs u hu => hu.trans (setInputs_runsTo fs u))
    (fun _ _ _ _ _ hu h => hu.trans (onTransport_runsTo h)) (.refl s) h

theorem launch_runsTo {ms : List Micro} {s t : State} (h : launch ms s = .next t) : s.RunsTo t := by
  rw [launch_eq] at h
  obtain ⟨u, hu, h⟩ := andThen_eq_next h
  have hw : s.RunsTo (s.withRest ms) := ⟨rfl, rfl, rfl, rfl, .refl _, .inl ⟨rfl, rfl⟩, id, fun hb => ⟨hb, rfl⟩⟩
  exact (hw.trans (advance_cases hu).runsTo).trans (settle_runsTo h)

/-! An accepted command, and any step out of reset -/

/-- What an input other than reset leaves alone: the parameters and `rst_n`; `N` while `LIFE` stays `READY`; `FAULT`,
but for USE_AFTER_RELEASE; and `LAST_STATUS` while a command is in flight afterwards. -/
structure State.StepsTo (s t : State) : Prop where
  cfg : t.cfg = s.cfg
  rstN : t.rstN = s.rstN
  chain : s.chain.Later t.chain
  length : s.life = .ready → t.life = .ready → t.n = s.n
  faultFlag : t.faultFlag = s.faultFlag ∨
    t.faultFlag = true ∧ s.life = .released ∧ t.lastStatus = .useAfterRelease
  lastStatus : t.busy = true → t.lastStatus = s.lastStatus

/-- A state that differs from the first one at most in `LIFE` and `N`, and then a run. -/
theorem State.RunsTo.stepsTo {s u t : State} (h : u.RunsTo t) (hc : u.cfg = s.cfg) (hr : u.rstN = s.rstN)
    (hch : u.chain = s.chain) (hn : s.life = .ready → u.n = s.n) (hf : u.faultFlag = s.faultFlag)
    (hs : u.lastStatus = s.lastStatus) : s.StepsTo t where
  cfg := h.cfg.trans hc
  rstN := h.rstN.trans hr
  chain := hch ▸ h.chain
  length := fun hl hl' => by
    rcases h.life with ⟨-, hn'⟩ | hu
    · exact hn'.trans (hn hl)
    · rw [hl'] at hu
      cases hu
  faultFlag := .inl (h.faultFlag.trans hf)
  lastStatus := fun hb => (h.lastStatus hb).2.trans hs

/-- The next states of a command's meaning, by the cases of `Executes`. -/
theorem exec_next_cases {i : Instr} {s t : State} (h : exec i s = .next t) :
    (∃ st, (st = .illegalState ∨ st = .useAfterRelease ∧ s.life = .released) ∧ t = raise st (accept i s)) ∨
    t = finish .ok (accept i s) ∨
    (s.life = .ready ∧ t = finish .ok { accept i s with life := .released, n := 0#4, sh := none }) ∨
    (∃ ms, s.life = .ready ∧ (∀ m ∈ ms, m.inRange s.chips = true) ∧ ms.length ≤ 8 * s.chips ∧
      launch ms (accept i s) = .next t) ∨
    ∃ req, s.life ≠ .ready ∧
      launch (initFrames s.cfg (effLen req)) (beginLife (effLen req) (accept i s)) = .next t := by
  have hx := exec_cases i s
  generalize exec i s = r at hx h
  cases hx with
  | rejected st hst => exact .inl ⟨st, hst, (Host.Outcome.next.inj h).symm⟩
  | nothing => exact .inr (.inl (Host.Outcome.next.inj h).symm)
  | releases hl => exact .inr (.inr (.inl ⟨hl, (Host.Outcome.next.inj h).symm⟩))
  | launches ms hl hr hn => exact .inr (.inr (.inr (.inl ⟨ms, hl, hr, hn, h⟩)))
  | begins req hl => exact .inr (.inr (.inr (.inr ⟨req, hl, h⟩)))

theorem exec_stepsTo {i : Instr} {s t : State} (h : exec i s = .next t) : s.StepsTo t := by
  obtain ⟨st, hst, rfl⟩ | rfl | ⟨hl, rfl⟩ | ⟨ms, hl, hm, hn, h⟩ | ⟨req, hl, h⟩ := exec_next_cases h
  · have hne : st ≠ .transportFail := by rcases hst with rfl | ⟨rfl, -⟩ <;> simp
    rw [raise_of_ne_transportFail hne]
    refine ⟨rfl, rfl, .refl _, fun _ _ => rfl, ?_, fun hb => by cases hb⟩
    rcases hst with rfl | ⟨rfl, hl⟩
    · exact .inl (by simp)
    · exact .inr ⟨by simp, hl, rfl⟩
  · exact (runsTo_finish .ok (accept i s)).stepsTo rfl rfl rfl (fun _ => rfl) rfl rfl
  · exact ⟨rfl, rfl, .refl _, (fun _ hl => by cases hl), .inl rfl, fun hb => by cases hb⟩
  · exact (launch_runsTo h).stepsTo rfl rfl rfl (fun _ => rfl) rfl rfl
  · exact (launch_runsTo h).stepsTo rfl rfl rfl (fun h => absurd h hl) rfl rfl

theorem exec_pix {i : Instr} {s t : State} (h : exec i s = .next t) : t.pix = (accept i s).pix := by
  obtain ⟨st, hst, rfl⟩ | rfl | ⟨hl, rfl⟩ | ⟨ms, hl, hm, hn, h⟩ | ⟨req, hl, h⟩ := exec_next_cases h
  · exact raise_pix st _
  · rfl
  · rfl
  · exact (launch_runsTo h).pix
  · exact (launch_runsTo h).pix

/-- A word that spells no command changes only `CNT`, `LAST_STATUS` and the response, in a state without a command
(60_exceptions.md R191). -/
theorem endIllegal_eq (s : State) : endIllegal s = finish .illegalCmd { s with cnt := 0#8 } := by
  rw [endIllegal, raise_of_ne_transportFail (by simp)]
  simp [finish]

/-- A step out of reset enters reset, or leaves alone what every other input does. -/
theorem step_stepsTo {s t : State} (hr : s.rstN = true) (h : step s = .next t) :
    (∃ rest, t = { resetLmdc (s.setInputs rest) with rstN := false }) ∨ s.StepsTo t := by
  cases step_cases hr h with
  | waits hi => exact .inr ((State.RunsTo.refl s).stepsTo rfl rfl rfl (fun _ => rfl) rfl rfl)
  | skips hi he => exact .inr ((setInputs_runsTo _ s).stepsTo rfl rfl rfl (fun _ => rfl) rfl rfl)
  | resets hi => exact .inl ⟨_, rfl⟩
  | executes hi hc hd h =>
    obtain ⟨hcfg, hrst, hchain, hlen, hfault, hst⟩ := exec_stepsTo h
    exact .inr ⟨hcfg, hrst, hchain, hlen, hfault, hst⟩
  | illegal hi hc hd =>
    rw [endIllegal_eq]
    exact .inr ((runsTo_finish _ _).stepsTo rfl rfl rfl (fun _ => rfl) rfl rfl)
  | takes hi => exact .inr ⟨rfl, rfl, .refl _, fun _ _ => rfl, .inl rfl, fun _ => rfl⟩
  | transports hi hu h =>
    exact .inr (((onTransport_runsTo hu).trans (settle_runsTo h)).stepsTo rfl rfl rfl (fun _ => rfl) rfl rfl)

/-- Every step, in reset or out of it, leaves the parameters and what no transaction undoes. -/
theorem step_cfg_later {s t : State} (h : step s = .next t) : t.cfg = s.cfg ∧ s.chain.Later t.chain := by
  cases hr : s.rstN with
  | true =>
    rcases step_stepsTo hr h with ⟨rest, rfl⟩ | hs
    · exact ⟨rfl, .refl _⟩
    · exact ⟨hs.cfg, hs.chain⟩
  | false =>
    obtain ⟨-, hc, hch | ⟨ok, rest, -, hch⟩⟩ := step_held_cases hr h
    · exact ⟨hc, hch ▸ .refl _⟩
    · exact ⟨hc, hch ▸ completeTaken_later ok s⟩

/-- Settles O59. -/
theorem parametersFixed : Obligations.ParametersFixed := by
  intro s t h
  obtain ⟨hc, hl⟩ := step_cfg_later h
  refine ⟨hc, ?_⟩
  cases hw : s.chain.wired with
  | none => exact .inl rfl
  | some n => exact .inr (hl.wired n hw)

/-- Settles O57: out of `READY` and back within a step there is no way, since INIT is not admitted in `READY`. -/
theorem lengthFixedWhileReady : Obligations.LengthFixedWhileReady := by
  intro s t hr h hl hl'
  rcases step_stepsTo hr h with ⟨rest, rfl⟩ | hs
  · cases hl'
  · exact hs.length hl hl'

/-! The faults -/

/-- A completed frame for another number of chips than are wired is a fault of the wiring (45_chain_environment.md
R177). -/
theorem completeTaken_miswired {s : State} {f : Frame} {n : Nat} (ht : s.taken = some f)
    (hw : s.chain.wired = some n) (hf : f.length ≠ 2 * n) (ok : Bool) :
    (completeTaken ok s).chain.miswired = true := by
  have hfit : s.chain.fits f = false := by
    rw [← Bool.not_eq_true, fits_iff hw]
    exact hf
  rw [completeTaken_chain_some ht, complete_of_not_fits hfit]
  rfl

/-- A step that handles a report leaves no fault of the wiring undone that the completed frame made. -/
theorem step_done_later {s t : State} {ok : Bool} {rest : List Input} (h : step s = .next t)
    (hi : s.inputs = .tx (.done ok) :: rest) : (completeTaken ok s).chain.Later t.chain := by
  cases hr : s.rstN with
  | true =>
    rw [step_input hr hi] at h
    obtain ⟨u, hu, h⟩ := andThen_eq_next h
    exact ((onTransport_done_runsTo hu).trans (settle_runsTo h)).chain
  | false =>
    rw [step_held hr hi] at h
    exact Host.Outcome.next.inj h ▸ .refl _

/-- A state with `FAULT` or a fault of the wiring is faulted, and so not finished. -/
theorem faulted_not_finished {t : State} (h : t.faultFlag = true ∨ t.chain.miswired = true) :
    t.faulted = true ∧ t.finished = false := by
  have hf : t.faulted = true := by rcases h with h | h <;> simp [State.faulted, State.miswired, h]
  exact ⟨hf, by simp [State.finished, hf]⟩

/-- Settles O56. -/
theorem faultStickyUntilReset : Obligations.FaultStickyUntilReset := by
  intro s t h
  refine ⟨fun hr hf hr' => ?_, fun hr hf hf' => ?_, fun hm => (step_cfg_later h).2.miswired hm,
    fun f n ok rest ht hw hl hi => (step_done_later h hi).miswired (completeTaken_miswired ht hw hl ok),
    faulted_not_finished⟩
  · rcases step_stepsTo hr h with ⟨rest, rfl⟩ | hs
    · cases hr'
    · exact hs.faultFlag.elim (·.trans hf) And.left
  · rcases step_stepsTo hr h with ⟨rest, rfl⟩ | hs
    · cases hf'
    · rcases hs.faultFlag with he | ⟨-, hu⟩
      · rw [hf', hf] at he
        cases he
      · exact hu

/-! The chips -/

/-- Nothing in the list can complete a frame: it holds no report, or no frame is held and none is taken. -/
def State.Quiet (es : List Input) (s : State) : Prop :=
  (∀ ok, .tx (.done ok) ∉ es) ∨ (s.taken = none ∧ .tx .issue ∉ es)

theorem State.Quiet.mono {es fs : List Input} {s u : State} (h : s.Quiet es) (hs : ∀ e ∈ fs, e ∈ es)
    (ht : u.taken = s.taken) : u.Quiet fs :=
  h.imp (fun hd ok hm => hd ok (hs _ hm)) fun ⟨hn, hi⟩ => ⟨ht.trans hn, fun hm => hi (hs _ hm)⟩

theorem Advances.environment {s t : State} (h : Advances s t) :
    t.inputs = s.inputs ∧ t.taken = s.taken ∧ t.chain = s.chain := by
  cases h <;> exact ⟨rfl, rfl, rfl⟩

theorem onTransport_keeps_inputs {e : TxEvent} {s t : State} (h : onTransport e s = .next t) : t.inputs = s.inputs := by
  cases onTransport_cases h with
  | issue => rfl
  | stray ok ha => rfl
  | fails ha => simp
  | goesOn ha h => exact h.environment.1

theorem onTransport_quiet {e : TxEvent} {es : List Input} {s t : State} (he : .tx e ∈ es) (hq : s.Quiet es)
    (h : onTransport e s = .next t) : t.chain = s.chain ∧ t.Quiet es := by
  cases e with
  | issue =>
    obtain rfl := Host.Outcome.next.inj h
    rcases hq with hd | ⟨-, hi⟩
    · exact ⟨rfl, .inl hd⟩
    · exact absurd he hi
  | done ok =>
    rcases hq with hd | ⟨hn, hi⟩
    · exact absurd he (hd ok)
    have hc := completeTaken_chain_none hn ok
    cases onTransport_cases h with
    | stray ok ha => exact ⟨hc, .inr ⟨rfl, hi⟩⟩
    | fails ha => exact ⟨(raise_chain _ _).trans hc, .inr ⟨raise_taken _ _, hi⟩⟩
    | goesOn ha h =>
      obtain ⟨-, ht, hch⟩ := h.environment
      exact ⟨hch.trans hc, .inr ⟨ht, hi⟩⟩

theorem settle_quiet {es : List Input} {s t : State} (hq : s.Quiet es) (h : settle es s = .next t) :
    t.chain = s.chain :=
  (settle_keeps (P := fun u => u.chain = s.chain ∧ u.Quiet es) (fun _ _ hu => hu)
    (fun _ _ _ he _ hu h =>
      have ⟨hc, hq⟩ := onTransport_quiet he hu.2 h
      ⟨hc.trans hu.1, hq⟩) ⟨rfl, hq⟩ h).1

theorem launch_quiet {ms : List Micro} {s t : State} (hq : s.Quiet s.inputs) (h : launch ms s = .next t) :
    t.chain = s.chain := by
  rw [launch_eq] at h
  obtain ⟨u, hu, h⟩ := andThen_eq_next h
  obtain ⟨hi, ht, hc⟩ := (advance_cases hu).environment
  exact (settle_quiet (hi ▸ hq.mono (fun _ => id) ht) h).trans hc

theorem exec_quiet {i : Instr} {s t : State} (hq : s.Quiet s.inputs) (h : exec i s = .next t) : t.chain = s.chain := by
  obtain ⟨st, hst, rfl⟩ | rfl | ⟨hl, rfl⟩ | ⟨ms, hl, hm, hn, h⟩ | ⟨req, hl, h⟩ := exec_next_cases h
  · exact raise_chain st _
  · rfl
  · rfl
  · exact launch_quiet (s := accept i s) hq h
  · exact launch_quiet (s := beginLife (effLen req) (accept i s)) hq h

theorem step_quiet {s t : State} (hr : s.rstN = true) (hq : s.Quiet s.inputs) (h : step s = .next t) :
    t.chain = s.chain := by
  have tail : ∀ {e rest}, s.inputs = e :: rest → ∀ x ∈ rest, x ∈ s.inputs := fun hi x hx =>
    hi ▸ List.mem_cons_of_mem _ hx
  cases step_cases hr h with
  | waits hi => rfl
  | skips hi he => rfl
  | resets hi => rfl
  | @executes w p rest i _ hi hc hd h =>
    exact exec_quiet (s := { s with pixIn := p, inputs := rest }) (hq.mono (tail hi) rfl) h
  | illegal hi hc hd => exact raise_chain _ _
  | takes hi => rfl
  | @transports e rest u _ hi hu h =>
    have he : .tx e ∈ s.inputs := hi ▸ List.mem_cons_self
    obtain ⟨hc, hq'⟩ := onTransport_quiet (s := s.setInputs rest) he hq hu
    have hin := onTransport_keeps_inputs hu
    exact (settle_quiet (hq'.mono (fun x hx => tail hi x (by simpa [hin] using hx)) rfl) h).trans hc

/-! Only commands change the state -/

theorem step_pix {s t : State} (hr : s.rstN = true) (h : step s = .next t) (hr' : t.rstN = true) :
    t.pix = s.pix ∨ ∃ w rest, s.inputs = .command w t.pix :: rest ∧ s.cmdReady = true ∧ decodeWord w = some .draw := by
  cases step_cases hr h with
  | waits hi => exact .inl rfl
  | skips hi he => exact .inl rfl
  | resets hi => cases hr'
  | @executes w p rest i _ hi hc hd h =>
    have hp := exec_pix h
    by_cases hdraw : i = .draw
    · rw [accept_pix, if_pos hdraw] at hp
      exact .inr ⟨w, rest, hp ▸ hi, hc, hdraw ▸ hd⟩
    · rw [accept_pix, if_neg hdraw] at hp
      exact .inl hp
  | illegal hi hc hd => exact .inl (raise_pix _ _)
  | takes hi => exact .inl rfl
  | transports hi hu h => exact .inl ((onTransport_runsTo hu).trans (settle_runsTo h)).pix

theorem step_rspValid {s t : State} (hr : s.rstN = true) (h : step s = .next t) (hr' : t.rstN = true)
    (hv : s.rspValid = true) : t.rspValid = true ∨ s.inputs.head? = some .takeResponse := by
  have notReady : s.cmdReady ≠ true := by simp [cmdReady_iff, hv]
  cases step_cases hr h with
  | waits hi => exact .inl hv
  | skips hi he => exact .inl hv
  | resets hi => cases hr'
  | executes hi hc hd h => exact absurd hc notReady
  | illegal hi hc hd => exact absurd hc notReady
  | takes hi => exact .inr (by simp [hi])
  | transports hi hu h => exact .inl (((onTransport_runsTo hu).trans (settle_runsTo h)).rspValid hv)

/-- With no command in flight an act of the transport is the taking of a frame or a report to the chips. -/
theorem onTransport_idle {e : TxEvent} {s t : State} (hb : s.busy = false) (h : onTransport e s = .next t) :
    e = .issue ∧ t = onTxIssue s ∨ ∃ ok, e = .done ok ∧ t = completeTaken ok s := by
  have idle : s.awaitsDone ≠ true := by simp [State.awaitsDone, hb]
  cases onTransport_cases h with
  | issue => exact .inl ⟨rfl, rfl⟩
  | stray ok ha => exact .inr ⟨ok, rfl, rfl⟩
  | fails ha => exact absurd ha idle
  | goesOn ha h => exact absurd ha idle

/-- What a step leaves alone that accepts no command and finds none in flight. -/
structure State.IdlesTo (s t : State) : Prop where
  life : t.life = s.life
  n : t.n = s.n
  sh : t.sh = s.sh
  lastStatus : t.lastStatus = s.lastStatus
  faultFlag : t.faultFlag = s.faultFlag
  cnt : t.cnt = s.cnt
  busy : t.busy = false
  seq : t.seq = s.seq
  frame : t.frame = s.frame
  inputs : t.inputs = s.inputs.tail
  rspValid : t.rspValid = s.rspValid ∨ s.inputs.head? = some .takeResponse
  txValid : t.txValid = s.txValid ∨ s.inputs.head? = some (.tx .issue)
  taken : t.taken = s.taken ∨ s.txValid = true ∧ s.inputs.head? = some (.tx .issue) ∨
    ∃ ok, s.inputs.head? = some (.tx (.done ok))
  chain : t.chain = s.chain ∨ ∃ ok f, s.inputs.head? = some (.tx (.done ok)) ∧ s.taken = some f ∧
    t.chain = s.chain.complete s.cfg.havocOnFail ok f

theorem step_idlesTo {s t : State} (hr : s.rstN = true) (h : step s = .next t) (hr' : t.rstN = true)
    (hb : s.busy = false) (hc : ∀ w p rest, s.inputs = .command w p :: rest → s.cmdReady = false) : s.IdlesTo t := by
  have notReady : ∀ {w p rest}, s.inputs = .command w p :: rest → s.cmdReady ≠ true := fun hi => by simp [hc _ _ _ hi]
  cases step_cases hr h with
  | waits hi =>
    exact ⟨rfl, rfl, rfl, rfl, rfl, rfl, hb, rfl, rfl, by simp [hi], .inl rfl, .inl rfl, .inl rfl, .inl rfl⟩
  | skips hi he =>
    exact ⟨rfl, rfl, rfl, rfl, rfl, rfl, hb, rfl, rfl, by simp [hi], .inl rfl, .inl rfl, .inl rfl, .inl rfl⟩
  | resets hi => cases hr'
  | executes hi hc hd h => exact absurd hc (notReady hi)
  | illegal hi hc hd => exact absurd hc (notReady hi)
  | takes hi =>
    exact ⟨rfl, rfl, rfl, rfl, rfl, rfl, hb, rfl, rfl, by simp [hi], .inr (by simp [hi]), .inl rfl, .inl rfl, .inl rfl⟩
  | @transports e rest u _ hi hu h =>
    obtain ⟨rfl, rfl⟩ | ⟨ok, rfl, rfl⟩ := onTransport_idle (s := s.setInputs rest) hb hu
    · rw [settle_idle (s := onTxIssue (s.setInputs rest)) hb] at h
      obtain rfl := Host.Outcome.next.inj h
      have hh : s.inputs.head? = some (.tx .issue) := by simp [hi]
      refine ⟨rfl, rfl, rfl, rfl, rfl, rfl, hb, rfl, rfl, by simp [hi], .inl rfl, .inr hh, ?_, .inl rfl⟩
      cases hv : s.txValid with
      | true => exact .inr (.inl ⟨rfl, hh⟩)
      | false => exact .inl (by simp [onTxIssue, hv])
    · rw [settle_idle (s := completeTaken ok (s.setInputs rest)) hb] at h
      obtain rfl := Host.Outcome.next.inj h
      have hh : s.inputs.head? = some (.tx (.done ok)) := by simp [hi]
      refine ⟨rfl, rfl, rfl, rfl, rfl, rfl, hb, rfl, rfl, by simp [hi], .inl rfl, .inl rfl, .inr (.inr ⟨ok, hh⟩), ?_⟩
      cases ht : s.taken with
      | none => exact .inl (completeTaken_chain_none (s := s.setInputs rest) ht ok)
      | some f => exact .inr ⟨ok, f, hh, rfl, completeTaken_chain_some (s := s.setInputs rest) ht ok⟩

/-- Settles O58. -/
theorem onlyCommandsChangeState : Obligations.OnlyCommandsChangeState := by
  intro s t hr h hr'
  refine ⟨step_pix hr h hr', step_rspValid hr h hr', fun hb hc => ?_, fun hb => ?_, fun hq => step_quiet hr hq h⟩
  · obtain ⟨hlife, hn, hsh, hst, hfault, hcnt, hbusy, hseq, hframe, hin, hrsp, htx, htaken, hchain⟩ :=
      step_idlesTo hr h hr' hb hc
    exact ⟨hlife, hn, hsh, hst, hfault, hcnt, hbusy, hseq, hframe, hin, hrsp, htx, htaken, hchain⟩
  · rcases step_stepsTo hr h with ⟨rest, rfl⟩ | hs
    · cases hr'
    · exact hs.lastStatus hb

/-! The count -/

/-- The bound in words. -/
theorem countOk_iff {s : State} : s.countOk = true ↔ (s.busy = true → ∀ q, s.seq = some q →
    s.cnt.toNat + q.rest.length + 1 ≤ (s.cfg.dtPulse.length + 9) * 8) := by
  unfold State.countOk
  cases s.busy <;> cases s.seq <;> simp

theorem countOk_idle {s : State} (hb : s.busy = false) : s.countOk = true :=
  countOk_iff.mpr fun h => by simp [hb] at h

/-- The sequencer takes one item off: what was to come may be one more than the bound leaves room for. -/
theorem Advances.countOk {s t : State} (h : Advances s t) (hq : ∀ q, s.seq = some q →
    s.cnt.toNat + q.rest.length ≤ (s.cfg.dtPulse.length + 9) * 8) : t.countOk = true := by
  cases h with
  | idle hn => exact countOk_iff.mpr fun _ q h => by simp [hn] at h
  | ends => exact countOk_idle rfl
  | @presents i m ms hn sh f =>
    refine countOk_iff.mpr fun _ q h => ?_
    obtain rfl := Option.some.inj h
    exact hq _ hn

/-- With a pulse of at most 22 frames a success does not make `CNT` wrap. -/
theorem onTransport_countOk {e : TxEvent} {s t : State} (hd : s.cfg.dtPulse.length ≤ 22) (hc : s.countOk = true)
    (h : onTransport e s = .next t) : t.countOk = true := by
  cases onTransport_cases h with
  | issue => exact hc
  | stray ok ha => exact hc
  | fails ha => exact countOk_idle (raise_busy _ _)
  | goesOn ha h =>
    simp only [State.awaitsDone, Bool.and_eq_true] at ha
    obtain ⟨⟨hb, -⟩, -⟩ := ha
    refine h.countOk fun q hq => ?_
    have bound := countOk_iff.mp hc hb q hq
    have fits := Nat.mul_le_mul_right 8 (Nat.add_le_add_right hd 9)
    simp only [completeTaken_cfg, BitVec.toNat_add, BitVec.toNat_ofNat]
    omega

theorem settle_countOk {es : List Input} {s t : State} (hd : s.cfg.dtPulse.length ≤ 22) (hc : s.countOk = true)
    (h : settle es s = .next t) : t.countOk = true :=
  (settle_keeps (P := fun u => u.cfg.dtPulse.length ≤ 22 ∧ u.countOk = true) (fun _ _ hu => hu)
    (fun _ _ _ _ _ ⟨hd, hc⟩ h => ⟨(onTransport_runsTo h).cfg ▸ hd, onTransport_countOk hd hc h⟩) ⟨hd, hc⟩ h).2

theorem launch_countOk {ms : List Micro} {s t : State} (hd : s.cfg.dtPulse.length ≤ 22) (h0 : s.cnt = 0#8)
    (hm : ms.length ≤ (s.cfg.dtPulse.length + 9) * 8) (h : launch ms s = .next t) : t.countOk = true := by
  rw [launch_eq] at h
  obtain ⟨u, hu, h⟩ := andThen_eq_next h
  have ha := advance_cases hu
  refine settle_countOk (ha.runsTo.cfg ▸ hd) (ha.countOk fun q hq => ?_) h
  obtain ⟨q, -, rfl⟩ := Option.map_eq_some_iff.mp hq
  simpa [State.withRest, h0] using hm

/-- No command has more transactions than INIT on 8 chips. -/
theorem exec_countOk {i : Instr} {s t : State} (hok : s.lifeOk = true) (hd : s.cfg.dtPulse.length ≤ 22)
    (h : exec i s = .next t) : t.countOk = true := by
  obtain ⟨st, hst, rfl⟩ | rfl | ⟨hl, rfl⟩ | ⟨ms, hl, hm, hn, h⟩ | ⟨req, hl, h⟩ := exec_next_cases h
  · exact countOk_idle (raise_busy st _)
  · exact countOk_idle rfl
  · exact countOk_idle rfl
  · obtain ⟨⟨-, h8⟩, -⟩ := (lifeOk_ready hl).mp hok
    have hms : ms.length ≤ (s.cfg.dtPulse.length + 9) * 8 := by omega
    exact launch_countOk (s := accept i s) hd rfl hms h
  · have hms := Nat.mul_le_mul_left (s.cfg.dtPulse.length + 9) (effLen_bounds req).2
    exact launch_countOk (s := beginLife (effLen req) (accept i s)) hd rfl ((initFrames_length _ _).trans_le hms) h

/-- Settles O55. -/
theorem countNeverWraps : Obligations.CountNeverWraps := by
  intro s t hinv hd hc h
  obtain ⟨hl, -⟩ := hinv
  cases hr : s.rstN with
  | false => exact countOk_idle (step_held_cases hr h).1.busy
  | true =>
    cases step_cases hr h with
    | waits hi => exact hc
    | skips hi he => exact hc
    | resets hi => exact countOk_idle rfl
    | @executes w p rest i _ hi hc' hd' h => exact exec_countOk (s := { s with pixIn := p, inputs := rest }) hl hd h
    | illegal hi hc hd' => exact countOk_idle (raise_busy _ _)
    | takes hi => exact hc
    | @transports e rest u _ hi hu h =>
      exact settle_countOk ((onTransport_runsTo hu).cfg ▸ hd) (onTransport_countOk (s := s.setInputs rest) hd hc hu) h

end Sys2Proof.Machine
end

section
/-! PROOFS. Reset, the ports and the status word. -/

namespace Sys2Proof.Machine

/-! Reset -/

/-- The machine right after reset is at its reset values. -/
theorem reset_atReset : State.reset.AtReset := resetLmdc_atReset State.reset true none Chain.initial

/-- Settles O1: the fields of `State.reset`, and the status word made of them. -/
theorem resetValues : Obligations.ResetValues := by
  obtain ⟨hlife, hn, hsh, hbusy, hseq, hframe, htx, hcnt, hst, hfault, hrsp⟩ := reset_atReset
  exact ⟨hlife, hn, hsh, hbusy, hseq, hframe, htx, hcnt, hst, hfault, hrsp, by decide⟩

/-- Settles O2: reset values meet the invariant, and without a command in flight there is nothing to count. -/
theorem resetMeetsInvariant : Obligations.ResetMeetsInvariant :=
  ⟨inv_of_atReset reset_atReset rfl, countOk_idle rfl⟩

/-! The status word -/

/-- A field of a word is what its bits are. -/
theorem extractLsb'_eq_of_bits {w start len : Nat} {x : BitVec w} {y : BitVec len}
    (h : ∀ i, i < len → x.getLsbD (start + i) = y.getLsbD i) : x.extractLsb' start len = y :=
  BitVec.eq_of_getLsbD_eq fun i hi => by simpa [BitVec.getLsbD_extractLsb', hi] using h i hi

/-- Every bit of `status_out` (10_state.md R30). -/
theorem statusOut_bit (s : State) (i : Nat) :
    s.statusOut.getLsbD i =
      if i < 2 then s.life.code.getLsbD i
      else if i = 2 then s.busy
      else if i = 3 then false
      else if i < 7 then s.lastStatus.code.getLsbD (i - 4)
      else if i = 7 then s.faultFlag
      else if i < 12 then s.n.getLsbD (i - 8)
      else false := by
  unfold State.statusOut
  simp only [BitVec.getLsbD_append, BitVec.getLsbD_ofBool]
  by_cases h : i < 12
  · interval_cases i <;> simp
  · simp [h, show ¬ i < 2 by omega, show ¬ i = 2 by omega, show ¬ i = 3 by omega, show ¬ i < 7 by omega,
      show ¬ i = 7 by omega, show ¬ i - 2 < 1 by omega, show ¬ i - 2 - 1 < 1 by omega,
      show ¬ i - 2 - 1 - 1 < 3 by omega, show ¬ i - 2 - 1 - 1 - 3 < 1 by omega,
      show ¬ i - 2 - 1 - 1 - 3 - 1 < 4 by omega]

/-- Settles O6: field by field from the bits of the word. -/
theorem statusWordFields : Obligations.StatusWordFields := by
  refine ⟨fun s => ⟨extractLsb'_eq_of_bits fun i hi => ?_, statusOut_bit s 2, statusOut_bit s 3,
    extractLsb'_eq_of_bits fun i hi => ?_, statusOut_bit s 7, extractLsb'_eq_of_bits fun i hi => ?_,
    extractLsb'_eq_of_bits fun i hi => ?_⟩, rfl, rfl, rfl, rfl, rfl, rfl, rfl, rfl⟩
  all_goals
    rw [statusOut_bit]
    interval_cases i <;> rfl

/-! The frame port -/

/-- Byte `i` of a frame on bits `8i` to `8i+7` of `tx_data` (10_state.md R25). -/
theorem packFrame_lane (f : Frame) {i : Nat} (hi : i < 16) :
    (packFrame f).extractLsb' (8 * i) 8 = f.getD i 0x00#8 := by
  induction f generalizing i with
  | nil => simp [packFrame]
  | cons b f ih =>
    refine extractLsb'_eq_of_bits fun j hj => ?_
    simp only [packFrame, BitVec.getLsbD_or, BitVec.getLsbD_shiftLeft, BitVec.getLsbD_setWidth]
    cases i with
    | zero => simp [hj, show j < 128 by omega]
    | succ i =>
      have hb : b.getLsbD (8 * (i + 1) + j) = false := BitVec.getLsbD_of_ge _ _ (by omega)
      have hf := congrArg (·.getLsbD j) (ih (i := i) (by omega))
      simp only [BitVec.getLsbD_extractLsb', hj, decide_true, Bool.true_and] at hf
      simp only [List.getD_cons_succ, ← hf, hb, Bool.and_false, Bool.or_false,
        show 8 * (i + 1) + j - 8 = 8 * i + j by omega, show 8 * (i + 1) + j < 128 by omega,
        show ¬ 8 * (i + 1) + j < 8 by omega, decide_true, decide_false, Bool.not_false, Bool.true_and]

/-- A frame in flight has at most 16 bytes (20_memory.md R52). -/
theorem State.InFlight.length_le {s : State} {q : Seq} {f : Frame} (h : s.InFlight q f) (hl : s.lifeOk = true) :
    f.length ≤ 16 := by
  obtain ⟨⟨-, h8⟩, -⟩ := (lifeOk_ready h.life).mp hl
  have := h.length
  omega

/-- Settles O7. -/
theorem txDataLanes : Obligations.TxDataLanes := by
  refine ⟨fun f i hi => packFrame_lane f hi, fun s hv => by simp [State.txPort, hv], fun s hinv hv => ?_⟩
  obtain ⟨hl, -, hflight, -⟩ := hinv
  cases hb : s.busy with
  | false =>
    obtain ⟨-, -, hv'⟩ := (flightOk_idle hb).mp hflight
    rw [hv] at hv'
    cases hv'
  | true =>
    obtain ⟨q, f, hi⟩ := (flightOk_busy hb).mp hflight
    have h16 := hi.length_le hl
    refine ⟨f, BitVec.ofNat 5 f.length, hi.frame, by simp [State.txPort, hv, hi.frame], ?_, hi.length⟩
    exact (BitVec.toNat_ofNat _ _).trans (Nat.mod_eq_of_lt (by omega))

/-! The other inputs -/

/-- Settles O5: the chips react to the frame the transport holds, and the LMDC does not. -/
theorem strayCompletionIgnored : Obligations.StrayCompletionIgnored := by
  intro s ok hr ha hi
  have hstray : onTransport (.done ok) (s.setInputs []) = .next (completeTaken ok (s.setInputs [])) :=
    onTxDone_stray (s := s.setInputs []) ha ok
  refine ⟨completeTaken ok (s.setInputs []), ?_, rfl, fun ht => completeTaken_chain_none ht ok,
    fun f ht => completeTaken_chain_some ht ok⟩
  rw [step_input hr hi, onInput, hstray]
  rfl

/-- Settles O8: the port is not ready. -/
theorem commandNeedsReady : Obligations.CommandNeedsReady := by
  intro s w p rest hr hb hi
  have hc : (s.setInputs rest).cmdReady = false := by rcases hb with h | h <;> simp [State.cmdReady, h]
  rw [step_input hr hi]
  exact onCommand_ignored w p hc

/-- Settles O9. -/
theorem responseTaken : Obligations.ResponseTaken :=
  ⟨fun s => ⟨fun hv => by simp [State.response, hv], fun hv => by simp [State.response, hv]⟩,
    fun _ _ hr hi => step_input hr hi⟩

/-- Settles O10. -/
theorem stepRunsCommand : Obligations.StepRunsCommand := by
  intro s w p rest i hc hi hd
  obtain ⟨-, -, hr⟩ := (cmdReady_iff s).mp hc
  rw [step_input hr hi]
  exact onCommand_runs (s := s.setInputs rest) p hc hd

/-- Settles O12. -/
theorem stalledTransportWaits : Obligations.StalledTransportWaits := fun _ hr _ hi => step_waits hr hi

end Sys2Proof.Machine
end

section
/-! PROOFS. The commands of one control frame: SET_POWER, SET_SCAN_LIMIT and SET_INTENSITY, waiting and failed. -/

namespace Sys2Proof.Machine

/-- The end of a transaction rewires no chain of a known length, and fixes an unknown one as the frame's. -/
theorem complete_keeps_wired (h : Chain) {f : Frame} {n : Nat} (hf : f.length = 2 * n) (havoc ok : Bool) :
    (h.complete havoc ok f).wired = h.wired ∨ h.wired = none ∧ (h.complete havoc ok f).wired = some n := by
  cases hw : h.wired with
  | some w => exact .inl (complete_wired hw havoc ok f)
  | none =>
    have ha : h.agrees n = true := by simp [Chain.agrees, hw]
    exact .inr ⟨rfl, size_of_agrees ha hf ▸ (complete_of_fits (fits_of_agrees ha hf) havoc ok).1⟩

/-- A control register of a chip that is there is sent its byte. -/
theorem sendControl_launches {s : State} {chip : Nat} {guarded : Bool} (hc : chip < s.chips) (hg : guarded = true)
    (r : Reg) (d : Byte) : sendControl chip guarded r d s = launch [.send chip r d] s := by
  simp [sendControl, validChip, hc, hg]

/-- The value guard lets everything through without `STRICT_RANGE`, and else the values of the range (42_chip_config.md
R118). -/
theorem inRange_from_zero {strict : Bool} {v : Byte} {hi : Nat} (h : strict = false ∨ v.toNat ≤ hi) :
    inRange strict v 0 hi = true := by
  rcases h with h | h <;> simp [inRange, h]

/-- One frame to a control register is a plan that leaves the shadow as it is. -/
theorem plan_send {cfg : Config} {n : BitVec 4} {pix : Plane} {chip : Nat} {r : Reg} {d : Byte} {f : Frame}
    (hf : encodeFrame n.toNat chip (cfg.reg.addr r) d = some f) (m : Memory) :
    Plan cfg n pix [.send chip r d] (fun _ => m) (fun _ => f) := by
  intro k hk s hcfg hn hpix hm
  obtain rfl : k = 0 := by simpa using hk
  subst hcfg hn
  simp only [List.getElem_cons_zero, runMicro, present, State.chips, hf, ← hm]

/-- The command sends the byte to one register of one chip, and does nothing else after its acceptance. -/
structure SendsControl (i : Instr) (chip : Nat) (r : Reg) (d : Byte) (s : State) : Prop where
  notDraw : i ≠ .draw
  notInit : ∀ req, i ≠ .init req
  exec : exec i s = launch [.send chip r d] (accept i s)

/-- The three commands with operands that pass their checks (42_chip_config.md R116 to R120). -/
theorem sendsControl_of_valid {s : State} {i : Instr} {chip : Nat} {reg d : Byte} (hl : s.life = .ready)
    (hc : chip < s.chips) (h :
      (∃ on : Bool, i = .setPower chip on ∧ reg = s.cfg.reg.shutdown ∧ d = if on then 0x00#8 else 0x01#8) ∨
      (i = .setScanLimit chip d ∧ reg = s.cfg.reg.scanLimit ∧ (s.cfg.strictRange = false ∨ d.toNat ≤ 7)) ∨
      (i = .setIntensity chip d ∧ reg = s.cfg.reg.intensity ∧ (s.cfg.strictRange = false ∨ d.toNat ≤ 15))) :
    ∃ r, s.cfg.reg.addr r = reg ∧ SendsControl i chip r d s := by
  have runs : ∀ {j : Instr} {g : Bool} (r : Reg), g = true →
      inReady j (sendControl chip g r d) s = launch [.send chip r d] (accept j s) := fun {j _} r hg =>
    (inReady_runs _ _ hl).trans (sendControl_launches (s := accept j s) hc hg r d)
  rcases h with ⟨on, rfl, rfl, rfl⟩ | ⟨rfl, rfl, hg⟩ | ⟨rfl, rfl, hg⟩
  · exact ⟨.shutdown, rfl, by simp, by simp, runs .shutdown rfl⟩
  · exact ⟨.scanLimit, rfl, by simp, by simp, runs .scanLimit (inRange_from_zero hg)⟩
  · exact ⟨.intensity, rfl, by simp, by simp, runs .intensity (inRange_from_zero hg)⟩

/-- A ready port in `READY`: the shadow is there, and no response is (10_state.md R26, R24). -/
theorem State.Runs.ports {s : State} (h : s.Runs) :
    (∃ m, s.sh = some m) ∧ s.rspValid = false ∧ s.frame = none ∧ s.txValid = false := by
  obtain ⟨hlife, -, hflight, -⟩ := h.inv
  obtain ⟨hb, hv, -⟩ := (cmdReady_iff s).mp h.cmdReady
  obtain ⟨-, hf, ht⟩ := (flightOk_idle hb).mp hflight
  exact ⟨Option.isSome_iff_exists.mp ((lifeOk_ready h.life).mp hlife).2, hv, hf, ht⟩

section
variable {s : State} {i : Instr} {chip : Nat} {r : Reg} {d : Byte} {f : Frame}

/-- A control command without a reply presents its frame and waits. -/
theorem SendsControl.waits (h : SendsControl i chip r d s) (hs : s.Runs)
    (hf : encodeFrame s.chips chip (s.cfg.reg.addr r) d = some f) (hi : s.inputs = []) :
    ∃ t, Machine.exec i s = .next t ∧ s.Presents t (some f) 0 ∧ s.Keeps t ∧
      t.sh = s.sh ∧ t.pix = s.pix ∧ t.taken = s.taken ∧ t.chain = s.chain := by
  obtain ⟨⟨m, hm⟩, hv, -, -⟩ := hs.ports
  obtain ⟨es, he⟩ := launch_plan_partial (s := accept i s) (i := i) (plan_send hf m) rfl rfl rfl hm rfl rfl rfl 0
    Nat.one_pos [] hi
  refine ⟨_, h.exec.trans he, ⟨rfl, rfl, rfl, rfl, hv, rfl, rfl, rfl⟩, ⟨rfl, rfl, rfl, rfl, rfl, rfl, .inl rfl⟩,
    hm.symm, if_neg h.notDraw, rfl, rfl⟩

/-- A control command whose transaction fails ends TRANSPORT_FAIL. -/
theorem SendsControl.fails (h : SendsControl i chip r d s) (hs : s.Runs)
    (hf : encodeFrame s.chips chip (s.cfg.reg.addr r) d = some f) {rest : List Input}
    (hi : s.inputs = failReply ++ rest) :
    ∃ t, Machine.exec i s = .next t ∧ t.Ended .transportFail 0 ∧ s.Keeps t ∧
      t.sh = s.sh ∧ t.pix = s.pix ∧ t.taken = none ∧ t.inputs = rest ∧
      t.chain = s.chain.fail s.cfg.havocOnFail f := by
  obtain ⟨⟨m, hm⟩, -, -, -⟩ := hs.ports
  obtain ⟨es, he⟩ := launch_plan_failed (s := accept i s) (i := i) (plan_send hf m) rfl rfl rfl hm rfl rfl rfl 0
    Nat.one_pos rest hi
  rw [raise_transportFail_of_ne_init rfl h.notInit] at he
  exact ⟨_, h.exec.trans he, ⟨rfl, rfl, rfl, rfl, rfl, rfl, rfl⟩,
    ⟨rfl, rfl, rfl, rfl, rfl, rfl, complete_keeps_wired s.chain (encodeFrame_length hf) s.cfg.havocOnFail false⟩,
    hm.symm, if_neg h.notDraw, rfl, rfl, rfl⟩

end

/-- Settles O32: each of the three commands is one control frame. -/
theorem chipConfigPartial : Obligations.ChipConfigPartial := by
  intro s i chip reg d hs hc h
  obtain ⟨r, rfl, hsends⟩ := sendsControl_of_valid hs.life hc h
  obtain ⟨f, hf⟩ := Option.isSome_iff_exists.mp
    ((encodeFrame_isSome s.chips chip (s.cfg.reg.addr r) d).trans (decide_eq_true hc))
  rw [hf]
  refine ⟨hsends.waits hs hf, fun rest hi => ?_⟩
  obtain ⟨t, ht, hend, hkeeps, hsh, hpix, htaken, hin, hchain⟩ := hsends.fails hs hf hi
  exact ⟨t, ht, hend, hkeeps, hsh, hpix, htaken, hin, fun g hg => Option.some.inj hg ▸ hchain⟩

end Sys2Proof.Machine
end

section
/-! PROOFS. That running a command in one step makes no difference to its events: how its inputs are cut. -/

namespace Sys2Proof.Machine

/-- Going on with the inputs that were cut off: with those that are left before them, if any are. -/
def goOn (fs : List Input) (t : State) : Result :=
  if t.inputs = [] then settle fs t else .next (t.setInputs (t.inputs ++ fs))

/-- A run that may be cut: on inputs cut in two it does with the first part what it can, and then goes on. -/
def Cuts (run : List Input → Result) : Prop := ∀ es fs, run (es ++ fs) = andThen (run es) (goOn fs)

/-- Running on may be cut: `settle_append`, which is for a state whose own inputs do not matter. -/
theorem cuts_settle (s : State) : Cuts fun x => settle x s := fun es fs => settle_append es fs s

/-- Where no command is in flight the inputs stay, so they may be cut. -/
theorem cuts_idle {s : State} (hb : s.busy = false) : Cuts fun x => .next (s.setInputs x) := by
  simpa only [settle_idle hb] using cuts_settle s

/-- The first item reads no input, and what follows is running on. -/
theorem cuts_launch (ms : List Micro) (s : State) : Cuts fun x => launch ms (s.setInputs x) := by
  have h : ∀ x, launch ms (s.setInputs x) = andThen (advance (s.withRest ms)) (settle x) := fun x => by
    rw [launch_eq, show (s.setInputs x).withRest ms = (s.withRest ms).setInputs x from rfl, advance_inputs]
    cases advance (s.withRest ms) with
    | next t => exact settle_inputs x t x
    | fault e => rfl
    | refused e => rfl
  intro es fs
  simp only [h]
  cases advance (s.withRest ms) with
  | next t => exact cuts_settle t es fs
  | fault e => rfl
  | refused e => rfl

/-- Admission reads no input (60_exceptions.md R193): a command that runs in `READY` only may be cut as its body may. -/
theorem cuts_inReady {i : Instr} {body : State → Result} {s : State}
    (h : Cuts fun x => body ((accept i s).setInputs x)) : Cuts fun x => inReady i body (s.setInputs x) := by
  cases hl : s.life with
  | ready =>
    simp only [inReady_runs i body ((setInputs_life _ s).trans hl)]
    exact h
  | uninit =>
    simp only [inReady, accept_life, setInputs_life, hl]
    exact cuts_idle (s := raise .illegalState (accept i s)) rfl
  | released =>
    simp only [inReady, accept_life, setInputs_life, hl]
    exact cuts_idle (s := raise .useAfterRelease (accept i s)) rfl

/-- A checked body may be cut: the check reads no input, and a `noop` ends the command. -/
theorem cuts_checked {b : Bool} {run : List Input → Result} {s : State} (h : Cuts run) :
    Cuts fun x => if b then run x else noop (s.setInputs x) := by
  cases b with
  | true => exact h
  | false => exact cuts_idle (s := finish .ok s) rfl

theorem cuts_sendControl (chip : Nat) (guarded : Bool) (reg : Reg) (d : Byte) (s : State) :
    Cuts fun x => sendControl chip guarded reg d (s.setInputs x) :=
  cuts_checked (b := validChip s chip) (cuts_checked (cuts_launch _ s))

/-- Every command may be cut. -/
theorem cuts_exec (i : Instr) (s : State) : Cuts fun x => exec i (s.setInputs x) := by
  have launches := fun ms => cuts_launch ms (accept i s)
  have sends := fun chip guarded reg d => cuts_sendControl chip guarded reg d (accept i s)
  cases i with
  | init req =>
    have begins := cuts_launch (initFrames s.cfg (effLen req)) (beginLife (effLen req) (accept (.init req) s))
    simp only [exec, execInit, accept_life, setInputs_life]
    cases s.life with
    | ready => exact cuts_idle (s := raise .illegalState (accept (.init req) s)) rfl
    | uninit => exact begins
    | released => exact begins
  | setPower chip on => exact cuts_inReady (sends chip true .shutdown (powerData on))
  | setScanLimit chip limit => exact cuts_inReady (sends chip (inRange s.cfg.strictRange limit 0 7) .scanLimit limit)
  | setIntensity chip level =>
    exact cuts_inReady (sends chip (inRange s.cfg.strictRange level 0x0 0xF) .intensity level)
  | clear chip =>
    unfold exec execClear
    exact cuts_inReady (cuts_checked (b := validChip s chip) (launches (clearChip chip)))
  | clearAll =>
    unfold exec execClearAll
    exact cuts_inReady (launches ((List.range s.chips).flatMap clearChip))
  | setCell chip row col lit => exact cuts_inReady (launches [.setCell chip row col lit])
  | setRow chip row v => exact cuts_inReady (launches [.setRow chip row v])
  | setRowAll row v =>
    unfold exec execSetRowAll
    exact cuts_inReady (launches ((List.range s.chips).map fun c => .setRow c row v))
  | setColumn chip col v =>
    exact cuts_inReady (launches ((List.range 8).map fun r => .setCell chip r col (columnBit v r)))
  | draw =>
    unfold exec execDraw
    exact cuts_inReady (launches (drawFrames s.chips))
  | release =>
    simp only [exec, execRelease, accept_life, setInputs_life]
    cases s.life with
    | ready =>
      exact cuts_idle (s := finish .ok { accept .release s with life := .released, n := 0#4, sh := none }) rfl
    | uninit => exact cuts_idle (s := finish .ok (accept .release s)) rfl
    | released => exact cuts_idle (s := finish .ok (accept .release s)) rfl

/-- Running on stops before an input that is not the transport's. -/
theorem settle_not_tx {fs : List Input} (h : ∀ e rest, fs ≠ .tx e :: rest) (s : State) :
    settle fs s = .next (s.setInputs fs) := by
  cases fs with
  | nil => rfl
  | cons e rest =>
    cases e with
    | tx e => exact absurd rfl (h e rest)
    | rst l => rfl
    | command w p => rfl
    | takeResponse => rfl

/-- Settles O60: a command, and a step that finds one in flight, are running on. -/
theorem commandRunsEventByEvent : Obligations.CommandRunsEventByEvent := by
  refine ⟨fun s i es fs hi => ?_, fun s e rest hr hb hi => step_in_flight hr hb hi, fun s e es fs hr hb hi => ?_,
    fun s fs h => h.elim (fun hb => settle_idle hb fs) fun hn => settle_not_tx hn s⟩
  · have h := cuts_exec i s es fs
    rwa [← hi] at h
  · rw [step_in_flight hr hb hi, step_in_flight (s := s.setInputs (.tx e :: es)) hr hb rfl, settle_inputs, hi]
    exact cuts_settle s (.tx e :: es) fs

end Sys2Proof.Machine
end

section
/-! PROOFS. A command of `READY` that is a plan, after any number of successful transactions: waiting, and failed. -/

namespace Sys2Proof.Machine

/-- A ready port in `READY` and a command that is a plan there: the items it gives the sequencer take the shadow through
`mem` and present `frames`, each a frame for all chips. -/
structure State.RunsPlan (s : State) (i : Instr) (ms : List Micro) (mem : Nat → Memory) (frames : Nat → Frame) :
    Prop where
  runs : s.Runs
  notInit : ∀ req, i ≠ .init req
  exec : exec i s = launch ms (accept i s)
  shadow : s.sh = some (mem 0)
  plan : Plan s.cfg s.n (accept i s).pix ms mem frames
  length : ∀ k, k < ms.length → (frames k).length = 2 * s.chips

/-- Keeping a known number of chips, and fixing an unknown one as `n`, compose. -/
theorem keeps_wired_trans {a b c : Option Nat} {n : Nat} (hb : b = a ∨ a = none ∧ b = some n)
    (hc : c = b ∨ b = none ∧ c = some n) : c = a ∨ a = none ∧ c = some n := by
  rcases hc with rfl | ⟨rfl, rfl⟩
  · exact hb
  · rcases hb with rfl | ⟨-, hb⟩
    · exact .inr ⟨rfl, rfl⟩
    · cases hb

/-- Frames for `n` chips rewire no chain of a known length, and fix an unknown one as `n` chips. -/
theorem chainAfter_keeps_wired {h : Chain} {frames : Nat → Frame} {n k : Nat}
    (hf : ∀ j, j < k → (frames j).length = 2 * n) :
    (chainAfter h frames k).wired = h.wired ∨ h.wired = none ∧ (chainAfter h frames k).wired = some n := by
  induction k with
  | zero => exact .inl rfl
  | succ k ih =>
    have hlast := complete_keeps_wired (chainAfter h frames k) (hf k k.lt_succ_self) false true
    exact keeps_wired_trans (ih fun j hj => hf j (hj.trans k.lt_succ_self)) hlast

section
variable {s : State} {i : Instr} {ms : List Micro} {mem : Nat → Memory} {frames : Nat → Frame} {k : Nat}

/-- After `k` successful transactions, short of all, the command presents its `k`-th frame and waits. -/
theorem State.RunsPlan.waits (h : s.RunsPlan i ms mem frames) (hk : k < ms.length) (hi : s.inputs = okReplies k) :
    ∃ t, Machine.exec i s = .next t ∧ s.Presents t (some (frames k)) k ∧ s.Keeps t ∧ t.sh = some (mem (k + 1)) ∧
      t.pix = (accept i s).pix ∧ t.taken = (if k = 0 then s.taken else none) ∧
      t.chain = chainAfter s.chain frames k := by
  obtain ⟨-, hv, -, -⟩ := h.runs.ports
  obtain ⟨es, he⟩ := launch_plan_partial (s := accept i s) (i := i) h.plan rfl rfl rfl h.shadow rfl rfl rfl k hk []
    (hi.trans (List.append_nil _).symm)
  exact ⟨_, h.exec.trans he, ⟨rfl, rfl, rfl, rfl, hv, rfl, rfl, rfl⟩,
    ⟨rfl, rfl, rfl, rfl, rfl, rfl, chainAfter_keeps_wired fun j hj => h.length j (hj.trans hk)⟩, rfl, rfl, rfl, rfl⟩

/-- When the transaction after `k` successful ones fails, the command ends TRANSPORT_FAIL with the shadow as its `k`-th
item left it (60_exceptions.md R190). -/
theorem State.RunsPlan.fails (h : s.RunsPlan i ms mem frames) (hk : k < ms.length) {rest : List Input}
    (hi : s.inputs = okReplies k ++ failReply ++ rest) :
    ∃ t, Machine.exec i s = .next t ∧ t.Ended .transportFail k ∧ s.Keeps t ∧ t.sh = some (mem (k + 1)) ∧
      t.pix = (accept i s).pix ∧ t.taken = none ∧ t.inputs = rest ∧
      t.chain = (chainAfter s.chain frames k).fail s.cfg.havocOnFail (frames k) := by
  obtain ⟨es, he⟩ := launch_plan_failed (s := accept i s) (i := i) h.plan rfl rfl rfl h.shadow rfl rfl rfl k hk rest hi
  rw [raise_transportFail_of_ne_init rfl h.notInit] at he
  have hwired := chainAfter_keeps_wired (h := s.chain) fun j hj => h.length j (hj.trans hk)
  have hlast := complete_keeps_wired (chainAfter s.chain frames k) (h.length k hk) s.cfg.havocOnFail false
  exact ⟨_, h.exec.trans he, ⟨rfl, rfl, rfl, rfl, rfl, rfl, rfl⟩,
    ⟨rfl, rfl, rfl, rfl, rfl, rfl, keeps_wired_trans hwired hlast⟩, rfl, rfl, rfl, rfl, rfl⟩

end

end Sys2Proof.Machine
end

section
/-! PROOFS. SET_ROW and SET_CELL, waiting and failed. -/

namespace Sys2Proof.Machine

/-- Which bytes the shadow has does not depend on their values (20_memory.md R45). -/
theorem shadowHas_congr {s t : State} (hn : t.n = s.n) (hs : t.sh.isSome = s.sh.isSome) (j : Nat) :
    t.shadowHas j = s.shadowHas j := by
  rw [State.shadowHas, hs, show t.chips = s.chips from congrArg BitVec.toNat hn, State.shadowHas]

/-- The shadow after a write to one of its bytes: that byte is the one written and every other as before
(20_memory.md R46). -/
theorem shadowByte_write {s t : State} {m : Memory} {a : Nat} {v : Byte} (hok : s.shadowOk = true)
    (hm : s.sh = some m) (ha : s.shadowHas a = true) (hn : t.n = s.n) (ht : t.sh = some (m.write a v)) (j : Nat) :
    t.shadowByte j = if j = a then some v else s.shadowByte j := by
  obtain ⟨hw, -⟩ := (shadowOk_some hm).mp hok
  have hj : t.shadowHas j = s.shadowHas j := shadowHas_congr hn (by rw [hm, ht]; rfl) j
  simp only [State.shadowByte, hj, hm, ht, Option.map_some, Memory.read_write hw]
  by_cases h : j = a
  · subst h
    simp [ha]
  · simp [h, Ne.symm h]

/-- The shadow before and after a command's only write. -/
def writtenOnce (m : Memory) (a : Nat) (v : Byte) : Nat → Memory
  | 0 => m
  | _ + 1 => m.write a v

/-- A SET_ROW of a row that is there writes its byte and presents its frame (43_pattern.md R139). -/
theorem plan_setRow {s : State} {chip row : Nat} {w : Byte} {f : Frame} (hc : chip < s.chips) (hr : row ≤ 7)
    (hf : encodeFrame s.chips chip (s.cfg.reg.addr (.digit row)) w = some f) (m : Memory) (pix : Plane) :
    Plan s.cfg s.n pix [.setRow chip row w] (writtenOnce m (shadowIndex chip row) w) fun _ => f := by
  intro k hk u hcfg hn _ hm
  obtain rfl : k = 0 := by simpa using hk
  have hchips : u.chips = s.chips := congrArg BitVec.toNat hn
  have hcu : chip < u.chips := hchips ▸ hc
  obtain ⟨g, hg, hw⟩ := writeRow_has w hcu (shadowHas_row (by simp [hm]) hcu hr)
  rw [hchips, hcfg, hf] at hg
  obtain rfl := Option.some.inj hg
  simp only [List.getElem_cons_zero, runMicro, setRowBody, validChip, validRow, hcu, hr, decide_true, Bool.and_self,
    if_true, hw, hm]
  rfl

/-- A SET_CELL of a column that is there is the SET_ROW of the updated byte (43_pattern.md R137). -/
theorem runMicro_setCell_eq_setRow {u : State} {chip row col : Nat} {lit : Bool} {v : Byte} (hk : col ≤ 7)
    (hv : u.shadowByte (shadowIndex chip row) = some v) :
    runMicro (.setCell chip row col lit) u = runMicro (.setRow chip row (cellUpdate v col lit)) u := by
  simp only [runMicro, setCellBody, setRowBody, validCol, hk, decide_true, Bool.and_true, shadowGet, hv]

/-- As a plan, too, a SET_CELL is the SET_ROW of the updated byte. -/
theorem plan_setCell {s : State} {chip row col : Nat} {lit : Bool} {v : Byte} {pix : Plane}
    {mem : Nat → Memory} {frames : Nat → Frame} (hk : col ≤ 7) (hm : s.sh = some (mem 0))
    (hv : s.shadowByte (shadowIndex chip row) = some v)
    (hp : Plan s.cfg s.n pix [.setRow chip row (cellUpdate v col lit)] mem frames) :
    Plan s.cfg s.n pix [.setCell chip row col lit] mem frames := by
  intro k hl u hcfg hn hpix hu
  obtain rfl : k = 0 := by simpa using hl
  have huv : u.shadowByte (shadowIndex chip row) = some v := by
    rw [← hv, State.shadowByte, State.shadowByte, shadowHas_congr hn (by rw [hu, hm]), hu, hm]
  exact (runMicro_setCell_eq_setRow hk huv).trans (hp 0 Nat.one_pos u hcfg hn hpix hu)

/-- SET_ROW, or SET_CELL with the updated byte, of a row that is there is a plan of one write and one frame. -/
theorem runsPlan_row {s : State} {i : Instr} {chip row : Nat} {w : Byte} {m : Memory} {f : Frame} (hs : s.Runs)
    (hc : chip < s.chips) (hr : row ≤ 7) (hm : s.sh = some m)
    (hf : encodeFrame s.chips chip (s.cfg.reg.addr (.digit row)) w = some f)
    (hi : i = .setRow chip row w ∨ ∃ col lit v, i = .setCell chip row col lit ∧ col ≤ 7 ∧
      s.shadowByte (shadowIndex chip row) = some v ∧ w = cellUpdate v col lit) :
    i ≠ .draw ∧ ∃ item, s.RunsPlan i [item] (writtenOnce m (shadowIndex chip row) w) fun _ => f := by
  rcases hi with rfl | ⟨col, lit, v, rfl, hk, hv, rfl⟩
  · exact ⟨by simp, .setRow chip row w, hs, by simp, inReady_runs _ _ hs.life, hm, plan_setRow hc hr hf m _,
      fun _ _ => encodeFrame_length hf⟩
  · exact ⟨by simp, .setCell chip row col lit, hs, by simp, inReady_runs _ _ hs.life, hm,
      plan_setCell hk hm hv (plan_setRow hc hr hf m _), fun _ _ => encodeFrame_length hf⟩

/-- Settles O37: each of the two commands is a plan of one write and one frame. -/
theorem rowAndCellPartial : Obligations.RowAndCellPartial := by
  intro s i chip row w hs hc hr hi
  obtain ⟨⟨m, hm⟩, -, -, -⟩ := hs.ports
  obtain ⟨-, hshadow, -⟩ := hs.inv
  obtain ⟨f, hf⟩ := Option.isSome_iff_exists.mp
    ((encodeFrame_isSome s.chips chip (s.cfg.reg.addr (.digit row)) w).trans (decide_eq_true hc))
  obtain ⟨hdraw, item, hplan⟩ := runsPlan_row hs hc hr hm hf hi
  have hpix : (accept i s).pix = s.pix := if_neg hdraw
  have hsh : ∀ t, s.Keeps t → t.sh = some (m.write (shadowIndex chip row) w) →
      ∀ j, t.shadowByte j = if j = chip * 8 + row then some w else s.shadowByte j := fun t ht hw =>
    shadowByte_write hshadow hm (shadowHas_row (by simp [hm]) hc hr) ht.n hw
  rw [hf]
  refine ⟨fun hin => ?_, fun rest hin => ?_⟩
  · obtain ⟨t, ht, hpres, hkeeps, hw, hp, htaken, hchain⟩ := hplan.waits Nat.one_pos hin
    exact ⟨t, ht, hpres, hkeeps, hsh t hkeeps hw, hp.trans hpix, htaken, hchain⟩
  · obtain ⟨t, ht, hend, hkeeps, hw, hp, htaken, hrest, hchain⟩ := hplan.fails Nat.one_pos hin
    exact ⟨t, ht, hend, hkeeps, hsh t hkeeps hw, hp.trans hpix, htaken, hrest,
      fun g hg => Option.some.inj hg ▸ hchain⟩

end Sys2Proof.Machine
end

section
/-! PROOFS. Decoding and encoding of command words (spec/30_encoding.md). The table of R68 is read once: which bits its
rows fix, and that the word of a row's command is the row's match with the word's own bits where the mask is 0. -/

namespace Sys2Proof

/-! The fields of a word -/

theorem extract_a_packWord (op : BitVec 4) (l : Bool) (a b : Nat) (c : Byte) :
    (packWord op l a b c).extractLsb' 16 8 = BitVec.ofNat 8 a :=
  BitVec.eq_of_toNat_eq (fieldA_packWord op l a b c)

theorem extract_b_packWord (op : BitVec 4) (l : Bool) (a b : Nat) (c : Byte) :
    (packWord op l a b c).extractLsb' 8 8 = BitVec.ofNat 8 b :=
  BitVec.eq_of_toNat_eq (fieldB_packWord op l a b c)

/-- The bit `L` of a packed word, as a field. -/
theorem extract_l_packWord (op : BitVec 4) (l : Bool) (a b : Nat) (c : Byte) :
    (packWord op l a b c).extractLsb' 24 1 = BitVec.ofBool l :=
  Machine.extractLsb'_eq_of_bits fun i hi => by
    obtain rfl : i = 0 := by omega
    rw [packWord_bit]
    simp

/-- A word's `L` is its bit 24 (R66). -/
theorem ofBool_fieldL (w : CmdWord) : BitVec.ofBool (fieldL w) = w.extractLsb' 24 1 :=
  .symm <| Machine.extractLsb'_eq_of_bits fun i hi => by
    obtain rfl : i = 0 := by omega
    simp [fieldL]

/-- A word is its six fields (R66). -/
theorem eq_of_fields {x y : CmdWord} (hop : x.extractLsb' 28 4 = y.extractLsb' 28 4)
    (hz : x.extractLsb' 25 3 = y.extractLsb' 25 3) (hl : x.extractLsb' 24 1 = y.extractLsb' 24 1)
    (ha : x.extractLsb' 16 8 = y.extractLsb' 16 8) (hb : x.extractLsb' 8 8 = y.extractLsb' 8 8)
    (hc : x.extractLsb' 0 8 = y.extractLsb' 0 8) : x = y := by
  simp only [← BitVec.toNat_inj, BitVec.extractLsb'_toNat, Nat.shiftRight_eq_div_pow, Nat.reducePow] at *
  omega

/-- A word is packed from its fields when its `Z` is 0. -/
theorem packWord_eq_of_fields {op : BitVec 4} {l : Bool} {a b : Nat} {c : Byte} {w : CmdWord}
    (hop : op = w.extractLsb' 28 4) (hz : 0#3 = w.extractLsb' 25 3) (hl : BitVec.ofBool l = w.extractLsb' 24 1)
    (ha : BitVec.ofNat 8 a = w.extractLsb' 16 8) (hb : BitVec.ofNat 8 b = w.extractLsb' 8 8)
    (hc : c = w.extractLsb' 0 8) : packWord op l a b c = w :=
  eq_of_fields ((op_packWord ..).trans hop) ((z_packWord ..).trans hz) ((extract_l_packWord ..).trans hl)
    ((extract_a_packWord ..).trans ha) ((extract_b_packWord ..).trans hb) ((fieldC_packWord ..).trans hc)

/-! The rows of the table (R68) -/

theorem DecodeRow.spells_iff {r : DecodeRow} {w : CmdWord} : r.spells w = true ↔ w &&& r.mask = r.pattern :=
  beq_iff_eq

/-- Where the mask is all ones, a word that the row spells has the bits of the match. -/
theorem DecodeRow.extract_of_spells {r : DecodeRow} {w : CmdWord} {start len : Nat}
    (hm : r.mask.extractLsb' start len = BitVec.allOnes len) (h : r.spells w = true) :
    w.extractLsb' start len = r.pattern.extractLsb' start len := by
  rw [← DecodeRow.spells_iff.mp h, BitVec.extractLsb'_and, hm, BitVec.and_allOnes]

/-- Every mask covers `OP` and `Z`. -/
theorem decodeRows_mask :
    ∀ r ∈ decodeRows, r.mask.extractLsb' 28 4 = BitVec.allOnes 4 ∧ r.mask.extractLsb' 25 3 = BitVec.allOnes 3 := by
  decide

/-- Every match has a selector of R67 and 0 in `Z`. -/
theorem decodeRows_pattern : ∀ r ∈ decodeRows,
    r.pattern.extractLsb' 28 4 ∉ [0x0#4, 0xD#4, 0xE#4, 0xF#4] ∧ r.pattern.extractLsb' 25 3 = 0#3 := by
  decide

/-- A match has no bit outside its mask. -/
theorem decodeRows_pattern_and_mask : ∀ r ∈ decodeRows, r.pattern &&& r.mask = r.pattern := by decide

/-- Different rows have different selectors (R67). -/
theorem decodeRows_selectors :
    decodeRows.Pairwise fun r q => r.pattern.extractLsb' 28 4 ≠ q.pattern.extractLsb' 28 4 := by
  decide

theorem selector_of_spells {r : DecodeRow} {w : CmdWord} (hr : r ∈ decodeRows) (h : r.spells w = true) :
    w.extractLsb' 28 4 = r.pattern.extractLsb' 28 4 :=
  r.extract_of_spells (decodeRows_mask r hr).1 h

/-- Settles O16: a word has one selector, and different rows have different ones. -/
theorem noWordSpellsTwo : Obligations.NoWordSpellsTwo :=
  decodeRows_selectors.imp_of_mem fun hr hq hne _ ⟨hwr, hwq⟩ =>
    hne ((selector_of_spells hr hwr).symm.trans (selector_of_spells hq hwq))

/-! The decoder over a table (R72) -/

/-- A word that decodes is spelled by a row, and that row builds the command. -/
theorem exists_spells_of_decodeWith {rows : List DecodeRow} {w : CmdWord} {i : Instr}
    (h : decodeWith rows w = some i) : ∃ r ∈ rows, r.spells w = true ∧ r.build w = i := by
  induction rows with
  | nil => cases h
  | cons r rows ih =>
    rw [decodeWith] at h
    split at h
    next hs => exact ⟨r, List.mem_cons_self, hs, Option.some.inj h⟩
    next =>
      obtain ⟨q, hq, hw⟩ := ih h
      exact ⟨q, List.mem_cons_of_mem r hq, hw⟩

/-- Where no word spells two commands, the order of the rows does not matter. -/
theorem decodeWith_of_spells {rows : List DecodeRow} {r : DecodeRow} {w : CmdWord}
    (hp : rows.Pairwise fun r q => ∀ w : CmdWord, ¬ (r.spells w = true ∧ q.spells w = true)) (hr : r ∈ rows)
    (h : r.spells w = true) : decodeWith rows w = some (r.build w) := by
  induction hp with
  | nil => cases hr
  | cons hq _ ih =>
    rw [decodeWith]
    cases hr with
    | head => rw [if_pos h]
    | tail _ hr => rw [if_neg fun hs => hq r hr w ⟨hs, h⟩, ih hr]

/-- Settles O17: a word that decodes has the selector of a row, and 0 in `Z`. -/
theorem reservedWordsIllegal : Obligations.ReservedWordsIllegal := by
  intro w hw
  rw [Option.eq_none_iff_forall_ne_some]
  intro i hi
  obtain ⟨r, hr, hs, -⟩ := exists_spells_of_decodeWith hi
  obtain ⟨hop, hz⟩ := decodeRows_pattern r hr
  rcases hw with hw | hw
  · exact hop (selector_of_spells hr hs ▸ hw)
  · exact hw ((r.extract_of_spells (decodeRows_mask r hr).2 hs).trans hz)

/-! Commands and rows -/

/-- The word of the command a row builds: the row's match, and the bits of `w` that the mask leaves to the operands
(R69). -/
theorem encode_build {r : DecodeRow} (hr : r ∈ decodeRows) (w : CmdWord) :
    encode (r.build w) = r.pattern ||| (w &&& ~~~r.mask) := by
  have and_byte (x : Byte) : x &&& 0xFF#8 = x := BitVec.and_allOnes
  have and_bit (x : BitVec 1) : x &&& 1#1 = x := BitVec.and_allOnes
  unfold decodeRows at hr
  fin_cases hr
  all_goals
    apply packWord_eq_of_fields <;>
      simp [BitVec.extractLsb'_or, BitVec.extractLsb'_and, ofBool_fieldL, fieldA, fieldB, fieldC, and_byte, and_bit,
        -BitVec.extractLsb'_toNat]

/-- A row spells exactly the words of the commands it builds (R68, R69, R70). -/
theorem spells_iff_encode_build {r : DecodeRow} (hr : r ∈ decodeRows) (w : CmdWord) :
    r.spells w = true ↔ encode (r.build w) = w := by
  rw [DecodeRow.spells_iff, encode_build hr]
  constructor
  · intro h
    calc r.pattern ||| (w &&& ~~~r.mask)
        _ = w &&& (r.mask ||| ~~~r.mask) := by rw [← h, BitVec.and_or_distrib_left]
        _ = w := by rw [BitVec.or_not_self, BitVec.and_allOnes]
  · intro h
    calc w &&& r.mask
        _ = (r.pattern ||| (w &&& ~~~r.mask)) &&& r.mask := by rw [h]
        _ = (r.pattern &&& r.mask) ||| (w &&& (~~~r.mask &&& r.mask)) := by
          rw [BitVec.and_or_distrib_right, BitVec.and_assoc]
        _ = r.pattern := by simp [decodeRows_pattern_and_mask r hr]

theorem fitsField_toNat (b : Byte) : fitsField b.toNat = true := decide_eq_true (by omega)

theorem fitsField_iff {x : Nat} : fitsField x = true ↔ x % 256 = x := by
  rw [fitsField, decide_eq_true_iff]
  omega

/-- A row builds well-formed commands: their operands are fields of a word (R69). -/
theorem wf_build {r : DecodeRow} (hr : r ∈ decodeRows) (w : CmdWord) : (r.build w).wf = true := by
  unfold decodeRows at hr
  fin_cases hr <;> simp [Instr.wf, fieldA, fieldB, fitsField_toNat, -BitVec.extractLsb'_toNat]

/-- A well-formed command is built from its word by a row: its operands fit their fields (R69). -/
theorem exists_build_encode {i : Instr} (h : i.wf = true) : ∃ r ∈ decodeRows, r.build (encode i) = i := by
  cases i <;>
    simp_all [decodeRows, encode, fieldA_packWord, fieldB_packWord, fieldC_packWord, fieldL_packWord, Instr.wf,
      fitsField_iff]

/-- Settles O15: the row that spells the word spells the word of the command it builds. -/
theorem encodeDecode : Obligations.EncodeDecode := by
  intro w i h
  obtain ⟨r, hr, hs, rfl⟩ := exists_spells_of_decodeWith h
  exact ⟨(spells_iff_encode_build hr w).mp hs, wf_build hr w⟩

/-- Settles O14: the row that builds the command from its word spells that word, and no other row does. -/
theorem decodeEncode : Obligations.DecodeEncode := by
  intro i h
  obtain ⟨r, hr, hb⟩ := exists_build_encode h
  have hs : r.spells (encode i) = true := (spells_iff_encode_build hr _).mpr (congrArg encode hb)
  rw [decodeWord, decodeWith_of_spells noWordSpellsTwo hr hs, hb]

/-- Settles O13: the decoder run on each of the words. -/
theorem decodeWorkedWords : Obligations.DecodeWorkedWords := by
  unfold Obligations.DecodeWorkedWords
  decide

end Sys2Proof
end

section
/-! PROOFS. The frame encoder (spec/40_frame_encoder.md R86 to R92), and the two events of a transaction (R93): the
frame is taken, and its completion ends the command or runs its next item. -/

namespace Sys2Proof.Machine

/-! The frame encoder -/

theorem exists_encodeFrame {n t : Nat} (ht : t < n) (op d : Byte) : ∃ f, encodeFrame n t op d = some f :=
  Option.isSome_iff_exists.mp ((encodeFrame_isSome n t op d).trans (decide_eq_true ht))

/-- Settles O18: pair `p` of a frame is the one routed to chip `N-1-p`. -/
theorem encodePairs : Obligations.EncodePairs := by
  intro n t op d ht
  obtain ⟨f, hf⟩ := exists_encodeFrame ht op d
  have hlen := encodeFrame_length hf
  refine ⟨f, hf, hlen, fun p hp => ?_⟩
  have hpair := routedPair_encodeFrame hf ht (c := n - 1 - p) (by omega)
  rw [routedPair, show n - 1 - (n - 1 - p) = p by omega, List.getD_eq_getElem f _ (by omega),
    List.getD_eq_getElem f _ (by omega)] at hpair
  rw [List.getD_eq_getElem f _ (by omega), List.getD_eq_getElem f _ (by omega), hpair]
  exact if_congr (by omega) rfl rfl

/-- Settles O19: the range check, and the one frame of two bytes. -/
theorem encodeRangeAndSingle : Obligations.EncodeRangeAndSingle :=
  ⟨fun _ _ _ _ h => if_neg (Nat.not_lt.mpr h), fun _ _ => rfl⟩

/-! The step on an act of the transport -/

/-- A step on an act of the transport that ends the command, or has no further act after it, does that act and
nothing else. -/
theorem step_transport_stops {s t : State} {e : TxEvent} {rest : List Input} (hr : s.rstN = true)
    (hi : s.inputs = .tx e :: rest) (ht : onTransport e s = .next t)
    (hstop : t.busy = false ∨ ∀ e r, rest ≠ .tx e :: r) : step s = .next (t.setInputs rest) := by
  rw [step_input hr hi, onInput, onTransport_inputs, ht, withInputs_next, andThen_next, setInputs_inputs, settle_inputs]
  exact hstop.elim (fun hb => settle_idle hb rest) fun hn => settle_not_tx hn t

/-! The completion of the frame that was taken -/

theorem onTransport_done_failed {s : State} (ha : s.awaitsDone = true) :
    onTransport (.done false) s = .next (raise .transportFail { completeTaken false s with frame := none }) :=
  onTxDone_awaited ha false

theorem onTransport_done_last {s : State} {i : Instr} (ha : s.awaitsDone = true) (hq : s.seq = some ⟨i, []⟩) :
    onTransport (.done true) s =
      .next (finish .ok { completeTaken true s with frame := none, cnt := s.cnt + 1#8 }) := by
  rw [onTransport, onTxDone_awaited ha]
  simp only [finishTransmit, if_true, advance, completeTaken_seq, hq, completeTaken_cnt]

/-- After a success of a command with items to come: the state that its next item runs in, `ms` being those after it. -/
def State.nextItem (i : Instr) (ms : List Micro) (s : State) : State :=
  { completeTaken true s with frame := none, cnt := s.cnt + 1#8, seq := some ⟨i, ms⟩ }

theorem onTransport_done_item {s : State} {i : Instr} {m : Micro} {ms : List Micro} (ha : s.awaitsDone = true)
    (hq : s.seq = some ⟨i, m :: ms⟩) : onTransport (.done true) s = runMicro m (s.nextItem i ms) := by
  rw [onTransport, onTxDone_awaited ha]
  simp only [finishTransmit, if_true, advance, completeTaken_seq, hq, completeTaken_cnt, State.nextItem]

/-- The state after a success in which the next item has left the shadow `sh` and presented the frame `f`. -/
def State.presentsNext (i : Instr) (ms : List Micro) (sh : Option Memory) (f : Frame) (s : State) : State :=
  { s.nextItem i ms with sh := sh, frame := some f, txValid := true, inputs := [] }

/-- A step on a success of a command with items to come runs the next one up to its frame. -/
theorem step_runs_nextItem {s : State} {i : Instr} {m : Micro} {ms : List Micro} {sh : Option Memory} {f : Frame}
    (hr : s.rstN = true) (ha : s.awaitsDone = true) (hq : s.seq = some ⟨i, m :: ms⟩)
    (hi : s.inputs = [.tx (.done true)])
    (hm : runMicro m (s.nextItem i ms) = .next { s.nextItem i ms with sh := sh, frame := some f, txValid := true }) :
    step s = .next (s.presentsNext i ms sh f) :=
  step_transport_stops hr hi ((onTransport_done_item ha hq).trans hm) (.inr (by simp))

/-- A state that waits for a report has a command in flight whose frame the transport holds. -/
theorem State.Inv.waiting {s : State} (h : s.Inv) (ha : s.awaitsDone = true) :
    s.busy = true ∧ ∃ q f, s.InFlight q f ∧ s.taken = some f := by
  obtain ⟨-, -, hflight, -, -⟩ := h
  have hb : s.busy = true := by
    simp only [State.awaitsDone, Bool.and_eq_true] at ha
    exact ha.1.1
  obtain ⟨q, f, hi⟩ := (flightOk_busy hb).mp hflight
  have hv : s.txValid = false := by simpa [hi.awaitsDone hb] using ha
  exact ⟨hb, q, f, hi, hi.held.resolve_left (by simp [hv])⟩

/-- The completion of the frame of a command in flight rewires no chain of a known length. -/
theorem State.InFlight.completeTaken_keeps_wired {s : State} {q : Seq} {f : Frame} (h : s.InFlight q f)
    (ht : s.taken = some f) (ok : Bool) : (completeTaken ok s).chain.wired = s.chain.wired ∨
      s.chain.wired = none ∧ (completeTaken ok s).chain.wired = some s.chips :=
  completeTaken_chain_some ht ok ▸ complete_keeps_wired s.chain h.length s.cfg.havocOnFail ok

/-- The next item of a command that waits for a report is in range, and the shadow is there. -/
theorem State.Inv.nextItem_inRange {s : State} {i : Instr} {m : Micro} {ms : List Micro} (h : s.Inv)
    (ha : s.awaitsDone = true) (hq : s.seq = some ⟨i, m :: ms⟩) :
    m.inRange s.chips = true ∧ ∃ mem, s.sh = some mem := by
  obtain ⟨-, q, f, hflight, -⟩ := h.waiting ha
  obtain ⟨hlife, -⟩ := h
  obtain rfl := Option.some.inj (hflight.seq.symm.trans hq)
  exact ⟨hflight.inRange m List.mem_cons_self,
    Option.isSome_iff_exists.mp ((lifeOk_ready hflight.life).mp hlife).2⟩

/-- A frame to a register of a chip that is there is presented. -/
theorem runMicro_send {s : State} {chip : Nat} {reg : Reg} {d : Byte} {f : Frame}
    (hf : encodeFrame s.chips chip (s.cfg.reg.addr reg) d = some f) :
    runMicro (.send chip reg d) s = .next { s with frame := some f, txValid := true } := by
  simp only [runMicro, present, hf]

/-- An item in range that writes a row, in each of its four ways, is the body of SET_ROW after its checks
(43_pattern.md R134, R137, R139, 44_rasterizer.md R160). -/
theorem runMicro_eq_writeRow {m : Micro} {s : State} {chip row : Nat} {v : Byte} (hm : m.inRange s.chips = true)
    (h : (m = .clearRow chip row ∧ v = 0x00#8) ∨ m = .setRow chip row v ∨
      (m = .drawRow chip row ∧ v = rasterByte s.pix chip row) ∨
      ∃ col lit w, m = .setCell chip row col lit ∧ s.shadowByte (shadowIndex chip row) = some w ∧
        v = cellUpdate w col lit) :
    chip < s.chips ∧ row ≤ 7 ∧ runMicro m s = writeRow chip row v s := by
  have setRow : ∀ v, chip < s.chips → row ≤ 7 → runMicro (.setRow chip row v) s = writeRow chip row v s :=
    fun v hc hr => by simp [runMicro, setRowBody, validChip, validRow, hc, hr]
  rcases h with ⟨rfl, rfl⟩ | rfl | ⟨rfl, rfl⟩ | ⟨col, lit, w, rfl, hw, rfl⟩ <;>
    simp only [Micro.inRange, validRow, validCol, Bool.and_eq_true, decide_eq_true_eq] at hm
  · obtain ⟨hc, hr⟩ := hm
    exact ⟨hc, hr, rfl⟩
  · obtain ⟨hc, hr⟩ := hm
    exact ⟨hc, hr, setRow v hc hr⟩
  · obtain ⟨hc, hr⟩ := hm
    exact ⟨hc, hr, setRow _ hc hr⟩
  · obtain ⟨⟨hc, hr⟩, hk⟩ := hm
    exact ⟨hc, hr, (runMicro_setCell_eq_setRow hk hw).trans (setRow _ hc hr)⟩

/-- Settles O22: each event is one act of the transport, and after a success with items to come the next item runs. -/
theorem completionEndsTransmit : Obligations.CompletionEndsTransmit := by
  refine ⟨fun s rest hr hi hstop => ⟨fun f hv hf => ?_, fun hv => ?_⟩, ?_⟩
  · rw [step_transport_stops hr hi rfl hstop]
    simp only [onTxIssue, hv, hf, if_true, State.setInputs]
  · rw [step_transport_stops hr hi rfl hstop]
    simp [onTxIssue, hv, State.setInputs]
  intro s i ms ok rest hr ha hq hi chipsReact goesOn
  have hgoes : s.Inv → ok = true → ∀ ms' sh f, goesOn (s.presentsNext i ms' sh f) ms' (some f) := by
    rintro hinv rfl ms' sh f
    obtain ⟨hb, q, g, hflight, htaken⟩ := hinv.waiting ha
    exact ⟨hb, rfl, rfl, rfl, rfl, hflight.rspValid, rfl, rfl, rfl,
      ⟨rfl, rfl, rfl, rfl, rfl, rfl, hflight.completeTaken_keeps_wired htaken true⟩, rfl, rfl,
      fun _ hf => completeTaken_chain_some hf true⟩
  refine ⟨?_, ?_, ?_, ?_⟩
  · rintro rfl rfl
    exact ⟨_, step_transport_stops hr hi (onTransport_done_last ha hq) (.inl rfl), rfl, rfl, rfl, rfl, rfl, rfl, rfl,
      rfl, fun _ hf => completeTaken_chain_some hf true⟩
  · rintro rfl
    exact ⟨_, step_transport_stops hr hi (onTransport_done_failed ha) (.inl (raise_busy ..)), raise_busy ..,
      raise_frame .., raise_lastStatus .., raise_rspValid .., raise_cnt .., rfl, raise_taken ..,
      fun _ hf => (raise_chain ..).trans (completeTaken_chain_some hf false)⟩
  · rintro ms' chip reg d hinv rfl rfl rfl
    obtain ⟨hrange, -⟩ := hinv.nextItem_inRange ha hq
    obtain ⟨f, hf⟩ := exists_encodeFrame (of_decide_eq_true hrange) (s.cfg.reg.addr reg) d
    have hrun := runMicro_send (s := s.nextItem i ms') hf
    rw [hf]
    exact ⟨_, step_runs_nextItem hr ha hq hi hrun, hgoes hinv rfl ms' s.sh f, rfl⟩
  · rintro m ms' chip row v hinv rfl rfl rfl hm
    obtain ⟨hrange, mem, hmem⟩ := hinv.nextItem_inRange ha hq
    obtain ⟨hc, hrow, hwrite⟩ := runMicro_eq_writeRow (s := s.nextItem i ms') hrange hm
    have hhas := shadowHas_row (s := s) (by simp [hmem]) hc hrow
    obtain ⟨f, hf, hpresent⟩ := writeRow_has (s := s.nextItem i ms') v hc hhas
    have ⟨_, hshadow, _⟩ := hinv
    rw [show encodeFrame s.chips chip (s.cfg.reg.addr (.digit row)) v = some f from hf]
    exact ⟨_, step_runs_nextItem hr ha hq hi (hwrite.trans hpresent), hgoes hinv rfl ms' _ f,
      shadowByte_write hshadow hmem hhas rfl (congrArg (Option.map _) hmem)⟩

end Sys2Proof.Machine
end

section
/-! PROOFS. INIT and RELEASE (spec/41_lifecycle.md). INIT is a plan that presents the frames of R103 and keeps the
shadow all 0x00. -/

namespace Sys2Proof.Machine

/-! The effective length and RELEASE -/

/-- Settles O23: the two conditions are each other's negation. -/
theorem effectiveLength : Obligations.EffectiveLength := by
  intro req
  unfold effLen
  split <;> split <;> omega

/-- A command that ends as soon as it is accepted leaves only its response, with the count 0 (10_state.md R26, R28). -/
theorem finish_accept {s : State} {i : Instr} (hb : s.busy = false) (hq : s.seq = none) (hi : i ≠ .draw) (st : Status) :
    finish st (accept i s) = { s with cnt := 0#8, lastStatus := st, rspValid := true } := by
  cases s
  subst hb hq
  simp only [finish, accept, if_neg hi]

/-- Settles O26: RELEASE ends as soon as it is accepted, in `READY` after giving up the shadow. -/
theorem releaseResult : Obligations.ReleaseResult := by
  intro s hinv hc
  obtain ⟨-, -, hflight, -⟩ := hinv
  obtain ⟨hb, -⟩ := (cmdReady_iff s).mp hc
  obtain ⟨hq, -⟩ := (flightOk_idle hb).mp hflight
  have hend : finish .ok (accept .release s) = { s with cnt := 0#8, lastStatus := .ok, rspValid := true } :=
    finish_accept hb hq (by simp) .ok
  refine ⟨fun hl => ?_, fun hl => ?_⟩
  · have hreleased : exec .release s =
        .next { finish .ok (accept .release s) with life := .released, n := 0#4, sh := none } := by
      simp only [exec, execRelease, accept_life, hl]
      rfl
    rw [hreleased, hend]
  · have hnoop : exec .release s = .next (finish .ok (accept .release s)) := by
      simp only [exec, execRelease, accept_life]
      cases h : s.life with
      | ready => exact absurd h hl
      | uninit => rfl
      | released => rfl
    rw [hnoop, hend]

/-! The items of INIT -/

/-- In a run of blocks of `len` items, item `k` is in block `k / len`. -/
theorem getElem?_flatMap_range {α : Type} {f : Nat → List α} {len : Nat} (hf : ∀ c, (f c).length = len) {n k : Nat}
    (hk : k < len * n) : ((List.range n).flatMap f)[k]? = (f (k / len))[k % len]? := by
  induction n with
  | zero => omega
  | succ n ih =>
    have hlen : ((List.range n).flatMap f).length = len * n := by simp [List.length_flatMap, hf, Nat.mul_comm]
    rw [List.range_succ, List.flatMap_append, List.flatMap_singleton]
    rcases Nat.lt_or_ge k (len * n) with hlt | hge
    · rw [List.getElem?_append_left (hlen.symm ▸ hlt), ih hlt]
    · obtain ⟨j, rfl⟩ := Nat.exists_eq_add_of_le hge
      have hj : j < len := by rw [Nat.mul_succ] at hk; omega
      rw [List.getElem?_append_right (hlen.symm ▸ hge), hlen, Nat.add_sub_cancel_left,
        Nat.mul_add_div (Nat.zero_lt_of_lt hj), Nat.div_eq_of_lt hj, Nat.add_zero, Nat.mul_add_mod, Nat.mod_eq_of_lt hj]

/-- The register and the byte of the `j`-th frame of InitChip (41_lifecycle.md R103): the display test pulse, the scan
limit 7, the rows 0 to 7. -/
def initPair (cfg : Config) (j : Nat) : Reg × Byte :=
  if j < cfg.dtPulse.length then (.displayTest, cfg.dtPulse.getD j 0x00#8)
  else if j = cfg.dtPulse.length then (.scanLimit, 0x07#8)
  else (.digit (j - cfg.dtPulse.length - 1), 0x00#8)

/-- Clearing a row of a shadow that is all 0x00 is sending its frame. -/
theorem runMicro_clearRow_cleared {s : State} {chip row : Nat} (hm : s.sh = some Memory.cleared) (hc : chip < s.chips)
    (hr : row ≤ 7) : runMicro (.clearRow chip row) s = present chip (.digit row) 0x00#8 s := by
  obtain ⟨f, hf, hw⟩ := writeRow_has 0x00#8 hc (shadowHas_row (by simp [hm]) hc hr)
  have hkeeps : (s.sh.map fun m => m.write (shadowIndex chip row) 0x00#8) = s.sh := by rw [hm]; rfl
  rw [hkeeps] at hw
  simp only [runMicro, hw, present, hf]

/-- The `j`-th item of InitChip presents its frame and does nothing else, as the shadow is all 0x00 already. -/
theorem runMicro_initChip {s : State} {c j : Nat} {m : Micro} (hm : s.sh = some Memory.cleared) (hc : c < s.chips)
    (h : (initChip s.cfg c)[j]? = some m) :
    runMicro m s = present c (initPair s.cfg j).1 (initPair s.cfg j).2 s := by
  have hlen : (s.cfg.dtPulse.map (fun d => Micro.send c .displayTest d) ++ [Micro.send c .scanLimit 0x07#8]).length =
      s.cfg.dtPulse.length + 1 := by simp
  unfold initChip at h
  rcases Nat.lt_trichotomy j s.cfg.dtPulse.length with hj | rfl | hj
  · have hpulse : Micro.send c .displayTest s.cfg.dtPulse[j] = m := by simpa [List.getElem?_append, hj] using h
    simp [← hpulse, initPair, hj, runMicro]
  · have hscan : Micro.send c .scanLimit 0x07#8 = m := by simpa using h
    simp [← hscan, initPair, runMicro]
  · obtain ⟨r, rfl⟩ := Nat.exists_eq_add_of_le (Nat.succ_le_of_lt hj)
    rw [List.getElem?_append_right (by omega), hlen, Nat.add_sub_cancel_left] at h
    obtain ⟨hr, hrow⟩ : r < 8 ∧ Micro.clearRow c r = m := by simpa [clearChip, List.getElem?_eq_some_iff] using h
    have hpair : initPair s.cfg (s.cfg.dtPulse.length + 1 + r) = (.digit r, 0x00#8) := by
      have hplace : s.cfg.dtPulse.length + 1 + r - s.cfg.dtPulse.length - 1 = r := by omega
      rw [initPair, if_neg (by omega), if_neg (by omega), hplace]
    rw [← hrow, hpair]
    exact runMicro_clearRow_cleared hm hc (by omega)

/-! INIT as a plan -/

/-- The `k`-th frame of INIT for `n` chips: that of its place in the InitChip of its chip, chip 0 first (R100, R103). -/
def initFrame (cfg : Config) (n k : Nat) : Option Frame :=
  let pair := initPair cfg (k % (cfg.dtPulse.length + 9))
  encodeFrame n (k / (cfg.dtPulse.length + 9)) (cfg.reg.addr pair.1) pair.2

/-- The frames of INIT as a plan has them: any frame beyond the last. -/
def initFrameAt (cfg : Config) (n k : Nat) : Frame := (initFrame cfg n k).getD []

theorem initFrame_eq_some {cfg : Config} {n k : Nat} (hk : k < (cfg.dtPulse.length + 9) * n) :
    initFrame cfg n k = some (initFrameAt cfg n k) := by
  obtain ⟨f, hf⟩ : ∃ f, initFrame cfg n k = some f := exists_encodeFrame (Nat.div_lt_of_lt_mul hk) _ _
  rw [initFrameAt, hf, Option.getD_some]

theorem initFrameAt_length {cfg : Config} {n k : Nat} (hk : k < (cfg.dtPulse.length + 9) * n) :
    (initFrameAt cfg n k).length = 2 * n :=
  encodeFrame_length (initFrame_eq_some hk)

/-- INIT is a plan that presents its frames and leaves the shadow all 0x00. -/
theorem plan_init (cfg : Config) (n : BitVec 4) (pix : Plane) :
    Plan cfg n pix (initFrames cfg n.toNat) (fun _ => Memory.cleared) (initFrameAt cfg n.toNat) := by
  intro k hk s hcfg hn _ hm
  subst hcfg hn
  have htotal : k < (s.cfg.dtPulse.length + 9) * s.n.toNat := by simpa using hk
  have hitem : (initChip s.cfg (k / (s.cfg.dtPulse.length + 9)))[k % (s.cfg.dtPulse.length + 9)]? =
      some (initFrames s.cfg s.n.toNat)[k] :=
    (getElem?_flatMap_range (initChip_length s.cfg) htotal).symm.trans (List.getElem?_eq_getElem hk)
  rw [runMicro_initChip hm (Nat.div_lt_of_lt_mul htotal) hitem, present]
  have hframe := initFrame_eq_some htotal
  simp only [initFrame] at hframe
  simp only [State.chips, hframe, ← hm]

/-- INIT accepted, with `N`, `SH` and `LIFE` given their values (R100, R102). -/
def State.begun (req : Nat) (s : State) : State := beginLife (effLen req) (accept (.init req) s)

/-- INIT outside `READY` runs its items from there. -/
theorem exec_init {s : State} {req : Nat} (hl : s.life ≠ .ready) :
    exec (.init req) s = launch (initFrames s.cfg (effLen req)) (s.begun req) := by
  simp only [exec, execInit, accept_life, accept_cfg]
  cases h : s.life with
  | ready => exact absurd h hl
  | uninit => rfl
  | released => rfl

theorem begun_chips (s : State) (req : Nat) : (s.begun req).chips = effLen req := by
  obtain ⟨-, h8⟩ := effLen_bounds req
  exact beginLife_chips h8 _

theorem plan_begun (s : State) (req : Nat) : Plan (s.begun req).cfg (s.begun req).n (s.begun req).pix
    (initFrames s.cfg (effLen req)) (fun _ => Memory.cleared) (initFrameAt s.cfg (effLen req)) :=
  begun_chips s req ▸ plan_init s.cfg (s.begun req).n (s.begun req).pix

/-- Every byte of a cleared shadow is 0x00 (20_memory.md R47). -/
theorem shadowByte_cleared {s : State} {i : Nat} (hm : s.sh = some Memory.cleared) (hi : i < 8 * s.chips) :
    s.shadowByte i = some 0x00#8 := by
  have hhas : s.shadowHas i = true := by simp [State.shadowHas, hm, hi]
  simp [State.shadowByte, hhas, hm, Memory.fill]

/-- A failed transaction of INIT also undoes its `LIFE`, `N` and `SH` (R104). -/
theorem raise_transportFail_init {s : State} {req : Nat} {ms : List Micro} (hq : s.seq = some ⟨.init req, ms⟩) :
    raise .transportFail s = finish .transportFail (undoInit s) := by
  simp only [raise, hq]

/-- Settles O24: INIT is a plan, and all of it goes through. -/
theorem initResult : Obligations.InitResult := by
  intro s req rest _ _ hl hi
  have hlen := initFrames_length s.cfg (effLen req)
  have hpos : 0 < (initFrames s.cfg (effLen req)).length := by
    obtain ⟨h1, -⟩ := effLen_bounds req
    exact hlen ▸ Nat.mul_pos (Nat.succ_pos _) h1
  have hrun := launch_plan_all (i := .init req) (plan_begun s req) rfl rfl rfl rfl rfl rfl rfl hpos rest (hlen ▸ hi)
  have hchips := begun_chips s req
  refine ⟨_, (exec_init hl).trans hrun, ⟨rfl, rfl, rfl, rfl, rfl, rfl, congrArg (BitVec.ofNat 8) hlen⟩, rfl, hchips,
    fun j hj => shadowByte_cleared rfl (hchips.symm ▸ hj), rfl, rfl, rfl, rfl, rfl, rfl, rfl, ?_⟩
  exact chainAfter_keeps_wired fun j hj => initFrameAt_length (hlen ▸ hj)

/-- Settles O25: INIT is a plan, and `k` of its frames go through. -/
theorem initPartial : Obligations.InitPartial := by
  intro s req k _ hc hl hk chip j l frame
  obtain ⟨-, hv, -⟩ := (cmdReady_iff s).mp hc
  have hframe : frame = some (initFrameAt s.cfg (effLen req) k) := by
    rw [← initFrame_eq_some hk, initFrame, initPair]
    simp only [frame, chip, j, l]
    split_ifs <;> rfl
  have hlt : k < (initFrames s.cfg (effLen req)).length := (initFrames_length _ _).symm ▸ hk
  have hchips := begun_chips s req
  rw [hframe]
  refine ⟨fun hi => ?_, fun rest hi => ?_⟩
  · obtain ⟨es, he⟩ := launch_plan_partial (i := .init req) (plan_begun s req) rfl rfl rfl rfl rfl rfl rfl k hlt []
      (hi.trans (List.append_nil _).symm)
    exact ⟨_, (exec_init hl).trans he, ⟨rfl, rfl, rfl, rfl, hv, rfl, rfl, rfl⟩, rfl, hchips,
      fun i hi => shadowByte_cleared rfl (hchips.symm ▸ hi), rfl, rfl, rfl, rfl, rfl⟩
  · obtain ⟨es, he⟩ := launch_plan_failed (i := .init req) (plan_begun s req) rfl rfl rfl rfl rfl rfl rfl k hlt rest hi
    rw [raise_transportFail_init rfl] at he
    exact ⟨_, (exec_init hl).trans he, ⟨rfl, rfl, rfl, rfl, rfl, rfl, rfl⟩, rfl, rfl, rfl, rfl, rfl, rfl, rfl, rfl, rfl,
      rfl⟩

end Sys2Proof.Machine
end

section
/-! PROOFS. SET_POWER, SET_SCAN_LIMIT and SET_INTENSITY (spec/42_chip_config.md) that complete, and their silent no-ops. -/

namespace Sys2Proof.Machine

/-! The completed commands -/

/-- When every transaction of a plan succeeds, the command ends OK with the shadow as its last item left it. -/
theorem State.RunsPlan.completes {s : State} {i : Instr} {ms : List Micro} {mem : Nat → Memory} {frames : Nat → Frame}
    (h : s.RunsPlan i ms mem frames) (hpos : 0 < ms.length) {rest : List Input}
    (hi : s.inputs = okReplies ms.length ++ rest) :
    ∃ t, Machine.exec i s = .next t ∧ t.Ended .ok ms.length ∧ s.Keeps t ∧ t.sh = some (mem ms.length) ∧
      t.pix = (accept i s).pix ∧ t.taken = none ∧ t.inputs = rest ∧ t.chain = chainAfter s.chain frames ms.length := by
  have hrun := launch_plan_all (s := accept i s) (i := i) h.plan rfl rfl rfl h.shadow rfl rfl rfl hpos rest hi
  exact ⟨_, h.exec.trans hrun, ⟨rfl, rfl, rfl, rfl, rfl, rfl, rfl⟩,
    ⟨rfl, rfl, rfl, rfl, rfl, rfl, chainAfter_keeps_wired h.length⟩, rfl, rfl, rfl, rfl, rfl⟩

/-- A control command is a plan of one frame that leaves the shadow as it is. -/
theorem SendsControl.runsPlan {s : State} {i : Instr} {chip : Nat} {r : Reg} {d : Byte} {f : Frame} {m : Memory}
    (h : SendsControl i chip r d s) (hs : s.Runs) (hf : encodeFrame s.chips chip (s.cfg.reg.addr r) d = some f)
    (hm : s.sh = some m) : s.RunsPlan i [.send chip r d] (fun _ => m) fun _ => f :=
  ⟨hs, h.notInit, h.exec, hm, plan_send hf m, fun _ _ => encodeFrame_length hf⟩

/-- A control command whose transaction succeeds ends OK, and the chips have latched its frame. -/
theorem SendsControl.completes {s : State} {i : Instr} {chip : Nat} {r : Reg} {d : Byte} {rest : List Input}
    (h : SendsControl i chip r d s) (hs : s.Runs) (hc : chip < s.chips) (hi : s.inputs = okReplies 1 ++ rest) :
    ∃ t f, encodeFrame s.chips chip (s.cfg.reg.addr r) d = some f ∧ Machine.exec i s = .next t ∧ t.Ended .ok 1 ∧
      s.Keeps t ∧ t.sh = s.sh ∧ t.pix = s.pix ∧ t.taken = none ∧ t.chain = s.chain.latch f ∧ t.inputs = rest := by
  obtain ⟨⟨m, hm⟩, -⟩ := hs.ports
  obtain ⟨f, hf⟩ := exists_encodeFrame hc (s.cfg.reg.addr r) d
  obtain ⟨t, ht, hend, hkeeps, hsh, hpix, htaken, hin, hchain⟩ := (h.runsPlan hs hf hm).completes Nat.one_pos hi
  exact ⟨t, f, hf, ht, hend, hkeeps, hsh.trans hm.symm, hpix.trans (if_neg h.notDraw), htaken, hchain, hin⟩

/-- Settles O28: the command sends `powerData` to the shutdown register. -/
theorem setPowerResult : Obligations.SetPowerResult := by
  intro s chip on rest hs hc hi
  obtain ⟨r, hr, hsends⟩ := sendsControl_of_valid hs.life hc (.inl ⟨on, rfl, rfl, rfl⟩)
  exact hr ▸ hsends.completes hs hc hi

/-- Settles O29: a limit that the guard lets through is sent as it is. -/
theorem setScanLimitResult : Obligations.SetScanLimitResult := by
  intro s chip limit rest hs hc hg hi
  obtain ⟨r, hr, hsends⟩ := sendsControl_of_valid hs.life hc (.inr (.inl ⟨rfl, rfl, hg⟩))
  exact hr ▸ hsends.completes hs hc hi

/-- Settles O30: a level that the guard lets through is sent as it is. -/
theorem setIntensityResult : Obligations.SetIntensityResult := by
  intro s chip level rest hs hc hg hi
  obtain ⟨r, hr, hsends⟩ := sendsControl_of_valid hs.life hc (.inr (.inr ⟨rfl, rfl, hg⟩))
  exact hr ▸ hsends.completes hs hc hi

/-! The silent no-ops -/

/-- A chip that is not there, or a value that its guard stops, makes a control command a `noop` (R115, R118). -/
theorem sendControl_noop {s : State} {chip : Nat} {guarded : Bool} (h : s.chips ≤ chip ∨ guarded = false)
    (r : Reg) (d : Byte) : sendControl chip guarded r d s = noop s := by
  rcases h with hc | hg
  · simp [sendControl, validChip, Nat.not_lt.mpr hc]
  · simp [sendControl, hg]

/-- The value guard stops a value above the range under `STRICT_RANGE` (R118). -/
theorem inRange_strict_above {strict : Bool} {v : Byte} {hi : Nat} (h : strict = true ∧ hi < v.toNat) (lo : Nat) :
    inRange strict v lo hi = false := by
  simp [inRange, h.1, Nat.not_le.mpr h.2]

/-- On a ready port a command that comes to `noop` leaves only its response, with the count 0 (60_exceptions.md R189). -/
theorem State.Runs.noop_accept {s : State} {i : Instr} (hs : s.Runs) (hi : i ≠ .draw) :
    noop (accept i s) = .next { s with cnt := 0#8, lastStatus := .ok, rspValid := true } := by
  obtain ⟨-, -, hflight, -⟩ := hs.inv
  obtain ⟨hb, -⟩ := (cmdReady_iff s).mp hs.cmdReady
  obtain ⟨hq, -⟩ := (flightOk_idle hb).mp hflight
  rw [noop, finish_accept hb hq hi]

/-- A control command that a check stops leaves only its response. -/
theorem State.Runs.stoppedControl {s : State} {i : Instr} {chip : Nat} {guarded : Bool} (hs : s.Runs) (hi : i ≠ .draw)
    (h : s.chips ≤ chip ∨ guarded = false) (r : Reg) (d : Byte) :
    inReady i (sendControl chip guarded r d) s = .next { s with cnt := 0#8, lastStatus := .ok, rspValid := true } := by
  rw [inReady_runs _ _ hs.life, sendControl_noop (s := accept i s) h, hs.noop_accept hi]

/-- Settles O31: each of the three commands is stopped by its chip check or by its value guard. -/
theorem chipConfigNoop : Obligations.ChipConfigNoop := by
  intro s i hs h
  rcases h with ⟨chip, on, rfl, hc⟩ | ⟨chip, limit, rfl, hoff⟩ | ⟨chip, level, rfl, hoff⟩
  · exact hs.stoppedControl (by simp) (.inl hc) _ _
  · exact hs.stoppedControl (by simp) (hoff.imp_right fun hv => inRange_strict_above hv 0) _ _
  · exact hs.stoppedControl (by simp) (hoff.imp_right fun hv => inRange_strict_above hv 0) _ _

end Sys2Proof.Machine
end

section
/-! PROOFS. Commands that write rows of the shadow one after another, each before its frame (spec/43_pattern.md R132):
what is common to CLEAR, CLEAR_ALL, SET_ROW_ALL and SET_COLUMN, and to DRAW with its plane. -/

namespace Sys2Proof.Machine

/-! One row write, and a run of them -/

/-- A byte for one row of one chip. -/
structure RowWrite where
  chip : Nat
  row : Nat
  byte : Byte

/-- The shadow index that it writes (20_memory.md R45). -/
def RowWrite.index (w : RowWrite) : Nat := shadowIndex w.chip w.row

/-- The frame that it sends (43_pattern.md R139). -/
def RowWrite.frame (s : State) (w : RowWrite) : Option Frame :=
  encodeFrame s.chips w.chip (s.cfg.reg.addr (.digit w.row)) w.byte

/-- The shadow after the first `k` of a run of row writes. -/
def writtenRows (m : Memory) (w : Nat → RowWrite) : Nat → Memory
  | 0 => m
  | k + 1 => (writtenRows m w k).write (w k).index (w k).byte

/-- The first `k` of a run of row writes are to different bytes. -/
def DistinctRows (w : Nat → RowWrite) (k : Nat) : Prop := ∀ j l, j < l → l < k → (w j).index ≠ (w l).index

section
variable {m : Memory} {w : Nat → RowWrite} {k : Nat}

theorem writtenRows_wf (hm : m.wf = true) (k : Nat) : (writtenRows m w k).wf = true := by
  induction k with
  | zero => exact hm
  | succ k ih => exact Memory.wf_write ih _ _

theorem read_writtenRows_other (hm : m.wf = true) {b : Nat} (hb : ∀ j, j < k → (w j).index ≠ b) :
    (writtenRows m w k).read b = m.read b := by
  induction k with
  | zero => rfl
  | succ k ih =>
    rw [writtenRows, Memory.read_write (writtenRows_wf hm k), if_neg (hb k k.lt_succ_self)]
    exact ih fun j hj => hb j (hj.trans k.lt_succ_self)

theorem read_writtenRows (hm : m.wf = true) (hd : DistinctRows w k) {j : Nat} (hj : j < k) :
    (writtenRows m w k).read (w j).index = (w j).byte := by
  induction k with
  | zero => cases hj
  | succ k ih =>
    rw [writtenRows, Memory.read_write (writtenRows_wf hm k)]
    rcases Nat.lt_succ_iff_lt_or_eq.mp hj with hlt | rfl
    · rw [if_neg (hd j k hlt k.lt_succ_self).symm]
      exact ih (fun i l hil hl => hd i l hil (hl.trans k.lt_succ_self)) hlt
    · rw [if_pos rfl]

end

/-- From `s` to `t` the shadow bytes of the first `k` row writes are written, and every other byte is as before. -/
structure State.RowsWritten (s t : State) (w : Nat → RowWrite) (k : Nat) : Prop where
  written : ∀ j, j < k → t.shadowByte (w j).index = some (w j).byte
  other : ∀ b, (∀ j, j < k → (w j).index ≠ b) → t.shadowByte b = s.shadowByte b

theorem shadowByte_of_has {s : State} {m : Memory} {j : Nat} (hm : s.sh = some m) (h : s.shadowHas j = true) :
    s.shadowByte j = some (m.read j) := by
  simp [State.shadowByte, h, hm]

/-- The byte of a row of a chip, in a shadow that is there. -/
theorem shadowByte_row {s : State} {m : Memory} {chip row : Nat} (hm : s.sh = some m) (hc : chip < s.chips)
    (hr : row ≤ 7) : s.shadowByte (shadowIndex chip row) = some (m.read (shadowIndex chip row)) :=
  shadowByte_of_has hm (shadowHas_row (by simp [hm]) hc hr)

theorem rowsWritten_of_sh {s t : State} {m : Memory} {w : Nat → RowWrite} {k : Nat} (hok : s.shadowOk = true)
    (hm : s.sh = some m) (hhas : ∀ j, j < k → s.shadowHas (w j).index = true) (hd : DistinctRows w k) (hn : t.n = s.n)
    (ht : t.sh = some (writtenRows m w k)) : s.RowsWritten t w k := by
  obtain ⟨hwf, -⟩ := (shadowOk_some hm).mp hok
  have hsame : ∀ b, t.shadowHas b = s.shadowHas b := shadowHas_congr hn (by rw [ht, hm]; rfl)
  refine ⟨fun j hj => ?_, fun b hb => ?_⟩
  · rw [shadowByte_of_has ht ((hsame _).trans (hhas j hj)), read_writtenRows hwf hd hj]
  · simp only [State.shadowByte, hsame, ht, hm, Option.map_some, read_writtenRows_other hwf hb]

/-- The shadow after row writes by cases, where `p` tells the written bytes from the others. -/
theorem State.RowsWritten.shadowByte_eq {s t : State} {w : Nat → RowWrite} {k b : Nat} {x : Option Byte}
    (h : s.RowsWritten t w k) {p : Prop} [Decidable p] (hp : p → ∃ j, j < k ∧ (w j).index = b ∧ some (w j).byte = x)
    (hn : ¬ p → ∀ j, j < k → (w j).index ≠ b) : t.shadowByte b = if p then x else s.shadowByte b := by
  split
  next hp' =>
    obtain ⟨j, hj, rfl, rfl⟩ := hp hp'
    exact h.written j hj
  next hn' => exact h.other b (hn hn')

/-! A command that is a run of row writes -/

/-- The item of pseudocode writes the row, in one of its four ways; `s` gives the plane, and the byte that a cell is
in. -/
def Micro.Writes (s : State) (m : Micro) (w : RowWrite) : Prop :=
  (m = .clearRow w.chip w.row ∧ w.byte = 0x00#8) ∨ m = .setRow w.chip w.row w.byte ∨
    (m = .drawRow w.chip w.row ∧ w.byte = rasterByte s.pix w.chip w.row) ∨
    ∃ col lit v, m = .setCell w.chip w.row col lit ∧ s.shadowByte w.index = some v ∧ w.byte = cellUpdate v col lit

theorem Micro.Writes.congr {s u : State} {m : Micro} {w : RowWrite} (h : m.Writes s w) (hpix : u.pix = s.pix)
    (hb : u.shadowByte w.index = s.shadowByte w.index) : m.Writes u w := by
  simpa only [Micro.Writes, hpix, hb] using h

/-- A ready port in `READY` and a command that is `total` row writes there, to different bytes. -/
structure State.SendsRows (s : State) (i : Instr) (ms : List Micro) (w : Nat → RowWrite) (total : Nat) : Prop where
  runs : s.Runs
  notInit : ∀ req, i ≠ .init req
  exec : exec i s = launch ms (accept i s)
  length : ms.length = total
  inRange : ∀ m ∈ ms, m.inRange s.chips = true
  writes : ∀ k (h : k < ms.length), ms[k].Writes (accept i s) (w k)
  distinct : DistinctRows w total

/-- The frames of row writes as a plan has them: any frame for a chip that is not there. -/
def rowFrameAt (s : State) (w : Nat → RowWrite) (k : Nat) : Frame := ((w k).frame s).getD []

section
variable {s : State} {i : Instr} {ms : List Micro} {w : Nat → RowWrite} {total : Nat}

/-- Each row that is written is a row of a chip. -/
theorem State.SendsRows.valid (h : s.SendsRows i ms w total) {k : Nat} (hk : k < total) :
    (w k).chip < s.chips ∧ (w k).row ≤ 7 := by
  have hk : k < ms.length := h.length.symm ▸ hk
  obtain ⟨hc, hr, -⟩ := runMicro_eq_writeRow (s := accept i s) (h.inRange _ (List.getElem_mem hk)) (h.writes k hk)
  exact ⟨hc, hr⟩

theorem State.SendsRows.frame_eq (h : s.SendsRows i ms w total) {k : Nat} (hk : k < total) :
    (w k).frame s = some (rowFrameAt s w k) := by
  obtain ⟨f, hf⟩ : ∃ f, (w k).frame s = some f := exists_encodeFrame (h.valid hk).1 _ _
  rw [rowFrameAt, hf, Option.getD_some]

/-- In a state whose shadow is that after the first `k` writes, those are written and every other byte is as before. -/
theorem State.SendsRows.rowsWritten (h : s.SendsRows i ms w total) {m : Memory} (hm : s.sh = some m) {t : State}
    {k : Nat} (hk : k ≤ total) (hn : t.n = s.n) (ht : t.sh = some (writtenRows m w k)) : s.RowsWritten t w k := by
  obtain ⟨-, hok, -⟩ := h.runs.inv
  refine rowsWritten_of_sh hok hm (fun j hj => ?_) (fun j l hjl hl => h.distinct j l hjl (hl.trans_le hk)) hn ht
  obtain ⟨hc, hr⟩ := h.valid (hj.trans_le hk)
  exact shadowHas_row (by simp [hm]) hc hr

/-- The writes are a plan: item `k` finds the byte of its row as the command found it, as the items before it write other
bytes. -/
theorem State.SendsRows.plan (h : s.SendsRows i ms w total) {m : Memory} (hm : s.sh = some m) :
    Plan s.cfg s.n (accept i s).pix ms (writtenRows m w) (rowFrameAt s w) := by
  intro k hk u hcfg hn hpix hu
  have hkt : k < total := h.length ▸ hk
  have hchips : u.chips = s.chips := congrArg BitVec.toNat hn
  have hbyte : u.shadowByte (w k).index = s.shadowByte (w k).index :=
    (h.rowsWritten hm hkt.le hn hu).other _ fun j hj => h.distinct j k hj hkt
  obtain ⟨hc, hr, hwrite⟩ := runMicro_eq_writeRow (hchips ▸ h.inRange _ (List.getElem_mem hk))
    ((h.writes k hk).congr hpix hbyte)
  obtain ⟨f, hf, hpresent⟩ := writeRow_has (w k).byte hc (shadowHas_row (by simp [hu]) hc hr)
  have hframe := h.frame_eq hkt
  rw [RowWrite.frame, ← hchips, ← hcfg, hf] at hframe
  rw [hwrite, hpresent, hu, Option.some.inj hframe]
  rfl

theorem State.SendsRows.runsPlan (h : s.SendsRows i ms w total) {m : Memory} (hm : s.sh = some m) :
    s.RunsPlan i ms (writtenRows m w) (rowFrameAt s w) :=
  ⟨h.runs, h.notInit, h.exec, hm, h.plan hm, fun _ hk => encodeFrame_length (h.frame_eq (h.length ▸ hk))⟩

/-- When every transaction succeeds the command ends OK with all its rows written. -/
theorem State.SendsRows.completes (h : s.SendsRows i ms w total) (hpos : 0 < total) {rest : List Input}
    (hi : s.inputs = okReplies total ++ rest) :
    ∃ t, Machine.exec i s = .next t ∧ t.Ended .ok total ∧ s.Keeps t ∧ s.RowsWritten t w total ∧
      t.pix = (accept i s).pix ∧ t.taken = none ∧ t.inputs = rest := by
  obtain ⟨⟨m, hm⟩, -⟩ := h.runs.ports
  have hlen := h.length
  subst hlen
  obtain ⟨t, ht, hend, hkeeps, hsh, hpix, htaken, hin, -⟩ := (h.runsPlan hm).completes hpos hi
  exact ⟨t, ht, hend, hkeeps, h.rowsWritten hm le_rfl hkeeps.n hsh, hpix, htaken, hin⟩

/-- After `k` successful transactions, short of all, the command presents the frame of its `k`-th row, and rows 0 to `k`
are written; a failure there ends it TRANSPORT_FAIL and leaves them so (60_exceptions.md R190). `P` is what the caller
says of that shadow. -/
theorem State.SendsRows.stops (h : s.SendsRows i ms w total) {k : Nat} (hk : k < total) {P : State → Prop}
    (hP : ∀ t, s.RowsWritten t w (k + 1) → P t) :
    (s.inputs = okReplies k → ∃ t, Machine.exec i s = .next t ∧ s.Presents t ((w k).frame s) k ∧ s.Keeps t ∧
      t.pix = (accept i s).pix ∧ P t) ∧
    ∀ rest, s.inputs = okReplies k ++ failReply ++ rest → ∃ t, Machine.exec i s = .next t ∧
      t.Ended .transportFail k ∧ s.Keeps t ∧ t.pix = (accept i s).pix ∧ t.inputs = rest ∧ P t := by
  obtain ⟨⟨m, hm⟩, -⟩ := h.runs.ports
  have hlt : k < ms.length := h.length.symm ▸ hk
  have hrows : ∀ t, s.Keeps t → t.sh = some (writtenRows m w (k + 1)) → P t := fun t hkeeps hsh =>
    hP t (h.rowsWritten hm hk hkeeps.n hsh)
  refine ⟨fun hi => ?_, fun rest hi => ?_⟩
  · obtain ⟨t, ht, hpres, hkeeps, hsh, hpix, -⟩ := (h.runsPlan hm).waits hlt hi
    exact ⟨t, ht, h.frame_eq hk ▸ hpres, hkeeps, hpix, hrows t hkeeps hsh⟩
  · obtain ⟨t, ht, hend, hkeeps, hsh, hpix, -, hin, -⟩ := (h.runsPlan hm).fails hlt hi
    exact ⟨t, ht, hend, hkeeps, hpix, hin, hrows t hkeeps hsh⟩

end

end Sys2Proof.Machine
end

section
/-! PROOFS. The pattern commands (spec/43_pattern.md): CLEAR, CLEAR_ALL, SET_ROW_ALL and SET_COLUMN as runs of row
writes, SET_ROW and SET_CELL that complete, and the silent no-ops. -/

namespace Sys2Proof.Machine

/-- In `READY` there is a chip (10_state.md R23). -/
theorem State.Runs.chips_pos {s : State} (h : s.Runs) : 0 < s.chips := by
  obtain ⟨hlife, -⟩ := h.inv
  exact ((lifeOk_ready h.life).mp hlife).1.1

/-! CLEAR -/

/-- The rows that CLEAR writes (R134). -/
def clearWrites (chip k : Nat) : RowWrite := ⟨chip, k, 0x00#8⟩

theorem clearWrites_index (chip k : Nat) : (clearWrites chip k).index = chip * 8 + k := rfl

/-- CLEAR in `READY` is its chip check before ClearChip (R135). -/
theorem exec_clear {s : State} (hl : s.life = .ready) (chip : Nat) :
    exec (.clear chip) s =
      if validChip s chip then launch (clearChip chip) (accept (.clear chip) s) else noop (accept (.clear chip) s) :=
  inReady_runs (.clear chip) (fun u => if validChip u chip then launch (clearChip chip) u else noop u) hl

/-- CLEAR of a chip that is there writes its rows 0 to 7 (R134, R135). -/
theorem sendsRows_clear {s : State} {chip : Nat} (hs : s.Runs) (hc : chip < s.chips) :
    s.SendsRows (.clear chip) (clearChip chip) (clearWrites chip) 8 where
  runs := hs
  notInit := by simp
  exec := (exec_clear hs.life chip).trans (if_pos (decide_eq_true hc))
  length := clearChip_length chip
  inRange := clearChip_inRange hc
  writes k hk := .inl ⟨by simp [clearChip, clearWrites], rfl⟩
  distinct j l hjl _ := by simp only [clearWrites_index]; omega

theorem State.RowsWritten.clear {s t : State} {chip k : Nat} (h : s.RowsWritten t (clearWrites chip) (k + 1))
    (i : Nat) : t.shadowByte i = if chip * 8 ≤ i ∧ i ≤ chip * 8 + k then some 0x00#8 else s.shadowByte i :=
  h.shadowByte_eq (fun hi => ⟨i - chip * 8, by omega, by simp only [clearWrites_index]; omega, rfl⟩)
    fun hi j hj => by simp only [clearWrites_index]; omega

/-- Settles O38: CLEAR is 8 row writes. -/
theorem clearResult : Obligations.ClearResult := by
  intro s chip rest hs hc hi
  obtain ⟨t, ht, hend, hkeeps, hrows, hpix, htaken, hin⟩ := (sendsRows_clear hs hc).completes (by omega) hi
  exact ⟨t, ht, hend, hkeeps, hrows.clear, hpix, htaken, hin⟩

/-- Settles O39: CLEAR stops after `k` of its row writes. -/
theorem clearPartial : Obligations.ClearPartial := fun _ _ _ hs hc hk =>
  (sendsRows_clear hs hc).stops (Nat.lt_succ_of_le hk) fun _ h => h.clear

/-! CLEAR_ALL -/

/-- The rows that CLEAR_ALL writes: chip 0 first, rows 0 to 7 of each (R136). -/
def clearAllWrites (k : Nat) : RowWrite := ⟨k / 8, k % 8, 0x00#8⟩

theorem clearAllWrites_index (k : Nat) : (clearAllWrites k).index = k := by
  simp only [clearAllWrites, RowWrite.index, shadowIndex]
  omega

/-- CLEAR_ALL writes every row of every chip (R136). -/
theorem sendsRows_clearAll {s : State} (hs : s.Runs) :
    s.SendsRows .clearAll ((List.range s.chips).flatMap clearChip) clearAllWrites (8 * s.chips) where
  runs := hs
  notInit := by simp
  exec := inReady_runs _ _ hs.life
  length := by simp [List.length_flatMap, Nat.mul_comm]
  inRange m hm := by
    obtain ⟨c, hc, hm⟩ := List.mem_flatMap.mp hm
    exact clearChip_inRange (List.mem_range.mp hc) m hm
  writes k hk := by
    have htotal : k < 8 * s.chips := by simpa [List.length_flatMap, Nat.mul_comm] using hk
    have hitem := getElem?_flatMap_range clearChip_length htotal
    have hrow : (clearChip (k / 8))[k % 8]? = some (.clearRow (k / 8) (k % 8)) := by
      simp [clearChip, Nat.mod_lt]
    exact .inl ⟨(List.getElem_eq_iff hk).mpr (hitem.trans hrow), rfl⟩
  distinct j l hjl _ := by
    rw [clearAllWrites_index, clearAllWrites_index]
    exact hjl.ne

theorem State.RowsWritten.clearAll {s t : State} {k : Nat} (h : s.RowsWritten t clearAllWrites (k + 1)) (i : Nat) :
    t.shadowByte i = if i ≤ k then some 0x00#8 else s.shadowByte i :=
  h.shadowByte_eq (fun hi => ⟨i, Nat.lt_succ_of_le hi, clearAllWrites_index i, rfl⟩)
    fun hi j hj => by rw [clearAllWrites_index]; omega

/-- Settles O40: CLEAR_ALL is `8*N` row writes, one to each byte. -/
theorem clearAllResult : Obligations.ClearAllResult := by
  intro s rest hs hi
  obtain ⟨t, ht, hend, hkeeps, hrows, hpix, htaken, hin⟩ :=
    (sendsRows_clearAll hs).completes (Nat.mul_pos (by omega) hs.chips_pos) hi
  exact ⟨t, ht, hend, hkeeps, fun i hi => clearAllWrites_index i ▸ hrows.written i hi, hpix, htaken, hin⟩

/-- Settles O41: CLEAR_ALL stops after `k` of its row writes. -/
theorem clearAllPartial : Obligations.ClearAllPartial := fun _ _ hs hk =>
  (sendsRows_clearAll hs).stops hk fun _ h => h.clearAll

/-! SET_ROW_ALL -/

/-- The rows that SET_ROW_ALL writes: one of each chip, chip 0 first (R140). -/
def setRowAllWrites (row : Nat) (v : Byte) (k : Nat) : RowWrite := ⟨k, row, v⟩

theorem setRowAllWrites_index (row : Nat) (v : Byte) (k : Nat) : (setRowAllWrites row v k).index = k * 8 + row := rfl

/-- SET_ROW_ALL of a row that is there writes it on every chip (R140). -/
theorem sendsRows_setRowAll {s : State} {row : Nat} (hs : s.Runs) (hr : row ≤ 7) (v : Byte) :
    s.SendsRows (.setRowAll row v) ((List.range s.chips).map fun c => .setRow c row v) (setRowAllWrites row v)
      s.chips where
  runs := hs
  notInit := by simp
  exec := inReady_runs _ _ hs.life
  length := by simp
  inRange m hm := by
    obtain ⟨c, hc, rfl⟩ := List.mem_map.mp hm
    simp [Micro.inRange, validRow, hr, List.mem_range.mp hc]
  writes k hk := .inr (.inl (by simp [setRowAllWrites]))
  distinct j l hjl _ := by simp only [setRowAllWrites_index]; omega

/-- The bytes of a row are those whose index is `row` modulo 8 (20_memory.md R45). -/
theorem State.RowsWritten.setRowAll {s t : State} {row k : Nat} {v : Byte} (hr : row ≤ 7)
    (h : s.RowsWritten t (setRowAllWrites row v) k) (i : Nat) :
    t.shadowByte i = if i / 8 < k ∧ i % 8 = row then some v else s.shadowByte i :=
  h.shadowByte_eq (fun hi => ⟨i / 8, hi.1, by simp only [setRowAllWrites_index]; omega, rfl⟩)
    fun hi j hj => by simp only [setRowAllWrites_index]; omega

/-- Settles O42: SET_ROW_ALL is `N` row writes. -/
theorem setRowAllResult : Obligations.SetRowAllResult := by
  intro s row v rest hs hr hi
  obtain ⟨t, ht, hend, hkeeps, hrows, hpix, htaken, hin⟩ := (sendsRows_setRowAll hs hr v).completes hs.chips_pos hi
  exact ⟨t, ht, hend, hkeeps, fun i => (hrows.setRowAll hr i).trans (if_congr (by omega) rfl rfl), hpix, htaken, hin⟩

/-- Settles O43: SET_ROW_ALL stops after `k` of its row writes. -/
theorem setRowAllPartial : Obligations.SetRowAllPartial := fun _ _ _ v hs hr hk =>
  (sendsRows_setRowAll hs hr v).stops hk fun _ h i =>
    (h.setRowAll hr i).trans (if_congr (and_congr_left' Nat.lt_succ_iff) rfl rfl)

/-! The cell update -/

/-- The mask of a column is the one bit `7 - col` (20_memory.md R55). -/
theorem colMask_getLsbD {col : Nat} (hk : col ≤ 7) (j : Nat) : (colMask col).getLsbD j = decide (j = 7 - col) := by
  rw [colMask, BitVec.getLsbD_ushiftRight, show 0x80#8 = BitVec.twoPow 8 7 from rfl, BitVec.getLsbD_twoPow]
  simp only [Nat.reduceLT, decide_true, Bool.true_and, decide_eq_decide]
  omega

/-- Settles O36: the mask has that one bit. -/
theorem cellUpdateBits : Obligations.CellUpdateBits := by
  intro v col lit hk j hj
  have hmask := colMask_getLsbD hk j
  cases lit with
  | true =>
    rw [cellUpdate, if_pos rfl, BitVec.getLsbD_or, hmask]
    by_cases h : j = 7 - col <;> simp [h]
  | false =>
    rw [cellUpdate, if_neg Bool.false_ne_true, BitVec.getLsbD_and, BitVec.getLsbD_not, hmask]
    by_cases h : j = 7 - col <;> simp [h, hj]

/-! SET_COLUMN -/

/-- The rows that SET_COLUMN writes on a shadow: each with its one bit updated (R141). -/
def setColumnWrites (m : Memory) (chip col : Nat) (value : Byte) (k : Nat) : RowWrite :=
  ⟨chip, k, cellUpdate (m.read (shadowIndex chip k)) col (columnBit value k)⟩

theorem setColumnWrites_index (m : Memory) (chip col : Nat) (value : Byte) (k : Nat) :
    (setColumnWrites m chip col value k).index = chip * 8 + k := rfl

/-- SET_COLUMN of a chip and a column that are there writes the chip's rows 0 to 7 (R141). -/
theorem sendsRows_setColumn {s : State} {chip col : Nat} {m : Memory} (hs : s.Runs) (hc : chip < s.chips) (hk : col ≤ 7)
    (value : Byte) (hm : s.sh = some m) :
    s.SendsRows (.setColumn chip col value) ((List.range 8).map fun r => .setCell chip r col (columnBit value r))
      (setColumnWrites m chip col value) 8 where
  runs := hs
  notInit := by simp
  exec := inReady_runs _ _ hs.life
  length := by simp
  inRange m hm := by
    obtain ⟨r, hr, rfl⟩ := List.mem_map.mp hm
    simp [Micro.inRange, validRow, validCol, hc, hk, Nat.le_of_lt_succ (List.mem_range.mp hr)]
  writes k hk := by
    have hr : k < 8 := by simpa using hk
    have hold := shadowByte_row hm hc (Nat.le_of_lt_succ hr)
    exact .inr (.inr (.inr ⟨col, columnBit value k, _, by simp [setColumnWrites], hold, rfl⟩))
  distinct j l hjl _ := by simp only [setColumnWrites_index]; omega

/-- Settles O44: SET_COLUMN is 8 row writes, each of a byte with its one bit updated. -/
theorem setColumnResult : Obligations.SetColumnResult := by
  intro s chip col value rest hs hc hk hi
  obtain ⟨⟨m, hm⟩, -⟩ := hs.ports
  obtain ⟨t, ht, hend, hkeeps, hrows, hpix, htaken, hin⟩ :=
    (sendsRows_setColumn hs hc hk value hm).completes (by omega) hi
  refine ⟨t, ht, hend, hkeeps, hpix, fun r hr => ?_, fun i hi => hrows.other i fun j hj => ?_, htaken, hin⟩
  · exact ⟨_, _, shadowByte_row hm hc hr, hrows.written r (by omega), cellUpdateBits _ col _ hk⟩
  · simp only [setColumnWrites_index]
    omega

/-- Rows 0 to `k` of the chip have their one bit updated, and every other byte is as before (R141, R144). -/
theorem State.RowsWritten.setColumn {s t : State} {m : Memory} {chip col k : Nat} {value : Byte} (hm : s.sh = some m)
    (hc : chip < s.chips) (hk : k ≤ 7) (h : s.RowsWritten t (setColumnWrites m chip col value) (k + 1)) (i : Nat) :
    t.shadowByte i = if chip * 8 ≤ i ∧ i ≤ chip * 8 + k then
      (s.shadowByte i).map fun v => cellUpdate v col (value.getLsbD (7 - (i - chip * 8))) else s.shadowByte i := by
  refine h.shadowByte_eq (fun ⟨hlo, hhi⟩ => ?_) fun hi j hj => by simp only [setColumnWrites_index]; omega
  obtain ⟨r, rfl⟩ := Nat.exists_eq_add_of_le hlo
  have hold : s.shadowByte (chip * 8 + r) = some (m.read (chip * 8 + r)) := shadowByte_row hm hc (by omega)
  refine ⟨r, by omega, rfl, ?_⟩
  rw [hold, Nat.add_sub_cancel_left]
  rfl

/-- Settles O45: SET_COLUMN stops after `k` of its row writes. -/
theorem setColumnPartial : Obligations.SetColumnPartial := by
  intro s chip col k value hs hc hcol hk updated
  obtain ⟨⟨m, hm⟩, -⟩ := hs.ports
  obtain ⟨hwaits, hfails⟩ := (sendsRows_setColumn hs hc hcol value hm).stops (Nat.lt_succ_of_le hk)
    fun _ h => And.intro (h.written k k.lt_succ_self) (h.setColumn hm hc hk)
  refine ⟨fun hi => ?_, fun rest hi => ?_⟩
  · obtain ⟨t, ht, hpres, hkeeps, hpix, hbyte, hup⟩ := hwaits hi
    exact ⟨t, _, ht, hbyte, hpres, hkeeps, hpix, hup⟩
  · obtain ⟨t, ht, hend, hkeeps, hpix, hin, -, hup⟩ := hfails rest hi
    exact ⟨t, ht, hend, hkeeps, hpix, hin, hup⟩

/-! SET_ROW and SET_CELL -/

/-- SET_ROW, or SET_CELL with the updated byte, whose transaction succeeds: the one byte is written, and the chips have
latched its frame. -/
theorem row_completes {s : State} {i : Instr} {chip row : Nat} {w : Byte} {rest : List Input} (hs : s.Runs)
    (hc : chip < s.chips) (hr : row ≤ 7) (hin : s.inputs = okReplies 1 ++ rest)
    (hi : i = .setRow chip row w ∨ ∃ col lit v, i = .setCell chip row col lit ∧ col ≤ 7 ∧
      s.shadowByte (shadowIndex chip row) = some v ∧ w = cellUpdate v col lit) :
    ∃ t f, encodeFrame s.chips chip (s.cfg.reg.addr (.digit row)) w = some f ∧ exec i s = .next t ∧ t.Ended .ok 1 ∧
      s.Keeps t ∧ (∀ j, t.shadowByte j = if j = chip * 8 + row then some w else s.shadowByte j) ∧ t.pix = s.pix ∧
      t.taken = none ∧ t.chain = s.chain.latch f ∧ t.inputs = rest := by
  obtain ⟨⟨m, hm⟩, -⟩ := hs.ports
  obtain ⟨-, hshadow, -⟩ := hs.inv
  obtain ⟨f, hf⟩ := exists_encodeFrame hc (s.cfg.reg.addr (.digit row)) w
  obtain ⟨hdraw, item, hplan⟩ := runsPlan_row hs hc hr hm hf hi
  obtain ⟨t, ht, hend, hkeeps, hsh, hpix, htaken, hrest, hchain⟩ := hplan.completes Nat.one_pos hin
  exact ⟨t, f, hf, ht, hend, hkeeps, shadowByte_write hshadow hm (shadowHas_row (by simp [hm]) hc hr) hkeeps.n hsh,
    hpix.trans (if_neg hdraw), htaken, hchain, hrest⟩

/-- Settles O34: SET_ROW is one row write. -/
theorem setRowResult : Obligations.SetRowResult := fun _ _ _ _ _ hs hc hr hin =>
  row_completes hs hc hr hin (.inl rfl)

/-- Settles O35: SET_CELL is the row write of the updated byte. -/
theorem setCellResult : Obligations.SetCellResult := by
  intro s chip row col lit rest hs hc hr hk hin
  obtain ⟨⟨m, hm⟩, -⟩ := hs.ports
  have hold := shadowByte_row hm hc hr
  obtain ⟨t, f, hf, hrow⟩ := row_completes hs hc hr hin (.inr ⟨col, lit, _, rfl, hk, hold, rfl⟩)
  exact ⟨t, f, _, _, hold, rfl, hf, hrow⟩

/-! The silent no-ops -/

/-- Pseudocode whose first item is a `noop` leaves only the response (R131). -/
theorem State.Runs.stoppedPattern {s : State} {i : Instr} {m : Micro} {ms : List Micro} (hs : s.Runs) (hi : i ≠ .draw)
    (h : ∀ u : State, u.n = s.n → runMicro m u = noop u) :
    launch (m :: ms) (accept i s) = .next { s with cnt := 0#8, lastStatus := .ok, rspValid := true } :=
  (launch_noop (accept_seq i s) h).trans (hs.noop_accept hi)

/-- A SET_ROW of a chip or a row that is not there is a `noop` (R139). -/
theorem runMicro_setRow_noop {s u : State} {chip row : Nat} (h : s.chips ≤ chip ∨ 7 < row) (v : Byte) (hn : u.n = s.n) :
    runMicro (.setRow chip row v) u = noop u := by
  have hchips : u.chips = s.chips := congrArg BitVec.toNat hn
  refine setRow_noop ?_
  simp only [Micro.inRange, validRow, hchips, Bool.and_eq_false_iff, decide_eq_false_iff_not]
  omega

/-- A SET_CELL of a chip, a row or a column that is not there is a `noop` (R137). -/
theorem runMicro_setCell_noop {s u : State} {chip row col : Nat} (h : s.chips ≤ chip ∨ 7 < row ∨ 7 < col) (lit : Bool)
    (hn : u.n = s.n) : runMicro (.setCell chip row col lit) u = noop u := by
  have hchips : u.chips = s.chips := congrArg BitVec.toNat hn
  refine setCell_noop ?_
  simp only [Micro.inRange, validRow, validCol, hchips, Bool.and_eq_false_iff, decide_eq_false_iff_not]
  omega

/-- Settles O33: CLEAR is stopped by its chip check, and the others by the checks of their first item. -/
theorem patternNoop : Obligations.PatternNoop := by
  intro s i hs h
  rcases h with ⟨chip, rfl, hc⟩ | ⟨chip, row, col, lit, rfl, h⟩ | ⟨chip, row, v, rfl, h⟩ | ⟨row, v, rfl, hr⟩ |
    ⟨chip, col, v, rfl, h⟩
  · have hcheck : ¬ validChip s chip = true := by simpa [validChip] using hc
    exact ((exec_clear hs.life chip).trans (if_neg hcheck)).trans (hs.noop_accept (by simp))
  · exact (inReady_runs _ _ hs.life).trans
      (hs.stoppedPattern (by simp) fun _ hn => runMicro_setCell_noop h lit hn)
  · exact (inReady_runs _ _ hs.life).trans
      (hs.stoppedPattern (by simp) fun _ hn => runMicro_setRow_noop h v hn)
  · obtain ⟨n, hn⟩ := Nat.exists_eq_add_of_le' hs.chips_pos
    have hrun : exec (.setRowAll row v) s =
        launch ((List.range s.chips).map fun c => .setRow c row v) (accept (.setRowAll row v) s) :=
      inReady_runs _ _ hs.life
    rw [hrun, hn, List.range_succ_eq_map, List.map_cons]
    exact hs.stoppedPattern (by simp) fun _ hn => runMicro_setRow_noop (.inr hr) v hn
  · refine (inReady_runs _ _ hs.life).trans ?_
    rw [List.range_succ_eq_map, List.map_cons]
    exact hs.stoppedPattern (by simp) fun _ hn =>
      runMicro_setCell_noop (h.imp_right .inr) (columnBit v 0) hn

end Sys2Proof.Machine
end

section
/-! PROOFS. The rasterizer (spec/44_rasterizer.md): the bits of the raster byte, and DRAW as a run of row writes. -/

namespace Sys2Proof.Machine

/-! The raster byte -/

/-- The sum of R161 over the columns below `cols` only. -/
def rasterSum (pix : Plane) (chip row cols : Nat) : Byte :=
  (List.range cols).foldl (fun acc col => acc + rasterTerm pix chip row col) 0#8

theorem rasterByte_eq_rasterSum (pix : Plane) (chip row : Nat) : rasterByte pix chip row = rasterSum pix chip row 8 :=
  rfl

theorem rasterSum_succ (pix : Plane) (chip row cols : Nat) :
    rasterSum pix chip row (cols + 1) = rasterSum pix chip row cols + rasterTerm pix chip row cols := by
  simp [rasterSum, List.range_succ, List.foldl_append]

/-- A term of R161 has no bit but that of its column. -/
theorem rasterTerm_getLsbD (pix : Plane) (chip row : Nat) {own col : Nat} (hown : own ≤ 7) (hcol : col ≤ 7) :
    (rasterTerm pix chip row own).getLsbD (7 - col) =
      (decide (col = own) && pix.getLsbD (row * 64 + chip * 8 + own)) := by
  cases hpix : pix.getLsbD (row * 64 + chip * 8 + own) with
  | false => simp [rasterTerm, hpix]
  | true =>
    rw [rasterTerm, hpix, if_pos rfl, ← BitVec.twoPow_eq, BitVec.getLsbD_twoPow, Bool.and_true]
    simp only [← Bool.decide_and, decide_eq_decide]
    omega

/-- The sum has the pixels of the columns so far, each in its own bit: no term carries into another. -/
theorem rasterSum_getLsbD (pix : Plane) (chip row : Nat) {cols : Nat} (hcols : cols ≤ 8) {col : Nat} (hcol : col ≤ 7) :
    (rasterSum pix chip row cols).getLsbD (7 - col) =
      (decide (col < cols) && pix.getLsbD (row * 64 + chip * 8 + col)) := by
  induction cols generalizing col with
  | zero => simp [rasterSum]
  | succ cols ih =>
    have hsum {col : Nat} (hcol : col ≤ 7) := ih (Nat.le_of_succ_le hcols) hcol
    have hterm {col : Nat} (hcol : col ≤ 7) :=
      rasterTerm_getLsbD pix chip row (Nat.le_of_succ_le_succ hcols) hcol
    have hdisjoint : rasterSum pix chip row cols &&& rasterTerm pix chip row cols = 0#8 := by
      refine BitVec.eq_of_getLsbD_eq fun i hi => ?_
      obtain ⟨j, hj, rfl⟩ : ∃ j, j ≤ 7 ∧ i = 7 - j := ⟨7 - i, by omega, by omega⟩
      rw [BitVec.getLsbD_and, hsum hj, hterm hj, BitVec.getLsbD_zero]
      by_cases hlast : j = cols <;> simp [hlast]
    rw [rasterSum_succ, BitVec.add_eq_or_of_and_eq_zero _ _ hdisjoint, BitVec.getLsbD_or, hsum hcol, hterm hcol]
    by_cases hlast : col = cols
    · simp [hlast]
    · have hlt : col < cols + 1 ↔ col < cols := by omega
      simp only [hlast, hlt, decide_false, Bool.false_and, Bool.or_false]

/-- Settles O46: the sum of all eight columns has each pixel in its own bit. -/
theorem rasterByteBits : Obligations.RasterByteBits := by
  intro pix c r col hcol
  rw [rasterByte_eq_rasterSum, rasterSum_getLsbD pix c r le_rfl hcol, decide_eq_true (Nat.lt_succ_of_le hcol),
    Bool.true_and]

/-! DRAW -/

/-- The rows that DRAW writes on `n` chips: row 0 of every chip first (R162), each with its raster byte. -/
def drawWrites (pix : Plane) (n k : Nat) : RowWrite := ⟨k % n, k / n, rasterByte pix (k % n) (k / n)⟩

/-- The row write of a row of a chip has number `r*n + c` (R162). -/
theorem drawWrites_row (pix : Plane) {n c : Nat} (hc : c < n) (r : Nat) :
    drawWrites pix n (r * n + c) = ⟨c, r, rasterByte pix c r⟩ := by
  have hmod : (r * n + c) % n = c := by rw [Nat.mul_add_mod', Nat.mod_eq_of_lt hc]
  have hdiv : (r * n + c) / n = r := by
    rw [Nat.mul_comm, Nat.mul_add_div (Nat.zero_lt_of_lt hc), Nat.div_eq_of_lt hc, Nat.add_zero]
  rw [drawWrites, hmod, hdiv]

/-- A shadow index tells the chip and the row (20_memory.md R45). -/
theorem shadowIndex_inj {c c' r r' : Nat} (hr : r ≤ 7) (hr' : r' ≤ 7) :
    shadowIndex c r = shadowIndex c' r' ↔ c = c' ∧ r = r' := by
  simp only [shadowIndex]
  omega

/-- No other of the `8*n` row writes is to that byte. -/
theorem drawWrites_index_eq_iff {pix : Plane} {n c r k : Nat} (hc : c < n) (hr : r ≤ 7) (hk : k < 8 * n) :
    (drawWrites pix n k).index = c * 8 + r ↔ k = r * n + c := by
  have hrow : k / n < 8 := Nat.div_lt_of_lt_mul (Nat.mul_comm 8 n ▸ hk)
  constructor
  · intro h
    obtain ⟨hmod, hdiv⟩ := (shadowIndex_inj (Nat.le_of_lt_succ hrow) hr).mp h
    rw [← hdiv, ← hmod]
    exact (Nat.div_add_mod' k n).symm
  · rintro rfl
    rw [drawWrites_row pix hc]
    rfl

theorem drawFrames_length (n : Nat) : (drawFrames n).length = 8 * n := by
  simp only [drawFrames, List.length_flatMap, List.length_map, List.length_range, List.map_const', List.sum_replicate,
    smul_eq_mul]

/-- Item `k` of DRAW is row `k div n` of chip `k mod n` (R162). -/
theorem drawFrames_getElem? {n k : Nat} (hk : k < 8 * n) : (drawFrames n)[k]? = some (.drawRow (k % n) (k / n)) := by
  have hpos : 0 < n := by omega
  rw [drawFrames, getElem?_flatMap_range (len := n) (by simp) (Nat.mul_comm 8 n ▸ hk)]
  simp [Nat.mod_lt k hpos]

/-- DRAW writes every row of every chip, with the plane that it has just latched (R160, 10_state.md R26). -/
theorem sendsRows_draw {s : State} (hs : s.Runs) :
    s.SendsRows .draw (drawFrames s.chips) (drawWrites s.pixIn s.chips) (8 * s.chips) where
  runs := hs
  notInit := by simp
  exec := inReady_runs .draw (fun u => launch (drawFrames u.chips) u) hs.life
  length := drawFrames_length s.chips
  inRange := drawFrames_inRange s.chips
  writes k hk := by
    have hitem := drawFrames_getElem? (drawFrames_length s.chips ▸ hk)
    exact .inr (.inr (.inl ⟨(List.getElem_eq_iff hk).mpr hitem, rfl⟩))
  distinct j l hjl hl := by
    have hc : l % s.chips < s.chips := Nat.mod_lt l hs.chips_pos
    have hr : l / s.chips < 8 := Nat.div_lt_of_lt_mul (Nat.mul_comm 8 s.chips ▸ hl)
    intro hsame
    have hj := (drawWrites_index_eq_iff hc (Nat.le_of_lt_succ hr) (hjl.trans hl)).mp hsame
    rw [Nat.div_add_mod'] at hj
    exact hjl.ne hj

/-- The row writes so far are those numbered below `k` (R162), and the other rows have their old bytes (R164). -/
theorem State.RowsWritten.draw {s t : State} {pix : Plane} {n k : Nat} (hk : k ≤ 8 * n)
    (h : s.RowsWritten t (drawWrites pix n) k) {c r : Nat} (hc : c < n) (hr : r ≤ 7) :
    t.shadowByte (c * 8 + r) = if r * n + c < k then some (rasterByte pix c r) else s.shadowByte (c * 8 + r) := by
  have hrow := drawWrites_row pix hc r
  refine h.shadowByte_eq (fun hlt => ⟨r * n + c, hlt, by rw [hrow]; rfl, by rw [hrow]⟩) fun hge j hj hindex => ?_
  exact hge ((drawWrites_index_eq_iff hc hr (hj.trans_le hk)).mp hindex ▸ hj)

/-- Settles O47: DRAW is `8*N` row writes, one to each byte. -/
theorem drawResult : Obligations.DrawResult := by
  intro s rest hs hi
  obtain ⟨t, ht, hend, hkeeps, hrows, hpix, htaken, hin⟩ :=
    (sendsRows_draw hs).completes (Nat.mul_pos (by omega) hs.chips_pos) hi
  refine ⟨t, ht, hend, hkeeps, hpix, fun c r hc hr => ?_, htaken, hin⟩
  have hlast : r * s.chips + c < 8 * s.chips := by
    have hle : r * s.chips ≤ 7 * s.chips := Nat.mul_le_mul_right s.chips hr
    omega
  exact (hrows.draw le_rfl hc hr).trans (if_pos hlast)

/-- Settles O48: DRAW stops after `k` of its row writes. -/
theorem drawPartial : Obligations.DrawPartial := fun _ _ hs hk =>
  (sendsRows_draw hs).stops hk fun _ h _ _ hc hr =>
    (h.draw hk hc hr).trans (if_congr Nat.lt_succ_iff rfl rfl)

end Sys2Proof.Machine
end

section
/-! PROOFS. The chain of chips (spec/45_chain_environment.md): what one transaction does to the registers of a chain of
`n` chips, and what a command of row writes leaves in them. -/

namespace Sys2Proof.Machine

/-! One transaction -/

/-- A frame is for a chip of the chain. -/
theorem lt_of_encodeFrame {n t : Nat} {op d : Byte} {f : Frame} (h : encodeFrame n t op d = some f) : t < n := by
  have := encodeFrame_isSome n t op d
  simpa [h] using this

section
variable {h : Chain} {n t : Nat} {op d : Byte} {f : Frame}

/-- The pair that `Encode(t, op, d)` routes to a chip addresses a register other than NOP exactly in the target. -/
theorem routedPair_addresses_iff (hf : encodeFrame n t op d = some f) {c : Nat} (hc : c < n) {a : Byte}
    (ha : a ≠ regNop) : ((routedPair n c f).1 = a ∧ a ≠ regNop) ↔ c = t ∧ a = op := by
  rw [routedPair_encodeFrame hf (lt_of_encodeFrame hf) hc]
  by_cases hct : c = t
  · simp [hct, ha, eq_comm]
  · simp [hct, show (0#8 = a) ↔ False from iff_false_intro fun h => ha h.symm]

/-- A frame that goes through writes the target's register and no other (45_chain_environment.md R174, R175). -/
theorem latch_encodeFrame_reg (hagrees : h.agrees n = true) (hf : encodeFrame n t op d = some f) {c : Nat} (hc : c < n)
    {a : Byte} (ha : a ≠ regNop) : (h.latch f).reg c a = if c = t ∧ a = op then d else h.reg c a := by
  have hlen := encodeFrame_length hf
  have hsize := size_of_agrees hagrees hlen
  rw [latch_reg (fits_of_agrees hagrees hlen) (hsize.symm ▸ hc), hsize]
  refine (if_congr (routedPair_addresses_iff hf hc ha) rfl rfl).trans (ite_congr rfl (fun hct => ?_) fun _ => rfl)
  rw [routedPair_encodeFrame hf (lt_of_encodeFrame hf) hc, if_pos hct.1]

/-- Without `HAVOC_ON_FAIL` a frame that fails makes the target's register unknown and no other (R176). -/
theorem fail_encodeFrame_reg (hagrees : h.agrees n = true) (hf : encodeFrame n t op d = some f) {c : Nat} (hc : c < n)
    {a : Byte} (ha : a ≠ regNop) :
    (h.fail false f).reg c a = if c = t ∧ a = op then Config.freeReg h.draws c a.toNat else h.reg c a := by
  have hlen := encodeFrame_length hf
  have hsize := size_of_agrees hagrees hlen
  rw [fail_reg_target (fits_of_agrees hagrees hlen) (hsize.symm ▸ hc), hsize]
  exact if_congr (routedPair_addresses_iff hf hc ha) rfl rfl

/-- With `HAVOC_ON_FAIL` no register is known after a failed transaction (R176). -/
theorem fail_havoc_unknown (c : Nat) (a : Byte) : (h.fail true f).known c a = false := by
  unfold Chain.fail
  split <;> rfl

/-- A failed transaction uses up one draw. -/
theorem fail_draws (havoc : Bool) : (h.fail havoc f).draws = h.draws + 1 := by
  unfold Chain.fail
  split
  · cases havoc <;> rfl
  · rfl

/-- After a frame for `n` chips that goes through the chain is one of `n` chips, and there is no new fault of the
wiring. -/
theorem latch_wiring (hagrees : h.agrees n = true) (hf : f.length = 2 * n) :
    (h.latch f).wired = some n ∧ (h.latch f).miswired = h.miswired :=
  size_of_agrees hagrees hf ▸ complete_of_fits (fits_of_agrees hagrees hf) false true

end

/-- Settles O20: the target's pair is the only one that is no NOP pair. -/
theorem latchChangesTargetOnly : Obligations.LatchChangesTargetOnly := by
  intro h n t op d f hagrees _ _ hf
  obtain ⟨hwired, hmiswired⟩ := latch_wiring hagrees (encodeFrame_length hf)
  exact ⟨hwired, hmiswired, fun c a hc ha => latch_encodeFrame_reg hagrees hf hc ha⟩

/-- Settles O21. -/
theorem failedFrameEffect : Obligations.FailedFrameEffect := by
  intro h n t op d f hagrees ht hop hf
  refine ⟨fun c a => ⟨fail_havoc_unknown c a, fail_reg_havoc c a⟩, ?_, fun c a hc ha hother => ?_,
    fun havoc => fail_draws havoc⟩
  · exact (fail_encodeFrame_reg hagrees hf ht hop).trans (if_pos ⟨rfl, rfl⟩)
  · exact (fail_encodeFrame_reg hagrees hf hc ha).trans (if_neg hother)

/-! The row registers -/

/-- A conforming table has its eight row registers apart, and none at the address of NOP (00_scope.md R7). -/
theorem digit_eq_iff {t : RegTable} {r r' : Nat} (hr : r ≤ 7) (hr' : r' ≤ 7) :
    t.addr (.digit r) = t.addr (.digit r') ↔ r = r' := by
  rw [RegTable.addr, RegTable.addr, BitVec.add_right_inj, ← BitVec.toNat_inj, BitVec.toNat_ofNat, BitVec.toNat_ofNat]
  omega

theorem digit_ne_nop {t : RegTable} {r : Nat} (ht : t.conforming = true) (hr : r ≤ 7) :
    t.addr (.digit r) ≠ regNop := by
  simp only [RegTable.conforming, Bool.and_eq_true, decide_eq_true_eq] at ht
  simp only [RegTable.addr, regNop, ne_eq, ← BitVec.toNat_inj, BitVec.toNat_add, BitVec.toNat_ofNat]
  omega

/-! A run of row writes -/

/-- The row write is of this register of this chip. -/
abbrev RowWrite.hits (t : RegTable) (w : RowWrite) (c : Nat) (a : Byte) : Prop := c = w.chip ∧ a = t.addr (.digit w.row)

section
variable {s : State} {i : Instr} {ms : List Micro} {w : Nat → RowWrite} {total : Nat}

/-- Different rows have different registers. -/
theorem State.SendsRows.hits_once (h : s.SendsRows i ms w total) {j k : Nat} (hjk : j < k) (hk : k < total) :
    ¬ (w k).hits s.cfg.reg (w j).chip (s.cfg.reg.addr (.digit (w j).row)) := by
  rintro ⟨hchip, hreg⟩
  have hrow := (digit_eq_iff (h.valid (hjk.trans hk)).2 (h.valid hk).2).mp hreg
  exact h.distinct j k hjk hk (by rw [RowWrite.index, RowWrite.index, hchip, hrow])

/-- The chain stays one of `n` chips. -/
theorem State.SendsRows.agrees_chainAfter (h : s.SendsRows i ms w total) (ha : s.chain.agrees s.chips = true) {k : Nat}
    (hk : k ≤ total) : (chainAfter s.chain (rowFrameAt s w) k).agrees s.chips = true := by
  induction k with
  | zero => exact ha
  | succ k ih =>
    rw [chainAfter, Chain.agrees, (latch_wiring (ih (Nat.le_of_succ_le hk)) (encodeFrame_length (h.frame_eq hk))).1]
    simp

/-- The next row write gives its register its byte and leaves every other. -/
theorem State.SendsRows.chainAfter_succ_reg (h : s.SendsRows i ms w total) (ha : s.chain.agrees s.chips = true)
    {k c : Nat} (hk : k < total) (hc : c < s.chips) {a : Byte} (hnop : a ≠ regNop) :
    (chainAfter s.chain (rowFrameAt s w) (k + 1)).reg c a =
      if (w k).hits s.cfg.reg c a then (w k).byte
      else (chainAfter s.chain (rowFrameAt s w) k).reg c a :=
  latch_encodeFrame_reg (h.agrees_chainAfter ha hk.le) (h.frame_eq hk) hc hnop

/-- After `k` row writes every register that they do not address is as it was. -/
theorem State.SendsRows.chainAfter_other (h : s.SendsRows i ms w total) (ha : s.chain.agrees s.chips = true) {k c : Nat}
    (hk : k ≤ total) (hc : c < s.chips) {a : Byte} (hnop : a ≠ regNop) (hn : ∀ j, j < k → ¬ (w j).hits s.cfg.reg c a) :
    (chainAfter s.chain (rowFrameAt s w) k).reg c a = s.chain.reg c a := by
  induction k with
  | zero => rfl
  | succ k ih =>
    rw [h.chainAfter_succ_reg ha hk hc hnop, if_neg (hn k k.lt_succ_self)]
    exact ih (Nat.le_of_succ_le hk) fun j hj => hn j (hj.trans k.lt_succ_self)

/-- After `k` row writes each of their registers holds its byte. -/
theorem State.SendsRows.chainAfter_written (h : s.SendsRows i ms w total) (ha : s.chain.agrees s.chips = true)
    (ht : s.cfg.reg.conforming = true) {k j : Nat} (hk : k ≤ total) (hj : j < k) :
    (chainAfter s.chain (rowFrameAt s w) k).reg (w j).chip (s.cfg.reg.addr (.digit (w j).row)) = (w j).byte := by
  induction k with
  | zero => cases hj
  | succ k ih =>
    obtain ⟨hc, hr⟩ := h.valid (hj.trans_le hk)
    rw [h.chainAfter_succ_reg ha hk hc (digit_ne_nop ht hr)]
    rcases Nat.lt_succ_iff_lt_or_eq.mp hj with hlt | rfl
    · rw [if_neg (h.hits_once hlt hk)]
      exact ih (Nat.le_of_succ_le hk) hlt
    · rw [if_pos ⟨rfl, rfl⟩]

/-- When every transaction succeeds, each row's register holds the byte that was written to the shadow, and every other
register is as it was (R175, R179). -/
theorem State.SendsRows.reaches_chips (h : s.SendsRows i ms w total) (hpos : 0 < total)
    (ha : s.chain.agrees s.chips = true) (ht : s.cfg.reg.conforming = true) {rest : List Input}
    (hi : s.inputs = okReplies total ++ rest) :
    ∃ t, Machine.exec i s = .next t ∧ t.lastStatus = .ok ∧ t.busy = false ∧ s.Keeps t ∧
      (∀ k, k < total → t.shadowByte (w k).index = some (w k).byte ∧
        t.chain.reg (w k).chip (s.cfg.reg.addr (.digit (w k).row)) = (w k).byte) ∧
      ∀ c a, c < s.chips → a ≠ regNop → (∀ k, k < total → ¬ (w k).hits s.cfg.reg c a) →
        t.chain.reg c a = s.chain.reg c a := by
  obtain ⟨⟨m, hm⟩, -⟩ := h.runs.ports
  have hlen := h.length
  subst hlen
  obtain ⟨t, hexec, hend, hkeeps, hsh, -, -, -, hchain⟩ := (h.runsPlan hm).completes hpos hi
  have hrows := h.rowsWritten hm le_rfl hkeeps.n hsh
  refine ⟨t, hexec, hend.lastStatus, hend.busy, hkeeps, fun k hk => ⟨hrows.written k hk, ?_⟩, fun c a hc hnop hn => ?_⟩
  · exact hchain ▸ h.chainAfter_written ha ht le_rfl hk
  · exact hchain ▸ h.chainAfter_other ha le_rfl hc hnop hn

end

/-! The commands that write rows -/

/-- A double loop by one counter. -/
theorem flatMap_range_eq_map {α : Type} (g : Nat → Nat → α) (n len : Nat) :
    (List.range n).flatMap (fun c => (List.range len).map (g c)) =
      (List.range (len * n)).map fun k => g (k / len) (k % len) := by
  refine List.ext_getElem? fun k => ?_
  rcases Nat.lt_or_ge k (len * n) with hk | hk
  · have hlen : 0 < len := Nat.pos_of_ne_zero fun h => by simp [h] at hk
    rw [getElem?_flatMap_range (len := len) (by simp) hk]
    simp [hk, Nat.mod_lt k hlen]
  · rw [List.getElem?_eq_none (by simpa [List.length_flatMap, Nat.mul_comm] using hk),
      List.getElem?_eq_none (by simpa using hk)]

/-- SET_ROW of a row that is there, and SET_CELL with the updated byte, is one row write (43_pattern.md R137, R139). -/
theorem sendsRows_single {s : State} {i : Instr} {m : Micro} {w : RowWrite} (hs : s.Runs) (hi : ∀ req, i ≠ .init req)
    (he : exec i s = launch [m] (accept i s)) (hm : m.inRange s.chips = true) (hw : m.Writes (accept i s) w) :
    s.SendsRows i [m] (fun _ => w) 1 where
  runs := hs
  notInit := hi
  exec := he
  length := rfl
  inRange := by simpa using hm
  writes k hk := by
    obtain rfl : k = 0 := by simpa using hk
    exact hw
  distinct j l hjl hl := by omega

/-- A command that writes rows, with operands that are there, is a run of the row writes that `rowsSent` lists. -/
theorem sendsRows_of_rowsValid {s : State} {i : Instr} (hs : s.Runs) (hv : rowsValid s.chips i = true) :
    ∃ ms w total, 0 < total ∧ s.SendsRows i ms w total ∧
      rowsSent s.chips i = (List.range total).map fun k => ((w k).chip, (w k).row) := by
  obtain ⟨⟨m, hm⟩, -⟩ := hs.ports
  have hpos := hs.chips_pos
  cases i with
  | clear chip => exact ⟨_, _, 8, by omega, sendsRows_clear hs (of_decide_eq_true hv), rfl⟩
  | clearAll => exact ⟨_, _, _, by omega, sendsRows_clearAll hs, flatMap_range_eq_map Prod.mk s.chips 8⟩
  | setCell chip row col lit =>
    have hrange : (Micro.setCell chip row col lit).inRange s.chips = true := hv
    simp only [rowsValid, validRow, validCol, Bool.and_eq_true, decide_eq_true_eq] at hv
    obtain ⟨⟨hc, hr⟩, -⟩ := hv
    have hold := shadowByte_row hm hc hr
    exact ⟨_, _, 1, Nat.one_pos, sendsRows_single (w := ⟨chip, row, _⟩) hs (by simp) (inReady_runs _ _ hs.life) hrange
      (.inr (.inr (.inr ⟨col, lit, _, rfl, hold, rfl⟩))), rfl⟩
  | setRow chip row v =>
    exact ⟨_, _, 1, Nat.one_pos, sendsRows_single (w := ⟨chip, row, v⟩) hs (by simp) (inReady_runs _ _ hs.life) hv
      (.inr (.inl rfl)), rfl⟩
  | setRowAll row v => exact ⟨_, _, _, hpos, sendsRows_setRowAll hs (of_decide_eq_true hv) v, rfl⟩
  | setColumn chip col v =>
    simp only [rowsValid, validCol, Bool.and_eq_true, decide_eq_true_eq] at hv
    exact ⟨_, _, 8, by omega, sendsRows_setColumn hs hv.1 hv.2 v hm, rfl⟩
  | draw =>
    refine ⟨_, _, _, by omega, sendsRows_draw hs, ?_⟩
    rw [Nat.mul_comm 8]
    exact flatMap_range_eq_map (fun r c => (c, r)) 8 s.chips
  | init req => cases hv
  | setPower chip on => cases hv
  | setScanLimit chip limit => cases hv
  | setIntensity chip level => cases hv
  | release => cases hv

/-- Settles O50: every row that is sent is a row write whose frame goes through. -/
theorem rowRegisterMirrorsShadow : Obligations.RowRegisterMirrorsShadow := by
  intro s i rest hs hagrees hreg hv hi
  obtain ⟨ms, w, total, hpos, hsends, hsent⟩ := sendsRows_of_rowsValid hs hv
  have htotal : (rowsSent s.chips i).length = total := by simp [hsent]
  obtain ⟨t, ht, hstatus, hbusy, hkeeps, hrows, hother⟩ := hsends.reaches_chips hpos hagrees hreg (htotal ▸ hi)
  refine ⟨t, ht, hstatus, hbusy, fun p hp => ?_, fun c a hc ha hn => hother c a hc ha fun k hk ⟨hchip, hrow⟩ => ?_⟩
  · obtain ⟨k, hk, rfl⟩ := List.mem_map.mp (hsent ▸ hp)
    obtain ⟨hbyte, hreg⟩ := hrows k (List.mem_range.mp hk)
    rw [State.rowMirrored, hkeeps.cfg, hreg]
    exact hbyte
  · exact hn (w k).row (hsent ▸ List.mem_map.mpr ⟨k, List.mem_range.mpr hk, by rw [hchip]⟩) hrow

/-- Settles O49: each of DRAW's row writes brings its register the raster byte of its row. -/
theorem drawReachesTheChips : Obligations.DrawReachesTheChips := by
  intro s rest hs hagrees hreg hi
  obtain ⟨t, ht, hstatus, -, hkeeps, hrows, -⟩ :=
    (sendsRows_draw hs).reaches_chips (Nat.mul_pos (by omega) hs.chips_pos) hagrees hreg hi
  refine ⟨t, ht, hstatus, fun c r hc hr => ?_⟩
  have hlast : r * s.chips + c < 8 * s.chips := by
    have hle : r * s.chips ≤ 7 * s.chips := Nat.mul_le_mul_right s.chips hr
    omega
  obtain ⟨hbyte, hrow⟩ := hrows _ hlast
  rw [drawWrites_row s.pixIn hc] at hbyte hrow
  exact ⟨hrow, hbyte.trans (congrArg some hrow.symm)⟩

end Sys2Proof.Machine
end

section
/-! PROOFS. What an item of pseudocode in range presents, what a command that is accepted gives the sequencer, and what
the frames in flight are: of a control register, or of a row with its shadow byte (spec/45_chain_environment.md
R181). -/

namespace Sys2Proof.Machine

/-- What an operation is known to answer is what it answers. -/
theorem of_eq_next {r : Result} {P : State → Prop} {t : State} (h : ∃ u, r = .next u ∧ P u) (ht : r = .next t) :
    P t := by
  obtain ⟨u, hu, hP⟩ := h
  exact Host.Outcome.next.inj (hu.symm.trans ht) ▸ hP

/-! One item -/

/-- What an item in range does: it presents a frame of its own, or writes a row and presents the row's frame. -/
inductive RunsItem (s : State) : Micro → State → Prop
  | sends {chip : Nat} {reg : Reg} {d : Byte} {f : Frame}
      (hf : encodeFrame s.chips chip (s.cfg.reg.addr reg) d = some f) :
      RunsItem s (.send chip reg d) { s with frame := some f, txValid := true }
  | writes {m : Micro} {w : RowWrite} {f : Frame} {mem : Memory} (hw : m.Writes s w) (hc : w.chip < s.chips)
      (hr : w.row ≤ 7) (hf : w.frame s = some f) (hm : s.sh = some mem) :
      RunsItem s m { s with sh := some (mem.write w.index w.byte), frame := some f, txValid := true }

/-- An item sends a frame of its own or writes a row. -/
theorem Micro.sends_or_writes {m : Micro} {s : State} {mem : Memory} (hm : m.inRange s.chips = true)
    (hs : s.sh = some mem) : (∃ chip reg d, m = .send chip reg d) ∨ ∃ w, m.Writes s w := by
  cases m with
  | send chip reg d => exact .inl ⟨chip, reg, d, rfl⟩
  | clearRow chip row => exact .inr ⟨⟨chip, row, 0x00#8⟩, .inl ⟨rfl, rfl⟩⟩
  | setRow chip row v => exact .inr ⟨⟨chip, row, v⟩, .inr (.inl rfl)⟩
  | setCell chip row col lit =>
    simp only [Micro.inRange, validRow, Bool.and_eq_true, decide_eq_true_eq] at hm
    obtain ⟨⟨hc, hr⟩, -⟩ := hm
    have hold := shadowByte_row hs hc hr
    exact .inr ⟨⟨chip, row, cellUpdate _ col lit⟩, .inr (.inr (.inr ⟨col, lit, _, rfl, hold, rfl⟩))⟩
  | drawRow chip row => exact .inr ⟨⟨chip, row, rasterByte s.pix chip row⟩, .inr (.inr (.inl ⟨rfl, rfl⟩))⟩

theorem runMicro_runsItem {m : Micro} {s t : State} {mem : Memory} (hm : m.inRange s.chips = true)
    (hs : s.sh = some mem) (h : runMicro m s = .next t) : RunsItem s m t := by
  rcases Micro.sends_or_writes hm hs with ⟨chip, reg, d, rfl⟩ | ⟨w, hw⟩
  · obtain ⟨f, hf⟩ := exists_encodeFrame (of_decide_eq_true hm) (s.cfg.reg.addr reg) d
    exact Host.Outcome.next.inj ((runMicro_send hf).symm.trans h) ▸ .sends hf
  · obtain ⟨hc, hr, hwrite⟩ := runMicro_eq_writeRow hm hw
    obtain ⟨f, hf, hpresent⟩ := writeRow_has w.byte hc (shadowHas_row (by simp [hs]) hc hr)
    rw [hwrite, hpresent, hs] at h
    exact Host.Outcome.next.inj h ▸ .writes hw hc hr hf hs

/-- Between two frames the sequencer ends the command, or runs its next item. -/
theorem State.Between.advance_cases {s t : State} {i : Instr} {ms : List Micro} (h : s.Between i ms)
    (ht : Machine.advance s = .next t) :
    (ms = [] ∧ t = finish .ok s) ∨ ∃ m ms', ms = m :: ms' ∧ RunsItem { s with seq := some ⟨i, ms'⟩ } m t := by
  cases ms with
  | nil =>
    simp only [Machine.advance, h.seq] at ht
    exact .inl ⟨rfl, (Host.Outcome.next.inj ht).symm⟩
  | cons m ms =>
    obtain ⟨mem, hmem⟩ := Option.isSome_iff_exists.mp ((lifeOk_ready h.life).mp h.lifeOk).2
    simp only [Machine.advance, h.seq] at ht
    exact .inr ⟨m, ms, rfl, runMicro_runsItem (h.inRange m List.mem_cons_self) hmem ht⟩

/-- The byte of a row after it has been written, and every other byte of the shadow. -/
theorem shadowByte_rowWrite {s t : State} {w : RowWrite} {mem : Memory} (hok : s.shadowOk = true) (hm : s.sh = some mem)
    (hc : w.chip < s.chips) (hr : w.row ≤ 7) (hn : t.n = s.n) (ht : t.sh = some (mem.write w.index w.byte)) (j : Nat) :
    t.shadowByte j = if j = w.index then some w.byte else s.shadowByte j :=
  shadowByte_write hok hm (shadowHas_row (by simp [hm]) hc hr) hn ht j

/-! An accepted command -/

/-- A frame of a command's own is of a control register (R181). -/
def Micro.MaySend (m : Micro) : Prop := ∀ chip reg d, m = .send chip reg d → reg ∈ controlRegs

theorem Micro.Writes.maySend {m : Micro} {s : State} {w : RowWrite} (h : m.Writes s w) : m.MaySend := by
  rintro chip reg d rfl
  rcases h with ⟨h, -⟩ | h | ⟨h, -⟩ | ⟨col, lit, v, h, -⟩ <;> cases h

/-- From `s` to `t` no command has begun that is still in flight: `t` is idle, with the chips' rows and the shadow of
`s` if it is still in `READY`. -/
structure State.RestsAt (s t : State) : Prop where
  busy : t.busy = false
  seq : t.seq = none
  frame : t.frame = none
  taken : t.taken = s.taken
  cfg : t.cfg = s.cfg
  ready : t.life = .ready → s.life = .ready ∧ t.n = s.n ∧ t.sh = s.sh ∧ t.chain = s.chain

/-- What an accepted command has led to: an end without a frame, or the run of pseudocode whose items are in range and
whose own frames are of control registers. -/
inductive Accepted (i : Instr) (s : State) : State → Prop
  | ends {t : State} (h : s.RestsAt t) : Accepted i s t
  | launches {t : State} (ms : List Micro) (hl : s.life = .ready) (hr : ∀ m ∈ ms, m.inRange s.chips = true)
      (hs : ∀ m ∈ ms, m.MaySend) (h : launch ms (accept i s) = .next t) : Accepted i s t
  | begins {t : State} (req : Nat) (hl : s.life ≠ .ready)
      (h : launch (initFrames s.cfg (effLen req)) (beginLife (effLen req) (accept i s)) = .next t) : Accepted i s t

section
variable {s t : State} {i : Instr}

theorem accepted_of_sendsRows {ms : List Micro} {w : Nat → RowWrite} {total : Nat} (h : s.SendsRows i ms w total)
    (ht : exec i s = .next t) : Accepted i s t := by
  refine .launches ms h.runs.life h.inRange (fun m hm => ?_) (h.exec.symm.trans ht)
  obtain ⟨k, hk, rfl⟩ := List.mem_iff_getElem.mp hm
  exact (h.writes k hk).maySend

/-- A ready port: nothing is in flight. -/
theorem State.Operating.ports {s : State} (h : s.Operating) (hc : s.cmdReady = true) :
    s.busy = false ∧ s.rspValid = false ∧ s.seq = none ∧ s.frame = none ∧ s.txValid = false := by
  obtain ⟨hb, hrsp, -⟩ := (cmdReady_iff s).mp hc
  exact ⟨hb, hrsp, (flightOk_idle hb).mp h.flightOk⟩

/-- A command that ends without a frame leaves nothing in flight. -/
theorem restsAt_finish (h : s.Operating) (hc : s.cmdReady = true) (st : Status) :
    s.RestsAt (finish st (accept i s)) := by
  obtain ⟨-, -, -, hf, -⟩ := h.ports hc
  exact ⟨rfl, rfl, hf, rfl, rfl, fun hl => ⟨hl, rfl, rfl, rfl⟩⟩

theorem restsAt_raise (h : s.Operating) (hc : s.cmdReady = true) {st : Status} (hst : st ≠ .transportFail) :
    s.RestsAt (raise st (accept i s)) := by
  obtain ⟨-, -, -, hf, -⟩ := h.ports hc
  rw [raise_of_ne_transportFail hst]
  exact ⟨rfl, rfl, hf, rfl, rfl, fun hl => ⟨hl, rfl, rfl, rfl⟩⟩

theorem restsAt_release (h : s.Operating) (hc : s.cmdReady = true) :
    s.RestsAt (finish .ok { accept i s with life := .released, n := 0#4, sh := none }) := by
  obtain ⟨-, -, -, hf, -⟩ := h.ports hc
  exact ⟨rfl, rfl, hf, rfl, rfl, nofun⟩

/-- On a ready port a `noop` leaves only its response. -/
theorem accepted_of_noop (h : s.Operating) (hc : s.cmdReady = true)
    (hn : exec i s = .next { s with cnt := 0#8, lastStatus := .ok, rspValid := true }) (ht : exec i s = .next t) :
    Accepted i s t := by
  obtain ⟨hb, -, hq, hf, -⟩ := h.ports hc
  exact Host.Outcome.next.inj (hn.symm.trans ht) ▸ .ends ⟨hb, hq, hf, rfl, rfl, fun hl => ⟨hl, rfl, rfl, rfl⟩⟩

/-- A control command sends its one frame, or a check stops it (42_chip_config.md R115, R118). -/
theorem accepted_sendControl (h : s.Operating) (hs : s.Runs) {chip : Nat} {guarded : Bool} {r : Reg} {d : Byte}
    (hi : i ≠ .draw) (hr : r ∈ controlRegs) (he : exec i s = inReady i (sendControl chip guarded r d) s)
    (ht : exec i s = .next t) : Accepted i s t := by
  by_cases hgo : chip < s.chips ∧ guarded = true
  · obtain ⟨hc, hg⟩ := hgo
    rw [he, inReady_runs _ _ hs.life, sendControl_launches (s := accept i s) hc hg] at ht
    refine .launches _ hs.life (by simpa [Micro.inRange] using hc) (fun m hm => ?_) ht
    obtain rfl := List.mem_singleton.mp hm
    rintro _ _ _ ⟨⟩
    exact hr
  · have hstop : s.chips ≤ chip ∨ guarded = false := by
      rwa [not_and_or, Nat.not_lt, Bool.not_eq_true] at hgo
    exact accepted_of_noop h hs.cmdReady (he.trans (hs.stoppedControl hi hstop r d)) ht

/-- A command in `READY` that writes no rows, for want of its operands or for good. -/
theorem accepted_of_not_rowsValid (h : s.Operating) (hs : s.Runs) (hv : ¬ rowsValid s.chips i = true)
    (ht : exec i s = .next t) : Accepted i s t := by
  have noop := fun hn => accepted_of_noop h hs.cmdReady (patternNoop s i hs hn) ht
  have hl := hs.life
  cases i with
  | init req =>
    simp only [exec, execInit, accept_life, hl] at ht
    exact Host.Outcome.next.inj ht ▸ .ends (restsAt_raise h hs.cmdReady (by simp))
  | setPower chip on => exact accepted_sendControl h hs (by simp) (by simp [controlRegs]) rfl ht
  | setScanLimit chip limit => exact accepted_sendControl h hs (by simp) (by simp [controlRegs]) rfl ht
  | setIntensity chip level => exact accepted_sendControl h hs (by simp) (by simp [controlRegs]) rfl ht
  | clear chip =>
    exact noop (.inl ⟨chip, rfl, by simpa [rowsValid] using hv⟩)
  | clearAll => exact absurd rfl hv
  | setCell chip row col lit =>
    simp only [rowsValid, validRow, validCol, Bool.and_eq_true, decide_eq_true_eq] at hv
    exact noop (.inr (.inl ⟨chip, row, col, lit, rfl, by omega⟩))
  | setRow chip row v =>
    simp only [rowsValid, validRow, Bool.and_eq_true, decide_eq_true_eq] at hv
    exact noop (.inr (.inr (.inl ⟨chip, row, v, rfl, by omega⟩)))
  | setRowAll row v =>
    simp only [rowsValid, validRow, decide_eq_true_eq] at hv
    exact noop (.inr (.inr (.inr (.inl ⟨row, v, rfl, by omega⟩))))
  | setColumn chip col v =>
    simp only [rowsValid, validCol, Bool.and_eq_true, decide_eq_true_eq] at hv
    exact noop (.inr (.inr (.inr (.inr ⟨chip, col, v, rfl, by omega⟩))))
  | draw => exact absurd rfl hv
  | release =>
    simp only [exec, execRelease, accept_life, hl] at ht
    exact Host.Outcome.next.inj ht ▸ .ends (restsAt_release h hs.cmdReady)

/-- Every command on a ready port. -/
theorem exec_accepted (h : s.Operating) (hc : s.cmdReady = true) (ht : exec i s = .next t) : Accepted i s t := by
  obtain ⟨st, hst, rfl⟩ | rfl | ⟨hl, rfl⟩ | ⟨-, hl, -⟩ | ⟨req, hl, hrun⟩ := exec_next_cases ht
  · exact .ends (restsAt_raise h hc (by rcases hst with rfl | ⟨rfl, -⟩ <;> simp))
  · exact .ends (restsAt_finish h hc .ok)
  · exact .ends (restsAt_release h hc)
  · have hs : s.Runs := ⟨(operating_iff.mp h).2, hc, hl⟩
    by_cases hv : rowsValid s.chips i = true
    · obtain ⟨ms, w, total, -, hsends, -⟩ := sendsRows_of_rowsValid hs hv
      exact accepted_of_sendsRows hsends ht
    · exact accepted_of_not_rowsValid h hs hv ht
  · exact .begins req hl hrun

end

/-- INIT's own frames are of the display test and the scan limit register (41_lifecycle.md R103). -/
theorem initFrames_maySend (cfg : Config) (n : Nat) : ∀ m ∈ initFrames cfg n, m.MaySend := by
  intro m hm chip reg d hsend
  obtain ⟨c, -, hm⟩ := List.mem_flatMap.mp hm
  simp only [initChip, clearChip, List.mem_append, List.mem_map, List.mem_singleton] at hm
  rcases hm with (⟨d', -, rfl⟩ | rfl) | ⟨r, -, rfl⟩ <;> cases hsend <;> simp [controlRegs]

/-- The state in which a command admitted in `READY` has its pseudocode is between two frames. -/
theorem State.Operating.between_accept {s : State} (h : s.Operating) (hc : s.cmdReady = true) (hl : s.life = .ready)
    {i : Instr} {ms : List Micro} (hr : ∀ m ∈ ms, m.inRange s.chips = true) :
    ((accept i s).withRest ms).Between i ms := by
  obtain ⟨-, hrsp, -, hf, hv⟩ := h.ports hc
  exact ⟨h.rstN, h.lifeOk, h.shadowOk, h.chainOk, hl, rfl, rfl, hr, hf, hv, hrsp⟩

/-- And so is the one in which INIT has its own (41_lifecycle.md R100). -/
theorem State.Operating.between_begin {s : State} (h : s.Operating) (hc : s.cmdReady = true) (i : Instr) (req : Nat) :
    ((beginLife (effLen req) (accept i s)).withRest (initFrames s.cfg (effLen req))).Between i
      (initFrames s.cfg (effLen req)) := by
  obtain ⟨-, hrsp, -, hf, hv⟩ := h.ports hc
  obtain ⟨h1, h8⟩ := effLen_bounds req
  have hn := beginLife_chips h8 (accept i s)
  exact ⟨h.rstN, (lifeOk_ready rfl).mpr ⟨hn.symm ▸ ⟨h1, h8⟩, rfl⟩, rfl, h.chainOk, rfl, rfl, rfl,
    hn.symm ▸ initFrames_inRange _ _, hf, hv, hrsp⟩

/-! The frames in flight -/

/-- Without a frame and a command there is nothing to ask. -/
theorem framesOk_idle {s : State} (hf : s.frame = none) (hq : s.seq = none) : s.FramesOk :=
  ⟨fun f h => by simp [hf] at h, fun q chip reg d h => by simp [hq] at h⟩

/-- The next frame of a command is of a control register, or carries the byte just written. -/
theorem State.Between.advance_framesOk {s t : State} {i : Instr} {ms : List Micro} (h : s.Between i ms)
    (hs : ∀ m ∈ ms, m.MaySend) (ht : Machine.advance s = .next t) : t.FramesOk := by
  rcases h.advance_cases ht with ⟨-, rfl⟩ | ⟨m, ms', rfl, hitem⟩
  · exact framesOk_idle h.frame rfl
  obtain ⟨hm, hms⟩ := List.forall_mem_cons.mp hs
  have toCome : ∀ q chip reg d, some (Seq.mk i ms') = some q → Micro.send chip reg d ∈ q.rest → reg ∈ controlRegs := by
    rintro q chip reg d ⟨⟩ hmem
    exact hms _ hmem chip reg d rfl
  cases hitem with
  | @sends chip reg d f hf =>
    refine ⟨fun g hg => ?_, toCome⟩
    obtain rfl := Option.some.inj hg
    exact ⟨chip, reg, d, hf, .inl (hm chip reg d rfl)⟩
  | @writes _ w f mem hw hc hr hf hmem =>
    refine ⟨fun g hg => ?_, toCome⟩
    obtain rfl := Option.some.inj hg
    have hbyte := shadowByte_rowWrite (w := w) h.shadowOk hmem hc hr
      (t := { s with sh := some (mem.write w.index w.byte) }) rfl rfl w.index
    exact ⟨w.chip, .digit w.row, w.byte, hf, .inr ⟨w.row, hr, rfl, hbyte.trans (if_pos rfl)⟩⟩

/-- After a success the sequencer goes on. -/
theorem onTransport_done_succeeded {s : State} (ha : s.awaitsDone = true) :
    onTransport (.done true) s = advance { completeTaken true s with frame := none, cnt := s.cnt + 1#8 } :=
  onTxDone_awaited ha true

/-- The items still to come of a command in flight send control frames only. -/
theorem State.FramesOk.maySend {s : State} {q : Seq} (h : s.FramesOk) (hq : s.seq = some q) :
    ∀ m ∈ q.rest, m.MaySend := by
  rintro m hm chip reg d rfl
  exact h.toCome q chip reg d hq hm

theorem State.FramesOk.setInputs {s : State} (h : s.FramesOk) (es : List Input) : (s.setInputs es).FramesOk :=
  ⟨h.frame, h.toCome⟩

/-- An act of the transport keeps the invariant and what the frames are. -/
theorem State.FramesOk.onTransport {s t : State} {e : TxEvent} (h : s.FramesOk) (ho : s.Operating)
    (ht : onTransport e s = .next t) : t.Operating ∧ t.FramesOk := by
  refine ⟨of_eq_next (ho.onTransport e) ht, ?_⟩
  cases onTransport_cases ht with
  | issue => exact ⟨h.frame, h.toCome⟩
  | stray ok ha => exact ⟨h.frame, h.toCome⟩
  | fails ha => exact framesOk_idle (raise_frame ..) (raise_seq ..)
  | goesOn ha _ =>
    obtain ⟨i, ms, hb⟩ := ho.between ha true (s.cnt + 1#8)
    have hq : s.seq = some ⟨i, ms⟩ := hb.seq
    exact hb.advance_framesOk (h.maySend hq) ((onTransport_done_succeeded ha).symm.trans ht)

theorem State.FramesOk.settle {s t : State} {es : List Input} (h : s.FramesOk) (ho : s.Operating)
    (ht : settle es s = .next t) : t.FramesOk :=
  (settle_keeps (P := fun u => u.Operating ∧ u.FramesOk) (fun fs _ ⟨ho, h⟩ => ⟨ho.setInputs fs, h.setInputs fs⟩)
    (fun _ _ _ _ _ ⟨ho, h⟩ ht => h.onTransport ho ht) ⟨ho, h⟩ ht).2

/-- Pseudocode given to the sequencer. -/
theorem State.Between.launch_framesOk {s t : State} {i : Instr} {ms : List Micro} (h : (s.withRest ms).Between i ms)
    (hs : ∀ m ∈ ms, m.MaySend) (ht : Machine.launch ms s = .next t) : t.FramesOk := by
  obtain ⟨u, hu, ht⟩ := andThen_eq_next ht
  exact (h.advance_framesOk hs hu).settle (of_eq_next h.advance hu) ht

theorem exec_framesOk {s t : State} {i : Instr} (h : s.Operating) (hc : s.cmdReady = true) (ht : exec i s = .next t) :
    t.FramesOk := by
  cases exec_accepted h hc ht with
  | ends hr => exact framesOk_idle hr.frame hr.seq
  | launches ms hl hr hs hrun => exact (h.between_accept hc hl hr).launch_framesOk hs hrun
  | begins req hl hrun => exact (h.between_begin hc i req).launch_framesOk (initFrames_maySend _ _) hrun

/-- Settles O54: a frame is presented by an item, and an item's frame is of one of the two kinds. -/
theorem framesCarryTheShadow : Obligations.FramesCarryTheShadow := by
  intro s t hinv h ht
  cases hr : s.rstN with
  | false =>
    have hreset := (step_held_cases hr ht).1
    exact framesOk_idle hreset.frame hreset.seq
  | true =>
    have ho : s.Operating := operating_iff.mpr ⟨hr, hinv⟩
    cases step_cases hr ht with
    | waits hi => exact h
    | skips hi he => exact h.setInputs _
    | resets hi => exact framesOk_idle rfl rfl
    | @executes w p rest i _ hi hc hd hx =>
      have hp : { s.setInputs rest with pixIn := p }.Operating := ⟨hr, ho.lifeOk, ho.shadowOk, ho.flightOk, ho.chainOk⟩
      exact exec_framesOk hp hc hx
    | illegal hi hc hd =>
      obtain ⟨-, -, -, hf, -⟩ := ho.ports hc
      exact framesOk_idle ((raise_frame ..).trans hf) (raise_seq ..)
    | takes hi => exact ⟨h.frame, h.toCome⟩
    | @transports e rest u _ hi hu ht =>
      obtain ⟨hou, hfu⟩ := (h.setInputs rest).onTransport (ho.setInputs rest) hu
      exact hfu.settle hou ht

end Sys2Proof.Machine
end

section
/-! PROOFS. The shadow as a mirror of the chips (spec/45_chain_environment.md R179, 20_memory.md R63): that every act of
a command keeps it but for a failed transaction, and so every step in which none fails. -/

namespace Sys2Proof.Machine

/-! A frame that goes through -/

/-- A frame that fits the chain is for the chain's number of chips, as far as that is known. -/
theorem agrees_of_fits {h : Chain} {f : Frame} {n : Nat} (hf : f.length = 2 * n) (hfit : h.fits f = true) :
    h.agrees n = true := by
  cases hw : h.wired with
  | none => simp [Chain.agrees, hw]
  | some w =>
    have := (fits_iff hw f).mp hfit
    simp only [Chain.agrees, hw, Option.all_some, beq_iff_eq]
    omega

/-- The row registers are apart from one another, from NOP and from the control registers (00_scope.md R7). -/
structure RowsApart (t : RegTable) : Prop where
  conforming : t.conforming = true
  control : ∀ r g, r ≤ 7 → g ∈ controlRegs → t.addr (.digit r) ≠ t.addr g

/-- A state out of reset that meets the invariant, whose frames are what they should be and whose shadow mirrors the
chips. -/
structure State.Mirrors (s : State) : Prop where
  operating : s.Operating
  framesOk : s.FramesOk
  mirrored : s.Mirrored
  regs : RowsApart s.cfg.reg

/-- Between two frames: no frame is held, and each row is mirrored or still to be cleared. -/
structure State.MirrorsBetween (s : State) (i : Instr) (ms : List Micro) : Prop where
  between : s.Between i ms
  maySend : ∀ m ∈ ms, m.MaySend
  taken : s.taken = none
  rows : ∀ c r, c < s.chips → r ≤ 7 → s.rowMirrored c r ∨ .clearRow c r ∈ ms
  regs : RowsApart s.cfg.reg

/-- A frame for the wrong number of chips is a fault of the wiring; one for the right number gives the row it carries
its shadow byte and leaves every other row, so that each row is mirrored then, or still to be cleared. -/
theorem State.Mirrors.delivered {s : State} (h : s.Mirrors) (ha : s.awaitsDone = true) (cnt : BitVec 8) :
    (completeTaken true s).chain.miswired = true ∨
      ∃ i ms, { completeTaken true s with frame := none, cnt := cnt }.MirrorsBetween i ms := by
  obtain ⟨-, q, f, hflight, htaken⟩ := (operating_iff.mp h.operating).2.waiting ha
  have hchain := completeTaken_chain_some htaken true
  cases hfit : s.chain.fits f with
  | false => exact .inl (by rw [hchain, complete_of_not_fits hfit]; rfl)
  | true =>
    have hagrees := agrees_of_fits hflight.length hfit
    obtain ⟨i, ms, hb⟩ := h.operating.between ha true cnt
    have hq : s.seq = some ⟨i, ms⟩ := hb.seq
    refine .inr ⟨i, ms, hb, h.framesOk.maySend hq, rfl, fun c r hc hr => ?_, h.regs⟩
    have hc : c < s.chips := hc
    have hnop := digit_ne_nop h.regs.conforming hr
    -- what the frame leaves in the row's register
    have hreg : ∀ {chip reg d}, encodeFrame s.chips chip reg d = some f →
        (completeTaken true s).chain.reg c (s.cfg.reg.addr (.digit r)) =
          if c = chip ∧ s.cfg.reg.addr (.digit r) = reg then d else s.chain.reg c (s.cfg.reg.addr (.digit r)) :=
      fun hf => hchain ▸ latch_encodeFrame_reg hagrees hf hc hnop
    rcases h.mirrored.rows hflight.life c r hc hr with hrow | ⟨d, hd, -, hf⟩ | ⟨q', hq', hclear⟩
    · left
      obtain ⟨chip, reg, d, hf, hkind⟩ := h.framesOk.frame f hflight.frame
      by_cases hhit : c = chip ∧ s.cfg.reg.addr (.digit r) = s.cfg.reg.addr reg
      · obtain ⟨rfl, haddr⟩ := hhit
        rcases hkind with hcontrol | ⟨r', hr', rfl, hd⟩
        · exact absurd haddr (h.regs.control r reg hr hcontrol)
        · obtain rfl := (digit_eq_iff hr hr').mp haddr
          exact hd.trans (congrArg some ((hreg hf).trans (if_pos ⟨rfl, rfl⟩)).symm)
      · exact hrow.trans (congrArg some ((hreg hf).trans (if_neg hhit)).symm)
    · exact .inl (hd.trans (congrArg some ((hreg (hf.symm.trans hflight.frame)).trans (if_pos ⟨rfl, rfl⟩)).symm))
    · obtain rfl := Option.some.inj (hq'.symm.trans hq)
      exact .inr hclear

/-! The next frame -/

/-- The row of a write that clears. -/
theorem Micro.Writes.of_clearRow {s : State} {c r : Nat} {w : RowWrite} (h : (Micro.clearRow c r).Writes s w) :
    c = w.chip ∧ r = w.row := by
  rcases h with ⟨h, -⟩ | h | ⟨h, -⟩ | ⟨col, lit, v, h, -⟩ <;> cases h
  exact ⟨rfl, rfl⟩

/-- A row that is written is in flight, and each other row is as it was. -/
theorem State.MirrorsBetween.advance_mirrored {s t : State} {i : Instr} {ms : List Micro} (h : s.MirrorsBetween i ms)
    (ht : advance s = .next t) : t.Mirrored := by
  rcases h.between.advance_cases ht with ⟨rfl, rfl⟩ | ⟨m, ms', rfl, hitem⟩
  · exact ⟨.inl h.taken, fun _ c r hc hr => (h.rows c r hc hr).imp_right nofun⟩
  cases hitem with
  | @sends chip reg d f hf =>
    refine ⟨.inl h.taken, fun _ c r hc hr => (h.rows c r hc hr).imp_right fun hclear => .inr ?_⟩
    exact ⟨_, rfl, (List.mem_cons.mp hclear).resolve_left nofun⟩
  | @writes _ w f mem hw hc' hr' hf hmem =>
    refine ⟨.inl h.taken, fun _ c r hc hr => ?_⟩
    have hbyte := shadowByte_rowWrite (w := w) h.between.shadowOk hmem hc' hr'
      (t := { s with sh := some (mem.write w.index w.byte) }) rfl rfl
    by_cases hrow : c = w.chip ∧ r = w.row
    · obtain ⟨rfl, rfl⟩ := hrow
      exact .inr (.inl ⟨w.byte, (hbyte _).trans (if_pos rfl), rfl, hf.symm⟩)
    · have hindex : c * 8 + r ≠ w.index := fun he => hrow ((shadowIndex_inj hr hr').mp he)
      refine (h.rows c r hc hr).imp (fun hm => ((hbyte _).trans (if_neg hindex)).trans hm) fun hclear => .inr ?_
      refine ⟨_, rfl, (List.mem_cons.mp hclear).resolve_left ?_⟩
      rintro rfl
      exact hrow hw.of_clearRow

theorem State.MirrorsBetween.advance {s t : State} {i : Instr} {ms : List Micro} (h : s.MirrorsBetween i ms)
    (ht : Machine.advance s = .next t) : t.Mirrors :=
  ⟨of_eq_next h.between.advance ht, h.between.advance_framesOk h.maySend ht, h.advance_mirrored ht,
    (advance_cases ht).runsTo.cfg ▸ h.regs⟩

/-! The transport -/

/-- A command has just ended TRANSPORT_FAIL. -/
structure State.HasFailed (s : State) : Prop where
  busy : s.busy = false
  rspValid : s.rspValid = true
  lastStatus : s.lastStatus = .transportFail

theorem State.Mirrored.setInputs {s : State} (h : s.Mirrored) (es : List Input) : (s.setInputs es).Mirrored :=
  ⟨h.taken, h.rows⟩

theorem State.Mirrors.setInputs {s : State} (h : s.Mirrors) (es : List Input) : (s.setInputs es).Mirrors :=
  ⟨h.operating.setInputs es, h.framesOk.setInputs es, h.mirrored.setInputs es, h.regs⟩

/-- With no report to wait for, the transport holds no frame. -/
theorem State.Mirrored.taken_none {s : State} (h : s.Mirrored) (ha : s.awaitsDone = false) : s.taken = none :=
  h.taken.resolve_right fun ⟨ha', _⟩ => Bool.false_ne_true (ha.symm.trans ha')

/-- The taking of a frame keeps the mirror. -/
theorem State.Mirrors.onTxIssue_mirrored {s : State} (h : s.Mirrors) : (onTxIssue s).Mirrored := by
  refine ⟨?_, h.mirrored.rows⟩
  cases hv : s.txValid with
  | false =>
    have ha : (onTxIssue s).awaitsDone = s.awaitsDone := by simp [State.awaitsDone, hv]
    rw [ha]
    simpa [onTxIssue, hv] using h.mirrored.taken
  | true =>
    cases hb : s.busy with
    | false =>
      obtain ⟨-, -, hv'⟩ := (flightOk_idle hb).mp h.operating.flightOk
      exact absurd (hv.symm.trans hv') (by simp)
    | true =>
      obtain ⟨q, f, hi⟩ := (flightOk_busy hb).mp h.operating.flightOk
      exact .inr ⟨by simp [State.awaitsDone, hb, hi.frame], by simp [onTxIssue, hv]⟩

/-- A report that the LMDC does not wait for completes no frame. -/
theorem State.Mirrors.completeTaken_mirrored {s : State} (h : s.Mirrors) (ha : s.awaitsDone = false) (ok : Bool) :
    (completeTaken ok s).Mirrored := by
  refine ⟨.inl rfl, fun hl c r hc hr => ?_⟩
  have hchain := completeTaken_chain_none (h.mirrored.taken_none ha) ok
  refine (h.mirrored.rows hl c r hc hr).imp_left fun hm => ?_
  rw [State.rowMirrored, hchain]
  exact hm

/-- An act of the transport keeps the mirror, or it is the failure of a transaction or one for another number of
chips. -/
theorem State.Mirrors.onTransport {s t : State} {e : TxEvent} (h : s.Mirrors) (ht : onTransport e s = .next t) :
    t.chain.miswired = true ∨ t.Mirrors ∨ t.HasFailed ∧ e = .done false := by
  obtain ⟨ho, hf⟩ := h.framesOk.onTransport h.operating ht
  have hregs : RowsApart t.cfg.reg := (onTransport_runsTo ht).cfg ▸ h.regs
  cases onTransport_cases ht with
  | issue => exact .inr (.inl ⟨ho, hf, h.onTxIssue_mirrored, hregs⟩)
  | stray ok ha => exact .inr (.inl ⟨ho, hf, h.completeTaken_mirrored ha ok, hregs⟩)
  | fails ha => exact .inr (.inr ⟨⟨raise_busy .., raise_rspValid .., raise_lastStatus ..⟩, rfl⟩)
  | goesOn ha hadv =>
    rcases h.delivered ha (s.cnt + 1#8) with hmis | ⟨i, ms, hb⟩
    · exact .inl (hadv.runsTo.chain.miswired hmis)
    · exact .inr (.inl (hb.advance ((onTransport_done_succeeded ha).symm.trans ht)))

/-- Running on uses up a first part of the inputs, and does with it alone what it does with all. -/
theorem settle_uses {es : List Input} {s t : State} (h : settle es s = .next t) :
    ∃ used, es = used ++ t.inputs ∧ settle used s = .next (t.setInputs []) := by
  have stops {s : State} {fs : List Input} (h : (.next (s.setInputs fs) : Result) = .next t) :
      ∃ used, fs = used ++ t.inputs ∧ settle used s = .next (t.setInputs []) :=
    Host.Outcome.next.inj h ▸ ⟨[], rfl, rfl⟩
  induction es generalizing s with
  | nil => exact stops h
  | cons e es ih =>
    cases e with
    | tx e =>
      cases hb : s.busy with
      | false => exact stops (settle_idle hb _ ▸ h)
      | true =>
        rw [settle_tx hb, onTransport_inputs] at h
        obtain ⟨v, hv, h⟩ := andThen_eq_next h
        obtain ⟨u, hu, hv⟩ := andThen_eq_next hv
        obtain rfl := Host.Outcome.next.inj hv
        rw [settle_inputs] at h
        obtain ⟨used, hused, hrun⟩ := ih h
        refine ⟨.tx e :: used, congrArg _ hused, ?_⟩
        rw [settle_tx hb, onTransport_inputs, hu, withInputs_next, andThen_next, settle_inputs, hrun]
    | rst l => exact stops h
    | command w p => exact stops h
    | takeResponse => exact stops h

/-- No transaction fails as the inputs `es` are used up to those left in `t`: they hold no failed completion, or no
command ends TRANSPORT_FAIL. -/
def State.NoFailure (es : List Input) (t : State) : Prop :=
  ∀ used, es = used ++ t.inputs → .tx (.done false) ∈ used → ¬ (t.rspValid = true ∧ t.lastStatus = .transportFail)

/-- Running on without a failure keeps the mirror. -/
theorem State.Mirrors.settle_mirrored {s t : State} {es : List Input} (h : s.Mirrors) (ht : settle es s = .next t)
    (hw : t.chain.miswired = false) (hn : State.NoFailure es t) : t.Mirrored := by
  obtain ⟨used, hused, hrun⟩ := settle_uses ht
  have hkept := settle_keeps (es := used)
    (P := fun u => u.chain.miswired = true ∨ u.Mirrors ∨ u.HasFailed ∧ .tx (.done false) ∈ used)
    (fun fs u hu => hu.imp_right (.imp (·.setInputs fs) fun ⟨⟨hb, hv, hs⟩, hm⟩ => ⟨⟨hb, hv, hs⟩, hm⟩))
    (fun e u v he hb hu hv => by
      rcases hu with hmis | hm | ⟨hfail, -⟩
      · exact .inl ((onTransport_runsTo hv).chain.miswired hmis)
      · exact (hm.onTransport hv).imp_right (.imp_right fun ⟨hfail, hdone⟩ => ⟨hfail, hdone ▸ he⟩)
      · exact absurd hb (by simp [hfail.busy]))
    (.inr (.inl h)) hrun
  rcases hkept with hmis | hm | ⟨hfail, hmem⟩
  · exact absurd (hw.symm.trans hmis) Bool.false_ne_true
  · exact hm.mirrored.setInputs t.inputs
  · exact absurd ⟨hfail.rspValid, hfail.lastStatus⟩ (hn used hused hmem)

/-! An accepted command -/

/-- With no command in flight every row is mirrored and the transport holds no frame. -/
theorem State.Mirrored.idle {s : State} (h : s.Mirrored) (hb : s.busy = false) (hf : s.flightOk = true) :
    s.taken = none ∧ (s.life = .ready → ∀ c r, c < s.chips → r ≤ 7 → s.rowMirrored c r) := by
  obtain ⟨hq, hframe, -⟩ := (flightOk_idle hb).mp hf
  refine ⟨h.taken_none (by simp [State.awaitsDone, hb]), fun hl c r hc hr => ?_⟩
  rcases h.rows hl c r hc hr with hm | ⟨d, -, hsome, -⟩ | ⟨q, hq', -⟩
  · exact hm
  · simp [hframe] at hsome
  · simp [hq] at hq'

theorem shadowByte_congr {s t : State} (hn : t.n = s.n) (hsh : t.sh = s.sh) (j : Nat) :
    t.shadowByte j = s.shadowByte j := by
  rw [State.shadowByte, shadowHas_congr hn (by rw [hsh]), hsh, State.shadowByte]

/-- A state that rests as an idle one did mirrors the chips as that one did. -/
theorem State.RestsAt.mirrored {s t : State} (h : s.RestsAt t) (htaken : s.taken = none)
    (hrows : s.life = .ready → ∀ c r, c < s.chips → r ≤ 7 → s.rowMirrored c r) : t.Mirrored := by
  refine ⟨.inl (h.taken.trans htaken), fun hl c r hc hr => .inl ?_⟩
  obtain ⟨hl', hn, hsh, hchain⟩ := h.ready hl
  have hm := hrows hl' c r (by rwa [State.chips, ← hn]) hr
  rw [State.rowMirrored, h.cfg, hchain]
  exact (shadowByte_congr hn hsh _).trans hm

/-- Pseudocode given to the sequencer keeps the mirror, unless a transaction fails. -/
theorem State.MirrorsBetween.launch_mirrored {s t : State} {i : Instr} {ms : List Micro}
    (h : (s.withRest ms).MirrorsBetween i ms) (ht : launch ms s = .next t) (hw : t.chain.miswired = false)
    (hn : State.NoFailure s.inputs t) : t.Mirrored := by
  obtain ⟨u, hu, ht⟩ := andThen_eq_next ht
  have hin : u.inputs = s.inputs := (advance_cases hu).environment.1
  exact (h.advance hu).settle_mirrored ht hw (hin ▸ hn)

/-- INIT clears every row of every chip (41_lifecycle.md R103). -/
theorem clearRow_mem_initFrames (cfg : Config) {n c r : Nat} (hc : c < n) (hr : r ≤ 7) :
    .clearRow c r ∈ initFrames cfg n := by
  refine List.mem_flatMap.mpr ⟨c, List.mem_range.mpr hc, List.mem_append_right _ ?_⟩
  exact List.mem_map.mpr ⟨r, List.mem_range.mpr (Nat.lt_succ_of_le hr), rfl⟩

theorem State.Mirrors.exec_mirrored {s t : State} {i : Instr} (h : s.Mirrors) (hc : s.cmdReady = true)
    (ht : exec i s = .next t) (hw : t.chain.miswired = false) (hn : State.NoFailure s.inputs t) : t.Mirrored := by
  have ho := h.operating
  obtain ⟨hb, -⟩ := ho.ports hc
  obtain ⟨htaken, hrows⟩ := h.mirrored.idle hb ho.flightOk
  cases exec_accepted ho hc ht with
  | ends hr => exact hr.mirrored htaken hrows
  | launches ms hl hr hs hrun =>
    have hbetween : ((accept i s).withRest ms).MirrorsBetween i ms :=
      ⟨ho.between_accept hc hl hr, hs, htaken, fun c r hc hr => .inl (hrows hl c r hc hr), h.regs⟩
    exact hbetween.launch_mirrored hrun hw hn
  | begins req hl hrun =>
    have hchips := beginLife_chips (effLen_bounds req).2 (accept i s)
    have hbetween : ((beginLife (effLen req) (accept i s)).withRest (initFrames s.cfg (effLen req))).MirrorsBetween i
        (initFrames s.cfg (effLen req)) :=
      ⟨ho.between_begin hc i req, initFrames_maySend _ _, htaken,
        fun c r hc hr => .inr (clearRow_mem_initFrames s.cfg (hchips ▸ hc) hr), h.regs⟩
    exact hbetween.launch_mirrored hrun hw hn

/-! The step -/

/-- The premise of R179 on a step that begins without a response, for the inputs after the first ones. -/
theorem noFailure_of_inputs {s t : State} {pre es : List Input} (hi : s.inputs = pre ++ es) (hv : s.rspValid = false)
    (h : (∃ used, s.inputs = used ++ t.inputs ∧ .tx (.done false) ∉ used) ∨
      ¬ (s.rspValid = false ∧ t.rspValid = true ∧ t.lastStatus = .transportFail)) : State.NoFailure es t := by
  intro used hused hmem ⟨hrsp, hstatus⟩
  rcases h with ⟨all, hall, hnot⟩ | hnot
  · rw [hi, hused, ← List.append_assoc] at hall
    exact hnot (List.append_cancel_right hall ▸ List.mem_append_right pre hmem)
  · exact hnot ⟨hv, hrsp, hstatus⟩

/-- With no command in flight an act of the transport keeps the mirror, and there is none afterwards. -/
theorem State.Mirrors.onTransport_idle_mirrored {s u : State} {e : TxEvent} (h : s.Mirrors) (hb : s.busy = false)
    (hu : Machine.onTransport e s = .next u) : u.busy = false ∧ u.Mirrored := by
  obtain ⟨-, rfl⟩ | ⟨ok, -, rfl⟩ := onTransport_idle hb hu
  · exact ⟨hb, h.onTxIssue_mirrored⟩
  · exact ⟨hb, h.completeTaken_mirrored (by simp [State.awaitsDone, hb]) ok⟩

/-- A step out of reset without a failure keeps the mirror. -/
theorem State.Mirrors.step_mirrored {s t : State} (h : s.Mirrors) (ht : step s = .next t) (hr' : t.rstN = true)
    (hw : t.chain.miswired = false)
    (hfail : (∃ used, s.inputs = used ++ t.inputs ∧ .tx (.done false) ∉ used) ∨
      ¬ (s.rspValid = false ∧ t.rspValid = true ∧ t.lastStatus = .transportFail)) : t.Mirrored := by
  have ho := h.operating
  have hm := h.mirrored
  cases step_cases ho.rstN ht with
  | waits hi => exact hm
  | skips hi he => exact hm.setInputs _
  | resets hi => cases hr'
  | @executes w p rest i _ hi hc hd hx =>
    obtain ⟨-, hv, -⟩ := ho.ports hc
    have hp : { s.setInputs rest with pixIn := p }.Mirrors :=
      ⟨⟨ho.rstN, ho.lifeOk, ho.shadowOk, ho.flightOk, ho.chainOk⟩, ⟨h.framesOk.frame, h.framesOk.toCome⟩,
        ⟨hm.taken, hm.rows⟩, h.regs⟩
    exact hp.exec_mirrored hc hx hw (noFailure_of_inputs (pre := [.command w p]) hi hv hfail)
  | @illegal w p rest hi hc hd =>
    obtain ⟨hb, -, -, hf, -⟩ := ho.ports hc
    obtain ⟨htaken, hrows⟩ := hm.idle hb ho.flightOk
    rw [endIllegal_eq]
    have hrest : s.RestsAt (finish .illegalCmd { s with pixIn := p, inputs := rest, cnt := 0#8 }) :=
      ⟨rfl, rfl, hf, rfl, rfl, fun hl => ⟨hl, rfl, rfl, rfl⟩⟩
    exact hrest.mirrored htaken hrows
  | takes hi => exact ⟨hm.taken, hm.rows⟩
  | @transports e rest u _ hi hu hrun =>
    cases hb : s.busy with
    | true =>
      obtain ⟨q, f, hflight⟩ := (flightOk_busy hb).mp ho.flightOk
      exact h.settle_mirrored ((step_in_flight ho.rstN hb hi).symm.trans ht) hw
        (noFailure_of_inputs (pre := []) rfl hflight.rspValid hfail)
    | false =>
      obtain ⟨hb', hmu⟩ := (h.setInputs rest).onTransport_idle_mirrored hb hu
      rw [settle_idle hb'] at hrun
      exact Host.Outcome.next.inj hrun ▸ hmu.setInputs _

/-- Settles O52: with the invariant and `FramesOk` every step keeps the mirror, and an idle state has no exception to
it. -/
theorem mirrorPreserved : Obligations.MirrorPreserved := by
  intro s t hinv hframes hmirrored hconforming hcontrol hr ht hr' hw hfail
  have h : s.Mirrors := ⟨operating_iff.mpr ⟨hr, hinv⟩, hframes, hmirrored, hconforming, hcontrol⟩
  have hmiswired : t.chain.miswired = false := by
    simp only [State.miswired, Bool.or_eq_false_iff] at hw
    exact hw.1
  have hm := h.step_mirrored ht hr' hmiswired hfail
  refine ⟨hm, fun hl hb => ?_⟩
  obtain ⟨-, -, hflight, -⟩ := of_eq_next (stepKeepsInvariant s hinv) ht
  obtain ⟨htaken, hrows⟩ := hm.idle hb hflight
  exact ⟨htaken, hrows hl⟩

end Sys2Proof.Machine
end

section
/-! PROOFS. The exceptions of the command port: the word that spells no command, and the commands that admission turns
away (60_exceptions.md R191, R193, R196). -/

namespace Sys2Proof.Machine

/-- A command sample on a ready port that does not decode ends with ILLEGAL_CMD. -/
theorem onCommand_illegal {s : State} {w : CmdWord} (p : Plane) (hc : s.cmdReady = true) (hd : decodeWord w = none) :
    onCommand w p s = .next (finish .illegalCmd { s with pixIn := p, cnt := 0#8 }) := by
  simp only [onCommand, hc, if_true, hd, endIllegal_eq]

/-- The end of a command leaves only its response, where no command was in flight. -/
theorem finish_of_idle {s : State} (hb : s.busy = false) (hq : s.seq = none) (st : Status) :
    finish st s = { s with lastStatus := st, rspValid := true } := by
  cases s
  subst hb hq
  rfl

/-- Settles O11. -/
theorem illegalWordStatus : Obligations.IllegalWordStatus := by
  intro s w p rest hc hq hi hd
  obtain ⟨hb, -, hr⟩ := (cmdReady_iff s).mp hc
  calc step s
    _ = onCommand w p (s.setInputs rest) := step_input hr hi
    _ = .next (finish .illegalCmd { s with pixIn := p, inputs := rest, cnt := 0#8 }) :=
      onCommand_illegal (s := s.setInputs rest) p hc hd
    _ = _ := congrArg _ (finish_of_idle (s := { s with pixIn := p, inputs := rest, cnt := 0#8 }) hb hq _)

/-! Admission -/

/-- Every command but INIT and RELEASE runs in `READY` only (60_exceptions.md R193). -/
theorem exec_eq_inReady {i : Instr} (hinit : ∀ req, i ≠ .init req) (hrelease : i ≠ .release) (s : State) :
    ∃ body, exec i s = inReady i body s := by
  cases i with
  | init req => exact absurd rfl (hinit req)
  | release => exact absurd rfl hrelease
  | clear chip => exact ⟨_, by rw [exec, execClear]⟩
  | clearAll => exact ⟨_, by rw [exec, execClearAll]⟩
  | setRowAll row value => exact ⟨_, by rw [exec, execSetRowAll]⟩
  | draw => exact ⟨_, by rw [exec, execDraw]⟩
  | _ => exact ⟨_, rfl⟩

theorem inReady_of_uninit {s : State} (i : Instr) (body : State → Result) (h : s.life = .uninit) :
    inReady i body s = .next (raise .illegalState (accept i s)) := by
  simp only [inReady, accept_life, h]

theorem inReady_of_released {s : State} (i : Instr) (body : State → Result) (h : s.life = .released) :
    inReady i body s = .next (raise .useAfterRelease (accept i s)) := by
  simp only [inReady, accept_life, h]

theorem exec_init_of_ready {s : State} (req : Nat) (h : s.life = .ready) :
    exec (.init req) s = .next (raise .illegalState (accept (.init req) s)) := by
  simp only [exec, execInit, accept_life, h]

/-- An error that ends a command as soon as it is accepted leaves its response with the count 0, for DRAW the latched
plane, and `FAULT` set by USE_AFTER_RELEASE (10_state.md R26, R28; 60_exceptions.md R196). -/
theorem raise_accept {s : State} (hb : s.busy = false) (hq : s.seq = none) (i : Instr) {st : Status}
    (hst : st ≠ .transportFail) : raise st (accept i s) = { s with
      cnt := 0#8, lastStatus := st, rspValid := true, pix := if i = .draw then s.pixIn else s.pix
      faultFlag := s.faultFlag || decide (st = .useAfterRelease) } := by
  rw [raise_of_ne_transportFail hst]
  exact finish_of_idle (s := { s with
    cnt := 0#8, pix := if i = .draw then s.pixIn else s.pix
    faultFlag := s.faultFlag || decide (st = .useAfterRelease) }) hb hq st

/-- Settles O27: by admission the command ends with its error as soon as it is accepted. -/
theorem admissionByLife : Obligations.AdmissionByLife := by
  intro s i hinv hc t
  obtain ⟨-, -, hflight, -⟩ := hinv
  obtain ⟨hb, -⟩ := (cmdReady_iff s).mp hc
  obtain ⟨hq, -⟩ := (flightOk_idle hb).mp hflight
  have hstate : raise .illegalState (accept i s) = { t with lastStatus := .illegalState } := by
    simp [raise_accept hb hq, t]
  have hreleased : raise .useAfterRelease (accept i s) =
      { t with lastStatus := .useAfterRelease, faultFlag := true } := by
    simp [raise_accept hb hq, t]
  refine ⟨?_, fun hinit hrelease hl => ?_, fun hinit hrelease hl => ?_⟩
  · rintro ⟨req, rfl⟩ hl
    rw [exec_init_of_ready req hl, hstate]
  · obtain ⟨body, hbody⟩ := exec_eq_inReady hinit hrelease s
    rw [hbody, inReady_of_uninit i body hl, hstate]
  · obtain ⟨body, hbody⟩ := exec_eq_inReady hinit hrelease s
    rw [hbody, inReady_of_released i body hl, hreleased]

end Sys2Proof.Machine
end

section
/-! PROOFS. Reset (spec/70_reset_and_hazards.md R215, R216): the fall of `rst_n`, and what each input does while it
is 0. -/

namespace Sys2Proof.Machine

/-! The ports at the reset values -/

/-- At the reset values the port is ready exactly out of reset. -/
theorem State.AtReset.cmdReady_eq {t : State} (h : t.AtReset) : t.cmdReady = t.rstN := by
  simp [State.cmdReady, h.busy, h.rspValid]

theorem State.AtReset.response_eq_none {t : State} (h : t.AtReset) : t.response = none := by
  simp [State.response, h.rspValid]

theorem State.AtReset.txPort_eq_none {t : State} (h : t.AtReset) : t.txPort = none := by
  simp [State.txPort, h.txValid]

/-- Settles O4: the fall of `rst_n` sets the LMDC's own fields and no other. -/
theorem resetEndsCommandSilently : Obligations.ResetEndsCommandSilently := by
  intro s rest hr hi
  have hreset : (onReset false (s.setInputs rest)).AtReset := resetLmdc_atReset (s.setInputs rest) false _ _
  exact ⟨_, step_input hr hi, rfl, hreset.cmdReady_eq, hreset, hreset.response_eq_none, hreset.txPort_eq_none,
    rfl, rfl, rfl, rfl, rfl⟩

/-! The inputs in reset -/

/-- In reset no input changes the parameters, `pix_in` or the inputs still to come. -/
theorem onInputHeld_keeps (e : Input) (s : State) :
    (onInputHeld e s).cfg = s.cfg ∧ (onInputHeld e s).pixIn = s.pixIn ∧ (onInputHeld e s).inputs = s.inputs := by
  rcases e with _ | _ | _ | (_ | _) <;> exact ⟨rfl, rfl, rfl⟩

/-- Only the return of `rst_n` to 1 ends the reset. -/
theorem onInputHeld_rstN_iff {s : State} (hr : s.rstN = false) (e : Input) :
    (onInputHeld e s).rstN = true ↔ e = .rst true := by
  rcases e with level | _ | _ | (_ | _) <;> simp [onInputHeld, completeTaken, hr]

/-- In reset only a completion report reaches the transport's frame and the chips. -/
theorem onInputHeld_environment {e : Input} (he : ∀ ok, e ≠ .tx (.done ok)) (s : State) :
    (onInputHeld e s).taken = s.taken ∧ (onInputHeld e s).chain = s.chain := by
  rcases e with _ | _ | _ | (_ | ok)
  case tx.done => exact absurd rfl (he ok)
  all_goals exact ⟨rfl, rfl⟩

/-- Settles O3: a step in reset holds the reset values, with or without an input. -/
theorem resetHoldsState : Obligations.ResetHoldsState := by
  intro s hr
  refine ⟨by simp [State.cmdReady, hr], fun ⟨_, _, _, hreset, _⟩ => ?_, ?_⟩
  · exact (resetOk_iff.mp hreset).resolve_left (by simp [hr])
  cases hi : s.inputs with
  | nil =>
    have hat : (resetLmdc s).AtReset := resetLmdc_atReset s _ _ _
    exact ⟨_, step_held_waits hr hi, hat, by simp [hr], hat.cmdReady_eq, rfl, rfl, hi, by simp, fun _ => ⟨rfl, rfl⟩⟩
  | cons e rest =>
    let u := resetLmdc (s.setInputs rest)
    obtain ⟨hcfg, hpix, hinputs⟩ := onInputHeld_keeps e u
    have hat : (onInputHeld e u).AtReset := onInputHeld_atReset e _
    simp only [List.head?_cons, List.tail_cons, Option.some.injEq, ne_eq]
    refine ⟨_, step_held hr hi, hat, onInputHeld_rstN_iff (s := u) hr e, hat.cmdReady_eq, hcfg, hpix, hinputs, ?_,
      fun he => onInputHeld_environment he u⟩
    rintro ok rfl
    exact ⟨rfl, fun ht => completeTaken_chain_none (s := u) ht ok, fun f ht => completeTaken_chain_some (s := u) ht ok⟩

end Sys2Proof.Machine
end

section
/-! PROOFS. INIT on the chips (spec/41_lifecycle.md R103, R105; 70_reset_and_hazards.md R219): each register holds what
the last of INIT's frames for it brought. -/

namespace Sys2Proof.Machine

/-! The wiring -/

/-- Frames for `n` chips leave a chain that agrees with `n` so, and make no fault of the wiring. -/
theorem chainAfter_wiring {h : Chain} {n k : Nat} {frames : Nat → Frame} (hagrees : h.agrees n = true)
    (hlen : ∀ j, j < k → (frames j).length = 2 * n) :
    (chainAfter h frames k).agrees n = true ∧ (chainAfter h frames k).miswired = h.miswired := by
  induction k with
  | zero => exact ⟨hagrees, rfl⟩
  | succ k ih =>
    obtain ⟨ha, hm⟩ := ih fun j hj => hlen j (hj.trans k.lt_succ_self)
    obtain ⟨hwired, hmiswired⟩ := latch_wiring ha (hlen k k.lt_succ_self)
    exact ⟨by simp [chainAfter, Chain.agrees, hwired], hmiswired.trans hm⟩

/-- After the first of them it is known that `n` chips are wired. -/
theorem chainAfter_wired {h : Chain} {n k : Nat} {frames : Nat → Frame} (hagrees : h.agrees n = true)
    (hlen : ∀ j, j < k → (frames j).length = 2 * n) (hk : 0 < k) : (chainAfter h frames k).wired = some n := by
  obtain ⟨k, rfl⟩ := Nat.exists_eq_succ_of_ne_zero hk.ne'
  obtain ⟨ha, -⟩ := chainAfter_wiring hagrees fun j hj => hlen j (hj.trans k.lt_succ_self)
  exact (latch_wiring ha (hlen k k.lt_succ_self)).1

/-! The places of InitChip -/

/-- The register that the `j`-th frame of InitChip addresses. -/
abbrev initAddr (cfg : Config) (j : Nat) : Byte := cfg.reg.addr (initPair cfg j).1

theorem initPair_pulse {cfg : Config} {j : Nat} (hj : j < cfg.dtPulse.length) :
    initPair cfg j = (.displayTest, cfg.dtPulse.getD j 0x00#8) := if_pos hj

theorem initPair_scanLimit (cfg : Config) : initPair cfg cfg.dtPulse.length = (.scanLimit, 0x07#8) := by
  simp [initPair]

theorem initPair_row (cfg : Config) (r : Nat) : initPair cfg (cfg.dtPulse.length + 1 + r) = (.digit r, 0x00#8) := by
  have hplace : cfg.dtPulse.length + 1 + r - cfg.dtPulse.length - 1 = r := by omega
  rw [initPair, if_neg (by omega), if_neg (by omega), hplace]

/-- After the scan limit's place come the rows'. -/
theorem row_of_initPlace {l j : Nat} (hlj : l < j) (hj : j < l + 9) : ∃ r, r ≤ 7 ∧ j = l + 1 + r :=
  ⟨j - (l + 1), by omega, by omega⟩

/-- A place of InitChip is in the display test pulse, the scan limit's, or a row's. -/
theorem initPlace_cases {l j : Nat} (hj : j < l + 9) : j < l ∨ j = l ∨ ∃ r, r ≤ 7 ∧ j = l + 1 + r := by
  rcases Nat.lt_trichotomy j l with h | h | h
  · exact .inl h
  · exact .inr (.inl h)
  · exact .inr (.inr (row_of_initPlace h hj))

/-- INIT addresses no NOP register. -/
theorem initAddr_ne_nop {cfg : Config} (hreg : cfg.reg.conforming = true) {j : Nat} (hj : j < cfg.dtPulse.length + 9) :
    initAddr cfg j ≠ regNop := by
  obtain ⟨hscan, htest⟩ : cfg.reg.scanLimit ≠ regNop ∧ cfg.reg.displayTest ≠ regNop := by
    simp only [RegTable.conforming, Bool.and_eq_true, bne_iff_ne] at hreg
    obtain ⟨⟨⟨-, hscan⟩, -⟩, htest⟩ := hreg
    exact ⟨hscan, htest⟩
  rcases initPlace_cases hj with hj | rfl | ⟨r, hr, rfl⟩
  · rw [initAddr, initPair_pulse hj]
    exact htest
  · rw [initAddr, initPair_scanLimit]
    exact hscan
  · rw [initAddr, initPair_row]
    exact digit_ne_nop hreg hr

/-! The registers -/

section
variable {cfg : Config} {h : Chain} {n c : Nat} {a : Byte}

/-- The `k`-th frame of INIT is for this register of this chip. -/
abbrev InitHits (cfg : Config) (k c : Nat) (a : Byte) : Prop :=
  c = k / (cfg.dtPulse.length + 9) ∧ a = initAddr cfg (k % (cfg.dtPulse.length + 9))

/-- Each frame of INIT gives its register its byte and leaves every other. -/
theorem chainAfter_initFrame_reg (hagrees : h.agrees n = true) (hc : c < n) {k : Nat}
    (hk : k < (cfg.dtPulse.length + 9) * n) (ha : a ≠ regNop) :
    (chainAfter h (initFrameAt cfg n) (k + 1)).reg c a =
      if InitHits cfg k c a then (initPair cfg (k % (cfg.dtPulse.length + 9))).2
      else (chainAfter h (initFrameAt cfg n) k).reg c a := by
  obtain ⟨hstill, -⟩ := chainAfter_wiring hagrees fun _ hj => initFrameAt_length (hj.trans hk)
  exact latch_encodeFrame_reg hstill (initFrame_eq_some hk) hc ha

/-- A register keeps its byte through frames that are not for it. -/
theorem chainAfter_initFrames_kept (hagrees : h.agrees n = true) (hc : c < n) {j k : Nat} (hjk : j ≤ k)
    (hk : k ≤ (cfg.dtPulse.length + 9) * n) (ha : a ≠ regNop)
    (hother : ∀ i, j ≤ i → i < k → ¬ InitHits cfg i c a) :
    (chainAfter h (initFrameAt cfg n) k).reg c a = (chainAfter h (initFrameAt cfg n) j).reg c a := by
  induction k, hjk using Nat.le_induction with
  | base => rfl
  | succ k hjk ih =>
    rw [chainAfter_initFrame_reg hagrees hc hk ha, if_neg (hother k hjk k.lt_succ_self)]
    exact ih (Nat.le_of_succ_le hk) fun i hi hik => hother i hi (hik.trans k.lt_succ_self)

/-- After all of INIT a register that no place of InitChip addresses is as it was. -/
theorem chainAfter_init_other (hagrees : h.agrees n = true) (hc : c < n) (ha : a ≠ regNop)
    (hother : ∀ j, j < cfg.dtPulse.length + 9 → a ≠ initAddr cfg j) :
    (chainAfter h (initFrameAt cfg n) ((cfg.dtPulse.length + 9) * n)).reg c a = h.reg c a :=
  chainAfter_initFrames_kept hagrees hc (Nat.zero_le _) le_rfl ha
    fun i _ _ ⟨_, hai⟩ => hother _ (Nat.mod_lt i (Nat.succ_pos _)) hai

/-- After all of INIT a register holds the byte of the last place of InitChip that addresses it. -/
theorem chainAfter_init_last (hagrees : h.agrees n = true) (hc : c < n) (hreg : cfg.reg.conforming = true) {j : Nat}
    (hj : j < cfg.dtPulse.length + 9)
    (hlast : ∀ i, j < i → i < cfg.dtPulse.length + 9 → initAddr cfg j ≠ initAddr cfg i) :
    (chainAfter h (initFrameAt cfg n) ((cfg.dtPulse.length + 9) * n)).reg c (initAddr cfg j) = (initPair cfg j).2 := by
  have hnop := initAddr_ne_nop hreg hj
  have hpos : 0 < cfg.dtPulse.length + 9 := Nat.succ_pos _
  have hchip : ((cfg.dtPulse.length + 9) * c + j) / (cfg.dtPulse.length + 9) = c := by
    rw [Nat.mul_add_div hpos, Nat.div_eq_of_lt hj, Nat.add_zero]
  have hplace : ((cfg.dtPulse.length + 9) * c + j) % (cfg.dtPulse.length + 9) = j := by
    rw [Nat.mul_add_mod, Nat.mod_eq_of_lt hj]
  have hlt : (cfg.dtPulse.length + 9) * c + j < (cfg.dtPulse.length + 9) * n :=
    calc (cfg.dtPulse.length + 9) * c + j < (cfg.dtPulse.length + 9) * (c + 1) := by rw [Nat.mul_succ]; omega
      _ ≤ (cfg.dtPulse.length + 9) * n := Nat.mul_le_mul_left _ hc
  rw [chainAfter_initFrames_kept hagrees hc hlt le_rfl hnop fun i hi _ => ?_,
    chainAfter_initFrame_reg hagrees hc hlt hnop, if_pos ⟨hchip.symm, by rw [hplace]⟩, hplace]
  rintro ⟨rfl, hai⟩
  have hsplit := Nat.div_add_mod i (cfg.dtPulse.length + 9)
  exact hlast _ (by omega) (Nat.mod_lt i hpos) hai

/-- Every chip has scan limit 7, unless a row's register is at that address (R103). -/
theorem chainAfter_init_scanLimit (hagrees : h.agrees n = true) (hc : c < n) (hreg : cfg.reg.conforming = true)
    (hdigit : ∀ r, r ≤ 7 → cfg.reg.addr (.digit r) ≠ cfg.reg.scanLimit) :
    (chainAfter h (initFrameAt cfg n) ((cfg.dtPulse.length + 9) * n)).reg c cfg.reg.scanLimit = 0x07#8 := by
  have hwritten := chainAfter_init_last (j := cfg.dtPulse.length) hagrees hc hreg (by omega) fun i hji hi => ?_
  · rwa [initAddr, initPair_scanLimit] at hwritten
  · obtain ⟨r, hr, rfl⟩ := row_of_initPlace hji hi
    rw [initAddr, initAddr, initPair_scanLimit, initPair_row]
    exact (hdigit r hr).symm

/-- The last frame of the display test pulse stays, unless the scan limit or a row's register is at that address. -/
theorem chainAfter_init_displayTest (hagrees : h.agrees n = true) (hc : c < n) (hreg : cfg.reg.conforming = true)
    (hscan : cfg.reg.scanLimit ≠ cfg.reg.displayTest)
    (hdigit : ∀ r, r ≤ 7 → cfg.reg.addr (.digit r) ≠ cfg.reg.displayTest) {d : Byte}
    (hd : cfg.dtPulse.getLast? = some d) :
    (chainAfter h (initFrameAt cfg n) ((cfg.dtPulse.length + 9) * n)).reg c cfg.reg.displayTest = d := by
  have hlast : cfg.dtPulse[cfg.dtPulse.length - 1]? = some d := by rwa [← List.getLast?_eq_getElem?]
  obtain ⟨hj, -⟩ := List.getElem?_eq_some_iff.mp hlast
  have hwritten := chainAfter_init_last (j := cfg.dtPulse.length - 1) hagrees hc hreg (by omega) fun i hji hi => ?_
  · rwa [initAddr, initPair_pulse hj, List.getD_eq_getElem?_getD, hlast] at hwritten
  · rw [initAddr, initAddr, initPair_pulse hj]
    rcases initPlace_cases hi with hi | rfl | ⟨r, hr, rfl⟩
    · omega
    · rw [initPair_scanLimit]
      exact hscan.symm
    · rw [initPair_row]
      exact (hdigit r hr).symm

/-- Every row register is 0x00 (R103). -/
theorem chainAfter_init_row (hagrees : h.agrees n = true) (hc : c < n) (hreg : cfg.reg.conforming = true) {r : Nat}
    (hr : r ≤ 7) :
    (chainAfter h (initFrameAt cfg n) ((cfg.dtPulse.length + 9) * n)).reg c (cfg.reg.addr (.digit r)) = 0x00#8 := by
  have hwritten := chainAfter_init_last (j := cfg.dtPulse.length + 1 + r) hagrees hc hreg (by omega) fun i hji hi => ?_
  · rwa [initAddr, initPair_row] at hwritten
  · obtain ⟨r', hr', rfl⟩ := row_of_initPlace (by omega) hi
    rw [initAddr, initAddr, initPair_row, initPair_row, ne_eq, digit_eq_iff hr hr']
    omega

end

/-- INIT with every transaction successful is its plan, run to the end. -/
theorem exec_init_completes {s : State} {req : Nat} {rest : List Input} (hl : s.life ≠ .ready)
    (hi : s.inputs = okReplies ((s.cfg.dtPulse.length + 9) * effLen req) ++ rest) :
    exec (.init req) s = .next ((s.begun req).afterPlan (fun _ => Memory.cleared) (initFrameAt s.cfg (effLen req))
      ((s.cfg.dtPulse.length + 9) * effLen req) rest) := by
  have hlen := initFrames_length s.cfg (effLen req)
  have hpos : 0 < (initFrames s.cfg (effLen req)).length :=
    hlen ▸ Nat.mul_pos (Nat.succ_pos _) (effLen_bounds req).1
  rw [exec_init hl,
    launch_plan_all (i := .init req) (plan_begun s req) rfl rfl rfl rfl rfl rfl rfl hpos rest (hlen ▸ hi), hlen]

/-- Settles O51: the last frame for the scan limit, the display test and each row of a chip brings what it holds. -/
theorem initReachesTheChips : Obligations.InitReachesTheChips := by
  intro s req rest _ _ hl hagrees hreg hscan hdigit hi
  have hpos : 0 < (s.cfg.dtPulse.length + 9) * effLen req := Nat.mul_pos (Nat.succ_pos _) (effLen_bounds req).1
  have hlen : ∀ j, j < (s.cfg.dtPulse.length + 9) * effLen req →
      (initFrameAt s.cfg (effLen req) j).length = 2 * effLen req := fun j hj => initFrameAt_length hj
  have hchips := begun_chips s req
  obtain ⟨-, hmiswired⟩ := chainAfter_wiring hagrees hlen
  refine ⟨_, exec_init_completes hl hi, rfl, hchips, rfl, chainAfter_wired hagrees hlen hpos, hmiswired,
    fun c hc => ⟨?_, fun d hd => ?_, fun r hr => ?_, fun a ha hnoScan hnoTest hnoDigit => ?_⟩⟩
  · exact chainAfter_init_scanLimit hagrees hc hreg fun r hr => (hdigit r hr).1
  · exact chainAfter_init_displayTest hagrees hc hreg hscan (fun r hr => (hdigit r hr).2) hd
  · have hrow := chainAfter_init_row hagrees hc hreg hr
    have hin : c * 8 + r < 8 * (s.begun req).chips := by rw [hchips]; omega
    exact ⟨hrow, (shadowByte_cleared rfl hin).trans (congrArg some hrow.symm)⟩
  · refine chainAfter_init_other hagrees hc ha fun j hj => ?_
    rcases initPlace_cases hj with hj | rfl | ⟨r, hr, rfl⟩
    · rwa [initAddr, initPair_pulse hj]
    · rwa [initAddr, initPair_scanLimit]
    · rw [initAddr, initPair_row]
      exact hnoDigit r hr

end Sys2Proof.Machine
end
